-- ==== Sys2Proof/Word.lean ====
section
/-!
DEFINITION. Word.lean: the machine's word and byte types and the sentinel (00_scope.md R9, R10).
Everything a repair could want to mend (bit lengths, slices, ceilings) is in Machine/Arith.lean and Decode.lean.
-/

namespace Sys2Proof

/-- A 64-bit value: every host register, index, length and result (00_scope.md R5, R9). -/
abbrev Word := BitVec 64

/-- One byte of an array's storage (10_state.md R24). -/
abbrev Byte := BitVec 8

/-- A slot number as the command word carries it (30_encoding.md R81). -/
abbrev SlotNum := BitVec 10

/-- The immediate of the command word (30_encoding.md R82). -/
abbrev Imm9 := BitVec 9

/-- `SENTINEL` as the number `2^64 - 1` (00_scope.md R9). -/
def sentinelNat : Nat := 2 ^ 64 - 1

/-- `SENTINEL` as a register value (00_scope.md R9). -/
def sentinel : Word := BitVec.ofNat 64 sentinelNat

end Sys2Proof
end

