-- ==== Sys2Proof/Syntax.lean ====
section
/-!
DEFINITION. Syntax.lean: the 26 commands (30_encoding.md R86), one constructor per row of spec/opcode_table.json.
Field widths are the command word's (30_encoding.md R81), so a register number or immediate of the wrong width
cannot be written; the 64-bit operands are not part of a command, they stand in OP0 and OP1 (30_encoding.md R83).
-/

namespace Sys2Proof

/-- The role of an array within its slot, `role[19:18]` (30_encoding.md R81, 10_state.md R24). -/
inductive Role where
  /-- `P = 0`: partition_bits. -/
  | P
  /-- `S = 1`: symbols. -/
  | S
  /-- `SBT = 2`: superblock_table. -/
  | SBT
  /-- `BLT = 3`: block_table. -/
  | BLT
deriving DecidableEq, Repr

/-- A command with its fields (30_encoding.md R86). -/
inductive Instr where
  | sysNop
  | sysReset
  | sysClrerr
  | baNew (slot : SlotNum) (role : Role)
  | baResize (slot : SlotNum) (role : Role)
  | baFree (slot : SlotNum) (role : Role)
  | baLen (slot : SlotNum) (role : Role)
  | baGetbit (slot : SlotNum) (role : Role)
  | baSetbit (slot : SlotNum) (role : Role)
  | baClrbit (slot : SlotNum) (role : Role)
  | baGetint (slot : SlotNum) (role : Role) (width : Imm9)
  | baSetint (slot : SlotNum) (role : Role) (width : Imm9)
  | rdBuild (slot : SlotNum)
  | rdFree (slot : SlotNum)
  | rdRank1 (slot : SlotNum)
  | rdRank0 (slot : SlotNum)
  | rdOvh (slot : SlotNum)
  | rdParam (slot : SlotNum) (sel : Imm9)
  | selSelect1 (slot : SlotNum)
  | selSelect0 (slot : SlotNum)
  | selOvh (slot : SlotNum)
  | wtBuild (slot : SlotNum) (alphabetSize : Imm9)
  | wtFree (slot : SlotNum)
  | wtRank (slot : SlotNum)
  | wtSelect (slot : SlotNum) (symbol : Imm9)
  | wtField (slot : SlotNum) (sel : Imm9)
deriving DecidableEq, Repr

/-- The `slot` field, for the commands that use it (30_encoding.md R84). -/
def Instr.slot? : Instr → Option SlotNum
  | .sysNop => none
  | .sysReset => none
  | .sysClrerr => none
  | .baNew k _ => some k
  | .baResize k _ => some k
  | .baFree k _ => some k
  | .baLen k _ => some k
  | .baGetbit k _ => some k
  | .baSetbit k _ => some k
  | .baClrbit k _ => some k
  | .baGetint k _ _ => some k
  | .baSetint k _ _ => some k
  | .rdBuild k => some k
  | .rdFree k => some k
  | .rdRank1 k => some k
  | .rdRank0 k => some k
  | .rdOvh k => some k
  | .rdParam k _ => some k
  | .selSelect1 k => some k
  | .selSelect0 k => some k
  | .selOvh k => some k
  | .wtBuild k _ => some k
  | .wtFree k => some k
  | .wtRank k => some k
  | .wtSelect k _ => some k
  | .wtField k _ => some k

end Sys2Proof
end

