-- ==== Sys2Proof/Decode.lean ====
section
/-!
DEFINITION. Decode.lean: the value written to CMD read as a command (30_encoding.md R80 to R87), total on every 64-bit
value and rejecting by name, and the encoder written from the same tables. Every rejection is E_ILLEGAL; the
slot-range test, the last of R85, needs NSLOT and is made by the shared operation of every meaning that uses a slot
(Machine/Ops.lean, inSlot).
-/

namespace Sys2Proof

/-- The slice `v[hi:lo]` (00_scope.md R10). -/
def slice (v hi lo : Nat) : Nat := v / 2 ^ lo % 2 ^ (hi - lo + 1)

/-- Why a value written to CMD is no command: the failing test of 30_encoding.md R85, in its order. -/
inductive DecodeError where
  /-- `data[63:32] != 0`. -/
  | upperBits
  /-- `word[31:29] != 0`. -/
  | reservedBits
  /-- `opc` is not in the table of R86. -/
  | unassignedOpcode
  /-- The command does not use `slot` and `slot != 0`. -/
  | unusedSlot
  /-- The command does not use `role` and `role != 0`. -/
  | unusedRole
  /-- The command does not use `imm9` and `imm9 != 0`. -/
  | unusedImm
deriving DecidableEq, Repr

/-- What a value written to CMD selects: exactly one command, or nothing (30_encoding.md R85). -/
inductive Decoded where
  | command (i : Instr)
  | illegal (why : DecodeError)
deriving DecidableEq, Repr

/-- The role with a given number, `0 = P`, `1 = S`, `2 = SBT`, `3 = BLT` (30_encoding.md R81). -/
def Role.ofNum (n : Nat) : Role :=
  if n = 0 then .P else if n = 1 then .S else if n = 2 then .SBT else .BLT

/-- A role's number (30_encoding.md R81). -/
def Role.num : Role → Nat
  | .P => 0
  | .S => 1
  | .SBT => 2
  | .BLT => 3

/-- Which fields a command uses (30_encoding.md R84), with the command those fields make. -/
inductive Form where
  | bare (i : Instr)
  | slot (mk : SlotNum → Instr)
  | slotRole (mk : SlotNum → Role → Instr)
  | slotImm (mk : SlotNum → Imm9 → Instr)
  | slotRoleImm (mk : SlotNum → Role → Imm9 → Instr)

/-- The opcode map (30_encoding.md R86); `none` is an unassigned opcode (R87). -/
def opcodeForm (opc : Nat) : Option Form :=
  if opc = 0x00 then some (.bare .sysNop)
  else if opc = 0x01 then some (.bare .sysReset)
  else if opc = 0x02 then some (.bare .sysClrerr)
  else if opc = 0x10 then some (.slotRole .baNew)
  else if opc = 0x11 then some (.slotRole .baResize)
  else if opc = 0x12 then some (.slotRole .baFree)
  else if opc = 0x13 then some (.slotRole .baLen)
  else if opc = 0x14 then some (.slotRole .baGetbit)
  else if opc = 0x15 then some (.slotRole .baSetbit)
  else if opc = 0x16 then some (.slotRole .baClrbit)
  else if opc = 0x17 then some (.slotRoleImm .baGetint)
  else if opc = 0x18 then some (.slotRoleImm .baSetint)
  else if opc = 0x20 then some (.slot .rdBuild)
  else if opc = 0x21 then some (.slot .rdFree)
  else if opc = 0x22 then some (.slot .rdRank1)
  else if opc = 0x23 then some (.slot .rdRank0)
  else if opc = 0x24 then some (.slot .rdOvh)
  else if opc = 0x25 then some (.slotImm .rdParam)
  else if opc = 0x30 then some (.slot .selSelect1)
  else if opc = 0x31 then some (.slot .selSelect0)
  else if opc = 0x32 then some (.slot .selOvh)
  else if opc = 0x40 then some (.slotImm .wtBuild)
  else if opc = 0x41 then some (.slot .wtFree)
  else if opc = 0x42 then some (.slot .wtRank)
  else if opc = 0x43 then some (.slotImm .wtSelect)
  else if opc = 0x44 then some (.slotImm .wtField)
  else none

/-- The unused-field tests of 30_encoding.md R85 in their order (slot, role, imm9), then the command. -/
def Form.decode (f : Form) (slot role imm : Nat) : Decoded :=
  match f with
  | .bare i =>
    if slot ≠ 0 then .illegal .unusedSlot
    else if role ≠ 0 then .illegal .unusedRole
    else if imm ≠ 0 then .illegal .unusedImm
    else .command i
  | .slot mk =>
    if role ≠ 0 then .illegal .unusedRole
    else if imm ≠ 0 then .illegal .unusedImm
    else .command (mk (BitVec.ofNat 10 slot))
  | .slotRole mk =>
    if imm ≠ 0 then .illegal .unusedImm
    else .command (mk (BitVec.ofNat 10 slot) (Role.ofNum role))
  | .slotImm mk =>
    if role ≠ 0 then .illegal .unusedRole
    else .command (mk (BitVec.ofNat 10 slot) (BitVec.ofNat 9 imm))
  | .slotRoleImm mk =>
    .command (mk (BitVec.ofNat 10 slot) (Role.ofNum role) (BitVec.ofNat 9 imm))

/-- The decoder of a value written to CMD (30_encoding.md R85, but for its last test, see `inSlot`). -/
def decode (data : Word) : Decoded :=
  let v := data.toNat
  if slice v 63 32 ≠ 0 then .illegal .upperBits
  else if slice v 31 29 ≠ 0 then .illegal .reservedBits
  else
    match opcodeForm (slice v 7 0) with
    | none => .illegal .unassignedOpcode
    | some f => f.decode (slice v 17 8) (slice v 19 18) (slice v 28 20)

/-- A command's opcode (30_encoding.md R86). -/
def Instr.opcode : Instr → Nat
  | .sysNop => 0x00
  | .sysReset => 0x01
  | .sysClrerr => 0x02
  | .baNew _ _ => 0x10
  | .baResize _ _ => 0x11
  | .baFree _ _ => 0x12
  | .baLen _ _ => 0x13
  | .baGetbit _ _ => 0x14
  | .baSetbit _ _ => 0x15
  | .baClrbit _ _ => 0x16
  | .baGetint _ _ _ => 0x17
  | .baSetint _ _ _ => 0x18
  | .rdBuild _ => 0x20
  | .rdFree _ => 0x21
  | .rdRank1 _ => 0x22
  | .rdRank0 _ => 0x23
  | .rdOvh _ => 0x24
  | .rdParam _ _ => 0x25
  | .selSelect1 _ => 0x30
  | .selSelect0 _ => 0x31
  | .selOvh _ => 0x32
  | .wtBuild _ _ => 0x40
  | .wtFree _ => 0x41
  | .wtRank _ => 0x42
  | .wtSelect _ _ => 0x43
  | .wtField _ _ => 0x44

/-- A command's `role` number, 0 where the command has none (30_encoding.md R84). -/
def Instr.roleNum : Instr → Nat
  | .sysNop => 0
  | .sysReset => 0
  | .sysClrerr => 0
  | .baNew _ r => r.num
  | .baResize _ r => r.num
  | .baFree _ r => r.num
  | .baLen _ r => r.num
  | .baGetbit _ r => r.num
  | .baSetbit _ r => r.num
  | .baClrbit _ r => r.num
  | .baGetint _ r _ => r.num
  | .baSetint _ r _ => r.num
  | .rdBuild _ => 0
  | .rdFree _ => 0
  | .rdRank1 _ => 0
  | .rdRank0 _ => 0
  | .rdOvh _ => 0
  | .rdParam _ _ => 0
  | .selSelect1 _ => 0
  | .selSelect0 _ => 0
  | .selOvh _ => 0
  | .wtBuild _ _ => 0
  | .wtFree _ => 0
  | .wtRank _ => 0
  | .wtSelect _ _ => 0
  | .wtField _ _ => 0

/-- A command's `imm9`, 0 where the command has none (30_encoding.md R82, R84). -/
def Instr.immNum : Instr → Nat
  | .sysNop => 0
  | .sysReset => 0
  | .sysClrerr => 0
  | .baNew _ _ => 0
  | .baResize _ _ => 0
  | .baFree _ _ => 0
  | .baLen _ _ => 0
  | .baGetbit _ _ => 0
  | .baSetbit _ _ => 0
  | .baClrbit _ _ => 0
  | .baGetint _ _ w => w.toNat
  | .baSetint _ _ w => w.toNat
  | .rdBuild _ => 0
  | .rdFree _ => 0
  | .rdRank1 _ => 0
  | .rdRank0 _ => 0
  | .rdOvh _ => 0
  | .rdParam _ sel => sel.toNat
  | .selSelect1 _ => 0
  | .selSelect0 _ => 0
  | .selOvh _ => 0
  | .wtBuild _ a => a.toNat
  | .wtFree _ => 0
  | .wtRank _ => 0
  | .wtSelect _ c => c.toNat
  | .wtField _ sel => sel.toNat

/-- A command's slot number, 0 where the command has none (30_encoding.md R84). -/
def Instr.slotNum (i : Instr) : Nat :=
  match i.slot? with
  | none => 0
  | some k => k.toNat

/-- The command word: `opc + slot*2^8 + role*2^18 + imm9*2^20` (30_encoding.md R81). -/
def encode (i : Instr) : BitVec 32 :=
  BitVec.ofNat 32 (i.opcode + i.slotNum * 2 ^ 8 + i.roleNum * 2 ^ 18 + i.immNum * 2 ^ 20)

/-- The mask of a form (30_encoding.md R86): the bits of the word that its row fixes. -/
def Form.mask : Form → BitVec 32
  | .bare _ => 0xFFFFFFFF#32
  | .slot _ => 0xFFFC00FF#32
  | .slotRole _ => 0xFFF000FF#32
  | .slotImm _ => 0xE00C00FF#32
  | .slotRoleImm _ => 0xE00000FF#32

/-- The command that the decoder reads from `nbits` bits numbered as spec/opcode_table.json numbers them; a command
is one 32-bit word written to the 64-bit register CMD, so the bits above are 0 (30_encoding.md R80). -/
def decodeTableWord (nbits w : Nat) : Option Instr :=
  match decode (BitVec.ofNat 64 (w % 2 ^ nbits)) with
  | .command i => some i
  | .illegal _ => none

end Sys2Proof
end

