-- ==== Sys2Proof/Config.lean ====
section
/-!
DEFINITION. Config.lean: what an implementation fixes (00_scope.md R5). The model takes both parameters as data,
held in State.config, so that every claim can be stated for every value in the stated range. The spec leaves no
instruction's result open, so there is no free value here (INVENTORY.md, What the manual leaves open).
-/

namespace Sys2Proof

/-- The two parameters of 00_scope.md R5 that software can observe (through `IDR` and `CAP`, 10_state.md R29). -/
structure Config where
  /-- `NSLOT`, the number of node slots. -/
  nslot : Nat
  /-- `MEM_BYTES`, the capacity of array storage in bytes. -/
  memBytes : Nat
deriving DecidableEq, Repr

/-- The spec's default parameters (00_scope.md R5). -/
def Config.default : Config := { nslot := 512, memBytes := 1048576 }

/-- The stated ranges: `NSLOT` 1 to 1024, `MEM_BYTES` 0 to 2^64-1 (00_scope.md R5). -/
def Config.ok (c : Config) : Bool :=
  decide (1 ≤ c.nslot) && decide (c.nslot ≤ 1024) && decide (c.memBytes < 2 ^ 64)

end Sys2Proof
end

