-- ==== Sys2Proof/Machine/State.lean ====
section
/-!
DEFINITION. Machine/State.lean: the whole architectural state (10_state.md R20) as plain data, the host's pending
actions, and the state after reset (10_state.md R36, 70_reset_and_hazards.md R230).

A valid flag that guards other fields (10_state.md R24, R26, R27) is held as an Option: some is valid = 1, and with
valid = 0 the guarded fields, "unspecified and unobservable" (R230 names this very representation), do not exist
(notes/assumptions/4.md, DESIGN CHOICE, safe).
-/

namespace Sys2Proof.Machine

/-- An array's storage bytes: address and byte, addresses strictly rising, no zero byte listed; an unlisted byte reads
0x00, what creation fills it with (20_memory.md R64; notes/assumptions/5.md). -/
abbrev Memory := List Host.Cell

/-- A valid packed bit array (10_state.md R24). -/
structure BitArray where
  /-- Its length in bits, 64 bits wide. -/
  bitCount : Word
  /-- `storage[0 .. ceil(bit_count/8)-1]`. -/
  storage : Memory
deriving DecidableEq, Repr

/-- A valid rank dictionary's seven scalars, each held 64 bits wide (10_state.md R26). -/
structure RankDict where
  n : Word
  superblockLen : Word
  superblockWordSize : Word
  superblockCount : Word
  blockLen : Word
  blockWordSize : Word
  blocksPerSuperblock : Word
deriving DecidableEq, Repr

/-- A valid node descriptor (10_state.md R27). -/
structure Node where
  isRoot : Bool
  alphabetLow : BitVec 8
  alphabetHigh : BitVec 8
  symbolWordSize : BitVec 8
  seqLen : Word
  /-- Slot of the left child, or none. -/
  left : Option SlotNum
  /-- Slot of the right child, or none. -/
  right : Option SlotNum
deriving DecidableEq, Repr

/-- One slot: four arrays, a rank dictionary, a node descriptor (10_state.md R23); each field is some exactly when
its valid flag is 1. -/
structure Slot where
  /-- `A(k,P)`. -/
  partitionBits : Option BitArray
  /-- `A(k,S)`. -/
  symbols : Option BitArray
  /-- `A(k,SBT)`. -/
  superblockTable : Option BitArray
  /-- `A(k,BLT)`. -/
  blockTable : Option BitArray
  /-- `RD(k)`. -/
  rankDict : Option RankDict
  /-- `NODE(k)`. -/
  node : Option Node
deriving DecidableEq, Repr

/-- The slot file as the slots that are not empty: slot number and contents, numbers strictly rising, no empty slot
listed; an unlisted slot is empty, what reset leaves (10_state.md R36; notes/assumptions/5.md). -/
abbrev SlotFile := List (Nat × Slot)

/-- A slot with every valid flag 0. -/
def Slot.empty : Slot :=
  { partitionBits := none, symbols := none, superblockTable := none, blockTable := none, rankDict := none,
    node := none }

/-- The status codes (60_exceptions.md R200). A command completes with exactly one; 9 to 255 are never produced. -/
inductive Status where
  | ok
  | eIllegal
  | eSlot
  | eInvalid
  | eExists
  | eLocked
  | eParam
  | eRange
  | eNomem
deriving DecidableEq, Repr

/-- The eight host registers (10_state.md R21). -/
inductive HostReg where
  | op0
  | op1
  | cmd
  | res
  | stat
  | cap
  | used
  | idr
deriving DecidableEq, Repr

/-- What the host can do to the SPU (00_scope.md R7, 92_eei_decisions.md D3): write a register, read a register, drive
the hardware reset. -/
inductive HostAction where
  | write (r : HostReg) (v : Word)
  | read (r : HostReg)
  | hardReset
deriving DecidableEq, Repr

/-- The machine's state. -/
structure State where
  /-- `NSLOT` and `MEM_BYTES`: what `IDR` and `CAP` read; constant (10_state.md R29; notes/assumptions/3.md). -/
  config : Config
  op0 : Word
  op1 : Word
  /-- Bits [31:0] of CMD; bits [63:32] read as 0 (10_state.md R21). -/
  cmd : BitVec 32
  res : Word
  /-- `STAT.CODE` (10_state.md R30). -/
  code : Status
  /-- `STAT.STICKY` (10_state.md R30). -/
  sticky : Bool
  /-- `USED` (10_state.md R28). -/
  used : Word
  /-- The slot file (10_state.md R23). -/
  slots : SlotFile
  /-- The MODEL's own field: host actions not yet taken, oldest first (notes/assumptions/1.md). -/
  hostQueue : List HostAction
  /-- The MODEL's own field: values that register reads returned, newest first (notes/assumptions/1.md). -/
  hostReads : List Word
deriving DecidableEq, Repr

/-- What stops the machine: nothing. Every command completes, with OK or one of eight codes (60_exceptions.md R200,
R203; 93_implementation_defined.md: "The SPU has no `stuck` behaviour: every command completes"), and a failure is a
next state, so no constructor is needed (notes/assumptions/9.md; safe: the model never stops where hardware goes on). -/
inductive Fault where
deriving DecidableEq, Repr

/-- Why the model has no meaning for a command. -/
inductive Refusal where
  /-- Raised by an arm of exec that has no meaning yet; no arm does. Safe: the model stops where hardware goes on. -/
  | notModelled (mnemonic : String)
deriving DecidableEq, Repr

/-- What one step or one command answers. -/
abbrev Result := Host.Outcome State Fault Refusal

/-- The state after hardware reset for given parameters (70_reset_and_hazards.md R230), the host having nothing
pending. -/
def State.resetWith (c : Config) : State :=
  { config := c, op0 := 0, op1 := 0, cmd := 0, res := 0, code := .ok, sticky := false, used := 0,
    slots := [],
    hostQueue := [], hostReads := [] }

/-- The state after hardware reset with the default parameters (70_reset_and_hazards.md R230, 00_scope.md R5). -/
def State.reset : State := State.resetWith Config.default

end Sys2Proof.Machine
end

