-- ==== Sys2Proof/Machine/Flags.lean ====
section
/-!
DEFINITION. Machine/Flags.lean: the status register: the codes' numbers (60_exceptions.md R200), STAT as the host reads
it (10_state.md R30), and the two ways a command completes (60_exceptions.md R203), which are the SPU's only
"trap entry".
-/

namespace Sys2Proof.Machine

/-- The number of a status code in `STAT.CODE` (60_exceptions.md R200). -/
def Status.num : Status → Nat
  | .ok => 0
  | .eIllegal => 1
  | .eSlot => 2
  | .eInvalid => 3
  | .eExists => 4
  | .eLocked => 5
  | .eParam => 6
  | .eRange => 7
  | .eNomem => 8

/-- `STAT`: `CODE` in [7:0], `STICKY` in [8], bits [63:9] zero (10_state.md R30). -/
def State.stat (s : State) : Word := BitVec.ofNat 64 (s.code.num + if s.sticky then 2 ^ 8 else 0)

/-- `raise E(code)`: CODE <- code, STICKY <- 1, RES <- SENTINEL, nothing else (60_exceptions.md R203). -/
def State.fail (s : State) (code : Status) : State := { s with code := code, sticky := true, res := sentinel }

/-- `return v`: CODE <- OK, RES <- v, STICKY unchanged (60_exceptions.md R203). -/
def State.complete (s : State) (v : Nat) : State := { s with code := .ok, res := BitVec.ofNat 64 v }

end Sys2Proof.Machine
end

