-- ==== Sys2Proof/Machine/Arith.lean ====
section
/-!
DEFINITION. Machine/Arith.lean: the integer functions the rules are written with (00_scope.md R8), on unbounded
naturals.
-/

namespace Sys2Proof.Machine

/-- `bitlen(v)`: 0 for 0, else `floor(log2 v) + 1` (00_scope.md R8). -/
def bitLen (v : Nat) : Nat := if v = 0 then 0 else Nat.log2 v + 1

/-- `ceil(a/b) = (a + b - 1) div b` (00_scope.md R8). -/
def ceilDiv (a b : Nat) : Nat := (a + b - 1) / b

/-- The number of 1 bits among the low `w` bits of `v`. -/
def popcountLow : Nat → Nat → Nat
  | 0, _ => 0
  | w + 1, v => v % 2 + popcountLow w (v / 2)

/-- `popcount(v)`, the number of 1 bits of `v` (00_scope.md R8). -/
def popcount (v : Nat) : Nat := popcountLow (bitLen v) v

/-- The bytes that `len` bits take, `ceil(len/8)` (10_state.md R24, R28). -/
def bytesFor (len : Nat) : Nat := ceilDiv len 8

end Sys2Proof.Machine
end

