-- ==== Sys2Proof/Machine/Sparse.lean ====
section
/-!
DEFINITION. Machine/Sparse.lean: a table that lists only the entries that differ from a default `d`, by rising key: the
one representation of an array's storage (Machine/Memory.lean) and of the slot file (Machine/Ops.lean). A table in
canonical form is equal to another exactly when both read alike everywhere.
-/

namespace Sys2Proof.Machine

/-- The entry at key `x`: `d` where nothing is listed. -/
def sparseRead {α : Type} (d : α) : List (Nat × α) → Nat → α
  | [], _ => d
  | (a, b) :: rest, x => if x = a then b else sparseRead d rest x

/-- The table without the entry at key `x`. -/
def sparseDrop {α : Type} (x : Nat) : List (Nat × α) → List (Nat × α)
  | [] => []
  | (a, b) :: rest => if x = a then sparseDrop x rest else (a, b) :: sparseDrop x rest

/-- The table with an entry put before the first larger key. -/
def sparseInsert {α : Type} (x : Nat) (v : α) : List (Nat × α) → List (Nat × α)
  | [] => [(x, v)]
  | (a, b) :: rest => if x < a then (x, v) :: (a, b) :: rest else (a, b) :: sparseInsert x v rest

/-- The table with the entry at key `x` made `v`: listed in its place, or not at all where `v` is the default. -/
def sparseWrite {α : Type} [DecidableEq α] (d : α) (l : List (Nat × α)) (x : Nat) (v : α) : List (Nat × α) :=
  if v = d then sparseDrop x l else sparseInsert x v (sparseDrop x l)

/-- The canonical form from key `lo` on: keys at or above `lo` and strictly rising, no default listed. -/
def sparseWf {α : Type} [DecidableEq α] (d : α) : Nat → List (Nat × α) → Bool
  | _, [] => true
  | lo, (a, b) :: rest => decide (lo ≤ a) && decide (b ≠ d) && sparseWf d (a + 1) rest

end Sys2Proof.Machine
end

