-- ==== Sys2Proof/Machine/Memory.lean ====
section
/-!
DEFINITION. Machine/Memory.lean: one array's storage and the accesses to it (20_memory.md R50 to R56, R64). Bounds are
the callers' checks (R54); the operations here are total.
-/

namespace Sys2Proof.Machine

/-- What a byte that no entry lists reads as: creation zero-fills (20_memory.md R64). -/
def Memory.unlisted : Byte := 0

/-- Read of one storage byte. -/
def Memory.read (m : Memory) (x : Nat) : Byte := sparseRead Memory.unlisted m x

/-- Write of one storage byte. -/
def Memory.write (m : Memory) (x : Nat) (v : Byte) : Memory := sparseWrite Memory.unlisted m x v

/-- The canonical form of a storage list: addresses strictly rising, no byte listed that an unlisted one equals. -/
def Memory.wf (m : Memory) : Bool := sparseWf Memory.unlisted 0 m

/-- The array that creation makes: `len` bits, every byte 0x00 (20_memory.md R64, 41_bitarray.md R110). -/
def BitArray.zeros (len : Nat) : BitArray := { bitCount := BitVec.ofNat 64 len, storage := [] }

/-- `bit_count` as a number. -/
def BitArray.len (a : BitArray) : Nat := a.bitCount.toNat

/-- `Bytes(a)` of a valid array (10_state.md R28). -/
def BitArray.bytes (a : BitArray) : Nat := bytesFor a.len

/-- Storage byte `b` of an array. -/
def BitArray.readByte (a : BitArray) (b : Nat) : Byte := Memory.read a.storage b

/-- Write of storage byte `b` of an array. -/
def BitArray.writeByte (a : BitArray) (b : Nat) (v : Byte) : BitArray :=
  { a with storage := Memory.write a.storage b v }

/-- `Bit(a, i) = (storage[i div 8] div 2^(i mod 8)) mod 2` (20_memory.md R50). -/
def BitArray.bit (a : BitArray) (i : Nat) : Nat := (a.readByte (i / 8)).toNat / 2 ^ (i % 8) % 2

/-- Bit `i` becomes 1: `storage[i div 8] OR 2^(i mod 8)` (41_bitarray.md R115). -/
def BitArray.setBit (a : BitArray) (i : Nat) : BitArray :=
  a.writeByte (i / 8) (a.readByte (i / 8) ||| BitVec.ofNat 8 (2 ^ (i % 8)))

/-- Bit `i` becomes 0: `storage[i div 8] AND (255 - 2^(i mod 8))` (41_bitarray.md R116). -/
def BitArray.clearBit (a : BitArray) (i : Nat) : BitArray :=
  a.writeByte (i / 8) (a.readByte (i / 8) &&& BitVec.ofNat 8 (255 - 2 ^ (i % 8)))

/-- Bit `i` becomes `v mod 2`. -/
def BitArray.putBit (a : BitArray) (i v : Nat) : BitArray := if v % 2 = 1 then a.setBit i else a.clearBit i

/-- `GetInt(a, off, w)`: the sum over `j < w` of `Bit(a, off + j) * 2^j` (20_memory.md R52). -/
def BitArray.getInt (a : BitArray) (off : Nat) : Nat → Nat
  | 0 => 0
  | w + 1 => a.getInt off w + a.bit (off + w) * 2 ^ w

/-- `SetInt(a, off, w, v)`: for every `j < w`, bit `off + j` becomes `(v div 2^j) mod 2` (20_memory.md R53). -/
def BitArray.setInt (a : BitArray) (off : Nat) : Nat → Nat → BitArray
  | 0, _ => a
  | w + 1, v => (a.setInt off w v).putBit (off + w) (v / 2 ^ w)

/-- The elements of `vals` written one after another, `w` bits each, from element number `t` on (44_wavelet.md R174). -/
def BitArray.packFrom (w : Nat) : Nat → List Nat → BitArray → BitArray
  | _, [], a => a
  | t, v :: vals, a => BitArray.packFrom w (t + 1) vals (a.setInt (t * w) w v)

/-- A new array of `vals.length * w` bits that holds `vals`, `w` bits each (44_wavelet.md R171, R174). -/
def BitArray.pack (w : Nat) (vals : List Nat) : BitArray :=
  BitArray.packFrom w 0 vals (BitArray.zeros (vals.length * w))

/-- The number of 1 bits at the `cnt` positions from `start` on. -/
def BitArray.ones (a : BitArray) (start : Nat) : Nat → Nat
  | 0 => 0
  | cnt + 1 => a.ones start cnt + a.bit (start + cnt)

end Sys2Proof.Machine
end

