-- ==== Sys2Proof/Machine/Ops.lean ====
section
/-!
DEFINITION. Machine/Ops.lean: the named operations over slots, arrays and USED, the frame every slot command runs in,
and the reset of the data state. A failing command's whole effect is State.fail (60_exceptions.md R203); there is no
return from it (R207).
-/

namespace Sys2Proof.Machine

/-- Slot `k` of the slot file. -/
def State.slot (s : State) (k : Nat) : Slot := sparseRead Slot.empty s.slots k

/-- Slot `k` becomes `sl`. -/
def State.setSlot (s : State) (k : Nat) (sl : Slot) : State := { s with slots := sparseWrite Slot.empty s.slots k sl }

/-- `A(k, r)` of a slot, none when not valid (10_state.md R24). -/
def Slot.arr (sl : Slot) : Role → Option BitArray
  | .P => sl.partitionBits
  | .S => sl.symbols
  | .SBT => sl.superblockTable
  | .BLT => sl.blockTable

/-- `A(k, r)` becomes `a`. -/
def Slot.setArr (sl : Slot) (r : Role) (a : Option BitArray) : Slot :=
  match r with
  | .P => { sl with partitionBits := a }
  | .S => { sl with symbols := a }
  | .SBT => { sl with superblockTable := a }
  | .BLT => { sl with blockTable := a }

/-- The array that a rule reads, where its own checks make it valid; a 0-bit array otherwise (notes/assumptions/8.md). -/
def Slot.array (sl : Slot) (r : Role) : BitArray := (sl.arr r).getD (BitArray.zeros 0)

/-- `Bytes` of an array that may be invalid: 0 then (10_state.md R28). -/
def arrBytes (a : Option BitArray) : Nat :=
  match a with
  | none => 0
  | some b => b.bytes

/-- The bytes of a slot's four arrays (10_state.md R28). -/
def Slot.bytes (sl : Slot) : Nat :=
  arrBytes sl.partitionBits + arrBytes sl.symbols + arrBytes sl.superblockTable + arrBytes sl.blockTable

/-- The sum `USED` stands for: the bytes of all arrays of all slots (10_state.md R28). -/
def State.usedSum (s : State) : Nat := (s.slots.map fun e => e.2.bytes).sum

/-- `A(k, r)` of the slot file becomes `a`. -/
def State.setArr (s : State) (k : Nat) (r : Role) (a : Option BitArray) : State :=
  s.setSlot k ((s.slot k).setArr r a)

/-- USED <- v. -/
def State.setUsed (s : State) (v : Nat) : State := { s with used := BitVec.ofNat 64 v }

/-- A command that uses `slot`: the last decode test, `slot >= NSLOT` is E_SLOT (30_encoding.md R85), then the
command's own rule on that slot. Every such command completes. -/
def inSlot (k : SlotNum) (s : State) (rule : Slot → State) : Result :=
  if s.config.nslot ≤ k.toNat then .next (s.fail .eSlot) else .next (rule (s.slot k.toNat))

/-- The slots `k .. k + cnt - 1` become empty (44_wavelet.md R180). -/
def State.clearRun (s : State) (k : Nat) : Nat → State
  | 0 => s
  | cnt + 1 => (s.clearRun k cnt).setSlot (k + cnt) Slot.empty

/-- The bytes of the slots `k .. k + cnt - 1` (44_wavelet.md R180). -/
def State.runBytes (s : State) (k : Nat) : Nat → Nat
  | 0 => 0
  | cnt + 1 => s.runBytes k cnt + (s.slot (k + cnt)).bytes

/-- The reset state (70_reset_and_hazards.md R230) but for CMD and for the host's own side of the interface: what
hardware reset and SYS.RESET have in common. -/
def State.resetData (s : State) : State :=
  { State.resetWith s.config with cmd := s.cmd, hostQueue := s.hostQueue, hostReads := s.hostReads }

end Sys2Proof.Machine
end

