-- ==== Sys2Proof/Machine/Operands.lean ====
section
/-!
DEFINITION. Machine/Operands.lean: the operand forms (30_encoding.md R82, R83), the tests the rules make on them
(20_memory.md R54), and the locks (60_exceptions.md R211).
-/

namespace Sys2Proof.Machine

/-- `OP0` as an unsigned operand (30_encoding.md R83). -/
def State.operand0 (s : State) : Nat := s.op0.toNat

/-- `OP1` as an unsigned operand (30_encoding.md R83). -/
def State.operand1 (s : State) : Nat := s.op1.toNat

/-- `Locked(k, r)` (60_exceptions.md R211): tables always, P while a node or a dictionary is valid, S while a node is. -/
def Slot.locked (sl : Slot) : Role → Bool
  | .SBT => true
  | .BLT => true
  | .P => sl.node.isSome || sl.rankDict.isSome
  | .S => sl.node.isSome

/-- A bit access needs `i < bit_count` (20_memory.md R54). -/
def BitArray.hasBit (a : BitArray) (i : Nat) : Bool := decide (i < a.len)

/-- An integer access needs `off + w <= bit_count`, on unbounded integers (20_memory.md R54). -/
def BitArray.hasInt (a : BitArray) (off w : Nat) : Bool := decide (off + w ≤ a.len)

/-- `USED - freed + added` would exceed `MEM_BYTES` (10_state.md R28). -/
def State.overCapacity (s : State) (freed added : Nat) : Bool :=
  decide (s.config.memBytes < s.used.toNat - freed + added)

/-- USED <- USED - freed + added (10_state.md R28). -/
def State.account (s : State) (freed added : Nat) : State := s.setUsed (s.used.toNat - freed + added)

end Sys2Proof.Machine
end

