-- ==== Sys2Proof/Machine/Ba.lean ====
section
/-!
DEFINITION. Machine/Ba.lean: the BA commands (41_bitarray.md R110 to R118). Each definition makes its rule's numbered
checks in the order listed; the first that fails completes the command with its code (60_exceptions.md R202).
-/

namespace Sys2Proof.Machine

/-- BA.NEW (41_bitarray.md R110). -/
def execBaNew (k : SlotNum) (r : Role) (s : State) : Result :=
  inSlot k s fun sl =>
    if sl.locked r then s.fail .eLocked
    else if (sl.arr r).isSome then s.fail .eExists
    else if s.overCapacity 0 (bytesFor s.operand0) then s.fail .eNomem
    else
      ((s.setArr k.toNat r (some (BitArray.zeros s.operand0))).account 0 (bytesFor s.operand0)).complete 0

/-- BA.RESIZE (41_bitarray.md R111). -/
def execBaResize (k : SlotNum) (r : Role) (s : State) : Result :=
  inSlot k s fun sl =>
    if sl.locked r then s.fail .eLocked
    else
      match sl.arr r with
      | none => s.fail .eInvalid
      | some a =>
        if s.overCapacity a.bytes (bytesFor s.operand0) then s.fail .eNomem
        else
          ((s.setArr k.toNat r (some (BitArray.zeros s.operand0))).account a.bytes
            (bytesFor s.operand0)).complete 0

/-- BA.FREE (41_bitarray.md R112). -/
def execBaFree (k : SlotNum) (r : Role) (s : State) : Result :=
  inSlot k s fun sl =>
    if sl.locked r then s.fail .eLocked
    else
      match sl.arr r with
      | none => s.fail .eInvalid
      | some a => ((s.setArr k.toNat r none).account a.bytes 0).complete 0

/-- BA.LEN (41_bitarray.md R113). -/
def execBaLen (k : SlotNum) (r : Role) (s : State) : Result :=
  inSlot k s fun sl =>
    match sl.arr r with
    | none => s.fail .eInvalid
    | some a => s.complete a.len

/-- BA.GETBIT (41_bitarray.md R114). -/
def execBaGetbit (k : SlotNum) (r : Role) (s : State) : Result :=
  inSlot k s fun sl =>
    match sl.arr r with
    | none => s.fail .eInvalid
    | some a => if a.hasBit s.operand0 then s.complete (a.bit s.operand0) else s.fail .eRange

/-- BA.SETBIT (41_bitarray.md R115). -/
def execBaSetbit (k : SlotNum) (r : Role) (s : State) : Result :=
  inSlot k s fun sl =>
    if sl.locked r then s.fail .eLocked
    else
      match sl.arr r with
      | none => s.fail .eInvalid
      | some a =>
        if a.hasBit s.operand0 then (s.setArr k.toNat r (some (a.setBit s.operand0))).complete 0
        else s.fail .eRange

/-- BA.CLRBIT (41_bitarray.md R116). -/
def execBaClrbit (k : SlotNum) (r : Role) (s : State) : Result :=
  inSlot k s fun sl =>
    if sl.locked r then s.fail .eLocked
    else
      match sl.arr r with
      | none => s.fail .eInvalid
      | some a =>
        if a.hasBit s.operand0 then (s.setArr k.toNat r (some (a.clearBit s.operand0))).complete 0
        else s.fail .eRange

/-- BA.GETINT (41_bitarray.md R117). -/
def execBaGetint (k : SlotNum) (r : Role) (w : Imm9) (s : State) : Result :=
  inSlot k s fun sl =>
    if 64 < w.toNat then s.fail .eParam
    else
      match sl.arr r with
      | none => s.fail .eInvalid
      | some a =>
        if a.hasInt s.operand0 w.toNat then s.complete (a.getInt s.operand0 w.toNat) else s.fail .eRange

/-- BA.SETINT (41_bitarray.md R118). -/
def execBaSetint (k : SlotNum) (r : Role) (w : Imm9) (s : State) : Result :=
  inSlot k s fun sl =>
    if 64 < w.toNat then s.fail .eParam
    else if sl.locked r then s.fail .eLocked
    else
      match sl.arr r with
      | none => s.fail .eInvalid
      | some a =>
        if a.hasInt s.operand0 w.toNat then
          (s.setArr k.toNat r (some (a.setInt s.operand0 w.toNat s.operand1))).complete 0
        else s.fail .eRange

end Sys2Proof.Machine
end

