-- ==== Sys2Proof/Machine/Thresholds.lean ====
section
/-!
DEFINITION. Machine/Thresholds.lean: the thresholds T(s) = floor(2^sqrt(2s)), s = 1 .. 2048, of 42_rank.md R132, the data
of spec/sblen_thresholds.json (the spec's derived data; Laws/Thresholds.lean proves every number, notes/assumptions/7.md). In
sixteen pieces of 128, T(1) first.
-/

namespace Sys2Proof.Machine

/-- T(s) for s = 1 .. 128 (42_rank.md R132). -/
def thresholds1 : List Nat := [
  2, 4, 5, 7, 8, 11, 13, 16, 18, 22, 25, 29, 34, 39, 44, 50, 56, 64, 71, 80, 89, 99, 110, 121, 134, 148, 162, 178,
  196, 214, 234, 256, 278, 303, 330, 358, 388, 421, 455, 492, 532, 574, 618, 666, 717, 771, 829, 890, 955, 1024,
  1097, 1174, 1256, 1343, 1436, 1533, 1637, 1746, 1862, 1984, 2113, 2249, 2393, 2545, 2705, 2874, 3052, 3240, 3437,
  3646, 3865, 4096, 4338, 4593, 4862, 5144, 5441, 5752, 6079, 6423, 6784, 7162, 7559, 7976, 8413, 8870, 9351, 9854,
  10381, 10933, 11511, 12116, 12749, 13412, 14106, 14831, 15590, 16384, 17213, 18080, 18986, 19932, 20921, 21954,
  23032, 24158, 25333, 26559, 27839, 29174, 30566, 32018, 33533, 35111, 36757, 38472, 40259, 42122, 44062, 46082,
  48186, 50377, 52658, 55033, 57504, 60076, 62752, 65536]

/-- T(s) for s = 129 .. 256 (42_rank.md R132). -/
def thresholds2 : List Nat := [
  68431, 71443, 74575, 77832, 81217, 84737, 88394, 92196, 96146, 100250, 104513, 108941, 113541, 118317, 123276,
  128424, 133769, 139316, 145073, 151048, 157247, 163678, 170350, 177270, 184448, 191891, 199608, 207610, 215906,
  224505, 233417, 242654, 252226, 262144, 272419, 283064, 294090, 305511, 317339, 329587, 342270, 355401, 368995,
  383066, 397632, 412706, 428307, 444450, 461153, 478434, 496312, 514804, 533932, 553714, 574173, 595328, 617202,
  639817, 663197, 687366, 712347, 738167, 764851, 792426, 820920, 850360, 880777, 912199, 944658, 978185, 1012813,
  1048576, 1085507, 1123642, 1163017, 1203671, 1245640, 1288966, 1333688, 1379848, 1427489, 1476655, 1527391,
  1579745, 1633763, 1689495, 1746991, 1806304, 1867486, 1930593, 1995680, 2062806, 2132029, 2203411, 2277014,
  2352903, 2431143, 2511802, 2594950, 2680659, 2769001, 2860053, 2953891, 3050595, 3150246, 3252928, 3358727,
  3467732, 3580032, 3695720, 3814892, 3937646, 4064082, 4194304, 4328415, 4466526, 4608748, 4755194, 4905982,
  5061232, 5221068, 5385615, 5555003, 5729366, 5908841, 6093566, 6283685, 6479347]

/-- T(s) for s = 257 .. 384 (42_rank.md R132). -/
def thresholds3 : List Nat := [
  6680701, 6887902, 7101111, 7320488, 7546202, 7778423, 8017326, 8263093, 8515907, 8775957, 9043438, 9318548,
  9601490, 9892474, 10191714, 10499429, 10815843, 11141188, 11475699, 11819619, 12173195, 12536682, 12910339,
  13294435, 13689241, 14095039, 14512115, 14940763, 15381285, 15833989, 16299191, 16777216, 17268393, 17773064,
  18291577, 18824287, 19371560, 19933770, 20511300, 21104541, 21713895, 22339773, 22982597, 23642797, 24320815,
  25017103, 25732124, 26466351, 27220270, 27994377, 28789180, 29605200, 30442970, 31303034, 32185952, 33092294,
  34022645, 34977605, 35957784, 36963811, 37996326, 39055988, 40143466, 41259450, 42404643, 43579764, 44785552,
  46022758, 47292155, 48594532, 49930696, 51301474, 52707710, 54150268, 55630034, 57147912, 58704827, 60301726,
  61939577, 63619371, 65342121, 67108864, 68920657, 70778586, 72683759, 74637310, 76640397, 78694206, 80799950,
  82958868, 85172227, 87441324, 89767484, 92152061, 94596442, 97102043, 99670312, 102302729, 105000808, 107766096,
  110600175, 113504662, 116481210, 119531509, 122657285, 125860304, 129142370, 132505327, 135951061, 139481497,
  143098605, 146804396, 150600927, 154490300, 158474661, 162556205, 166737176, 171019863, 175406610, 179899807,
  184501900, 189215386, 194042818, 198986801, 204050001, 209235139, 214544995, 219982408]

/-- T(s) for s = 385 .. 512 (42_rank.md R132). -/
def thresholds4 : List Nat := [
  225550282, 231251579, 237089328, 243066621, 249186619, 255452548, 261867704, 268435456, 275159240, 282042570,
  289089034, 296302294, 303686094, 311244253, 318980675, 326899345, 335004333, 343299795, 351789975, 360479207,
  369371916, 378472621, 387785934, 397316568, 407069331, 417049135, 427260993, 437710025, 448401457, 459340623,
  470532972, 481984063, 493699572, 505685296, 517947148, 530491168, 543323518, 556450491, 569878508, 583614123,
  597664028, 612035051, 626734161, 641768472, 657145243, 672871883, 688955954, 705405172, 722227412, 739430711,
  757023270, 775013457, 793409811, 812221048, 831456058, 851123915, 871233875, 891795386, 912818083, 934311802,
  956286574, 978752635, 1001720428, 1025200608, 1049204044, 1073741824, 1098825260, 1124465893, 1150675494,
  1177466074, 1204849880, 1232839410, 1261447410, 1290686880, 1320571083, 1351113546, 1382328064, 1414228710,
  1446829837, 1480146082, 1514192376, 1548983945, 1584536316, 1620865328, 1657987130, 1695918193, 1734675313,
  1774275618, 1814736576, 1856075996, 1898312042, 1941463234, 1985548455, 2030586961, 2076598387, 2123602751,
  2171620464, 2220672339, 2270779593, 2321963860, 2374247197, 2427652090, 2482201464, 2537918691, 2594827598,
  2652952474, 2712318082, 2772949665, 2834872955, 2898114183, 2962700088, 3028657928, 3096015484, 3164801076,
  3235043572, 3306772393, 3380017529, 3454809547, 3531179600, 3609159442, 3688781435, 3770078562, 3853084438,
  3937833321, 4024360127, 4112700435, 4202890507, 4294967296]

/-- T(s) for s = 513 .. 640 (42_rank.md R132). -/
def thresholds5 : List Nat := [
  4388968458, 4484932368, 4582898131, 4682905595, 4784995366, 4889208820, 4995588119, 5104176222, 5215016904,
  5328154766, 5443635254, 5561504671, 5681810194, 5804599892, 5929922736, 6057828622, 6188368383, 6321593807,
  6457557656, 6596313682, 6737916643, 6882422325, 7029887557, 7180370230, 7333929320, 7490624901, 7650518169,
  7813671461, 7980148275, 8150013292, 8323332393, 8500172687, 8680602525, 8864691530, 9052510613, 9244131998,
  9439629250, 9639077289, 9842552422, 10050132367, 10261896271, 10477924744, 10698299880, 10923105283, 11152426095,
  11386349023, 11624962365, 11868356042, 12116621621, 12369852346, 12628143170, 12891590780, 13160293634,
  13434351984, 13713867915, 13998945370, 14289690188, 14586210134, 14888614936, 15197016312, 15511528013,
  15832265854, 16159347748, 16492893749, 16833026082, 17179869184, 17533549742, 17894196733, 18261941463,
  18636917604, 19019261239, 19409110904, 19806607627, 20211894972, 20625119084, 21046428732, 21475975357,
  21913913112, 22360398915, 22815592493, 23279656430, 23752756218, 24235060305, 24726740147, 25227970257,
  25738928261, 26259794948, 26790754324, 27331993670, 27883703595, 28446078092, 29019314598, 29603614053,
  30199180956, 30806223427, 31424953273, 32055586041, 32698341091, 33353441654, 34021114902, 34701592012,
  35395108233, 36101902957, 36822219789, 37556306616, 38304415679, 39066803651, 39843731705, 40635465595,
  41442275728, 42264437249, 43102230113, 43955939172, 44825854253, 45712270243, 46615487172, 47535810303,
  48473550215, 49429022894, 50402549825, 51394458080, 52405080412, 53434755352, 54483827305, 55552646644,
  56641569814, 57750959430, 58881184379]

/-- T(s) for s = 641 .. 768 (42_rank.md R132). -/
def thresholds6 : List Nat := [
  60032619928, 61205647824, 62400656406, 63618040715, 64858202599, 66121550831, 67408501221, 68719476736,
  70054907610, 71415231475, 72800893471, 74212346382, 75650050751, 77114475015, 78606095630, 80125397208,
  81672872646, 83249023263, 84854358942, 86489398265, 88154668660, 89850706543, 91578057465, 93337276264,
  95128927215, 96953584183, 98811830781, 100704260529, 102631477017, 104594094063, 106592735888, 108628037279,
  110700643763, 112811211781, 114960408866, 117148913823, 119377416910, 121646620026, 123957236898, 126309993273,
  128705627114, 131144888793, 133628541297, 136157360428, 138732135010, 141353667104, 144022772211, 146740279500,
  149507032021, 152323886930, 155191715715, 158111404430, 161083853922, 164109980077, 167190714053, 170327002530,
  173519807957, 176770108806, 180078899824, 183447192298, 186876014318, 190366411043, 193919444976, 197536196241,
  201217762861, 204965261046, 208779825481, 212662609621, 216614785989, 220637546478, 224732102660, 228899686100,
  233141548668, 237458962867, 241853222156, 246325641283, 250877556622, 255510326515, 260225331619, 265023975260,
  269907683788, 274877906944, 279936118224, 285083815261, 290322520196, 295653780072, 301079167219, 306600279658,
  312218741498, 317936203353, 323754342753, 329674864565, 335699501429, 341830014185, 348068192319, 354415854410,
  360874848586, 367447052985, 374134376224, 380938757876, 387862168951, 394906612390, 402074123556, 409366770749,
  416786655709, 424335914141, 432016716246, 439831267250, 447781807955, 455870615286, 464100002857, 472472321535,
  480989960019, 489655345426, 498470943890, 507439261156, 516562843202, 525844276857, 535286190430, 544891254355,
  554662181837, 564601729514, 574712698124, 584997933185, 595460325689, 606102812793, 616928378536, 627940054556]

/-- T(s) for s = 769 .. 896 (42_rank.md R132). -/
def thresholds7 : List Nat := [
  639140920823, 650534106380, 662122790094, 673910201426, 685899621199, 698094382389, 710497870923, 723113526489,
  735944843358, 748995371216, 762268716014, 775768540827, 789498566721, 803462573643, 817664401314, 832107950143,
  846797182148, 861736121895, 876928857451, 892379541345, 908092391550, 924071692478, 940321795983, 956847122391,
  973652161531, 990741473794, 1008119691197, 1025791518469, 1043761734150, 1062035191709, 1080616820672,
  1099511627776, 1118724698128, 1138261196393, 1158126367990, 1178325540311, 1198864123954, 1219747613975,
  1240981591162, 1262571723319, 1284523766579, 1306843566726, 1329537060546, 1352610277188, 1376069339551,
  1399920465688, 1424169970235, 1448824265853, 1473889864696, 1499373379903, 1525281527101, 1551621125941,
  1578399101650, 1605622486608, 1633298421945, 1661434159163, 1690037061780, 1719114607000, 1748674387406,
  1778724112674, 1809271611314, 1840324832442, 1871891847565, 1903980852402, 1936600168726, 1969758246234,
  2003463664444, 2037725134618, 2072551501713, 2107951746362, 2143934986877, 2180510481288, 2217687629409,
  2255475974930, 2293885207539, 2332925165084, 2372605835751, 2412937360282, 2453930034225, 2495594310211,
  2537940800270, 2580980278169, 2624723681799, 2669182115578, 2714366852906, 2760289338639, 2806961191607,
  2854394207168, 2902600359794, 2951591805693, 3001380885474, 3051980126846, 3103402247354, 3155660157152,
  3208766961824, 3262735965234, 3317580672425, 3373314792550, 3429952241852, 3487507146685, 3545993846571,
  3605426897307, 3665821074116, 3727191374833, 3789553023148, 3852921471887, 3917312406340, 3982741747639,
  4049225656177, 4116780535083, 4185423033737, 4255170051344, 4326038740548, 4398046511104, 4471211033597,
  4545550243217, 4621082343580, 4697825810611, 4775799396475, 4855022133562, 4935513338537, 5017292616430,
  5100379864803, 5184795277955, 5270559351203, 5357692885208, 5446216990372, 5536153091290]

/-- T(s) for s = 897 .. 1024 (42_rank.md R132). -/
def thresholds8 : List Nat := [
  5627522931269, 5720348576899, 5814652422703, 5910457195838, 6007785960869, 6106662124604, 6207109441004,
  6309152016147, 6412814313278, 6518121157914, 6625097743029, 6733769634306, 6844162775462, 6956303493648,
  7070218504925, 7185934919809, 7303480248901, 7422882408587, 7544169726823, 7667370948994, 7792515243858,
  7919632209567, 8048751879779, 8179904729842, 8313121683075, 8448434117128, 8585873870430, 8725473248728,
  8867265031714, 9011282479741, 9157559340639, 9306129856610, 9457028771231, 9610291336549, 9765953320265,
  9924051013030, 10084621235830, 10247701347472, 10413329252183, 10581543407298, 10752382831065, 10925887110548,
  11102096409642, 11281051477197, 11462793655251, 11647364887376, 11834807727135, 12025165346662, 12218481545346,
  12414800758645, 12614168067010, 12816629204941, 13022230570150, 13231019232868, 13443042945258, 13658350150974,
  13876989994833, 14099012332632, 14324467741086, 14553407527911, 14785883742034, 15021949183945, 15261657416192,
  15505062774012, 15752220376110, 16003186135578, 16258016770966, 16516769817504, 16779503638465, 17046277436696,
  17317151266287, 17592186044416, 17871443563332, 18154986502522, 18442878441020, 18735183869897, 19031968204910,
  19333297799323, 19639239956903, 19949862945085, 20265236008319, 20585429381588, 20910514304115, 21240563033251,
  21575648858544, 21915846116004, 22261230202553, 22611877590670, 22967865843230, 23329273628544, 23696180735598,
  24068668089494, 24446817767099, 24830713012902, 25220438255079, 25616079121779, 26017722457620, 26425456340407,
  26839370098074, 27259554325844, 27686100903629, 28119103013652, 28558655158304, 29004853178239, 29457794270711,
  29917577008154, 30384301357002, 30858068696767, 31338981839362, 31827145048686, 32322664060465, 32825646102356,
  33336199914313, 33854435769232, 34380465493855, 34914402489963, 35456361755841, 36006459908027, 36564815203350,
  37131547561259, 37706778586439, 38290631591737, 38883231621378, 39484705474496, 40095181728967, 40714790765558,
  41343664792396, 41981937869756]

/-- T(s) for s = 1025 .. 1152 (42_rank.md R132). -/
def thresholds9 : List Nat := [
  42629745935175, 43287226828892, 43954520319630, 44631768130708, 45319113966502, 46016703539244, 46724684596182,
  47443206947092, 48172422492143, 48912485250139, 49663551387121, 50425779245347, 51199329372648, 51984364552170,
  52781049832505, 53589552558211, 54410042400734, 55242691389730, 56087673944802, 56945166907639, 57815349574586,
  58698403729632, 59594513677821, 60503866279114, 61426650982674, 62363059861608, 63313287648157, 64277531769338,
  65255992383060, 66248872414697, 67256377594142, 68278716493343, 69316100564316, 70368744177664, 71436864661580,
  72520682341373, 73620420579485, 74736305816042, 75868567609923, 77017438680356, 78183154949061, 79365955582927,
  80566083037249, 81783783099513, 83019304933759, 84272901125501, 85544827727240, 86835344304551, 88144713982775,
  89473203494302, 90821083226471, 92188627270078, 93576113468517, 94983823467543, 96412042765683, 97861060765286,
  99331170824237, 100822670308331, 102335860644313, 103871047373610, 105428540206742, 107008653078432,
  108611704203430, 110238016133037, 111887915812367, 113561734638331, 115259808518370, 116982477929934,
  118730087980720, 120502988469688, 122301533948844, 124126083785824, 125977002227263, 127854658462984,
  129759426691002, 131691686183350, 133651821352754, 135640221820147, 137657282483052, 139703403584824,
  141778990784787, 143884455229248, 146020213623421, 148186688304268, 150384307314258, 152613504476066,
  154874719468218, 157168397901701, 159494991397536, 161854957665340, 164248760582883, 166676870276652,
  169139763203432, 171637922232927, 174171836731416, 176742002646475, 179348922592771, 181993105938929,
  184675068895511, 187395334604095, 190154433227484, 192952902041051, 195791285525236, 198670135459211,
  201590011015724, 204551478857137, 207555113232679, 210601496076913, 213691217109452, 216824873935928,
  220003072150220, 223226425437986, 226495555681478, 229811093065682, 233173676185793, 236583952156031,
  240042576719830, 243550214361404, 247107538418717, 250715231197859, 254373984088867, 258084497682990,
  261847481891419, 265663656065510, 269533749118509, 273458499648791, 277438656064653, 281474976710656]

/-- T(s) for s = 1153 .. 1280 (42_rank.md R132). -/
def thresholds10 : List Nat := [
  285568229995548, 289719194521788, 293928659216679, 298197423465147, 302526297244166, 306916101258865,
  311367667080330, 315881837285125, 320459465596544, 325101417027631, 329808568025969, 334581806620282,
  339422032568849, 344330157509771, 349307105113099, 354353811234860, 359471224072986, 364660304325186,
  369922025348773, 375257373322473, 380667347410246, 386152959927128, 391715236507138, 397355216273258,
  403073952009518, 408872510335216, 414751971881284, 420713431468848, 426757998289985, 432886796090714,
  439100963356261, 445401653498592, 451790035046279, 458267291836697, 464834623210598, 471493244209088,
  478244385773017, 485089294944847, 492029235072991, 499065486018674, 506199344365342, 513432123630644,
  520765154481026, 528199784948957, 535737380652835, 543379325019585, 551127019510001, 558981883846843,
  566945356245750, 575018893648968, 583203971961960, 591502086292912, 599914751195168, 608443500912647,
  617089889628261, 625855491715368, 634741901992316, 643750735980091, 652883630163120, 662142242253263,
  671528251457031, 681043358746070, 690689287130944, 700467781938270, 710380611091229, 720429565393495,
  730616458816639, 740943128791029, 751411436500275, 762023267179264, 772780530415827, 783685160456077,
  794739116513455, 805944383081556, 817302970250735, 828816914028585, 840488276664294, 852319146976949,
  864311640687830, 876467900756734, 888790097722383, 901280430046961, 913941124464830, 926774436335476,
  939782650000729, 952968079146317, 966333067167791, 979879987540884, 993611244196359, 1007529271899382,
  1021636536633487, 1035935535989189, 1050428799557285, 1065118889326915, 1080008400088424, 1095099959841096,
  1110396230205800, 1125899906842624, 1141613719873537, 1157540434310160, 1173682850486677, 1190043804497979,
  1206626168643070, 1223432851873822, 1240466800249132, 1257730997394533, 1275228464967351, 1292962263127436,
  1310935491013566, 1329151287225567, 1347612830312233, 1366323339265094, 1385286074018118, 1404504335953411,
  1423981468412977, 1443720857216621, 1463725931186056, 1484000162675295, 1504547068107390, 1525370208517609,
  1546473190103106, 1567859664779174, 1589533330742151, 1611497933039060, 1633757264144057, 1656315164541769,
  1679175523317602, 1702342278755098]

/-- T(s) for s = 1281 .. 1408 (42_rank.md R132). -/
def thresholds11 : List Nat := [
  1725819418940425, 1749610982374082, 1773721058589900, 1798153788781430, 1822913366435793, 1848004037975096,
  1873430103405475, 1899195916973886, 1925305887832704, 1951764480712235, 1978576216601238, 2005745673435531,
  2033277486794796, 2061176350607658, 2089447017865148, 2118094301342641, 2147123074330367, 2176538271372595,
  2206344889015583, 2236547986564414, 2267152686848796, 2298164176997948, 2329587709224668, 2361428601618686,
  2393692238949426, 2426384073478256, 2459509625780366, 2493074485576363, 2527084312573708, 2561544837318092,
  2596461862054893, 2631841261600795, 2667688984225714, 2704011052545134, 2740813564422981, 2778102693885150,
  2815884692043805, 2854165888032587, 2892952689952843, 2932251585831009, 2972069144587271, 3012412017015638,
  3053286936775548, 3094700721395157, 3136660273286421, 3179172580772125, 3222244719124986, 3265883851618974,
  3310097230592984, 3354892198527003, 3400276189130918, 3446256728446105, 3492841435959944, 3540038025733412,
  3587854307541903, 3636298188029417, 3685377671876283, 3735100862980563, 3785475965653289, 3836511285827706,
  3888215232282655, 3940596317880289, 3993663160818252, 4047424485896514, 4101889125799006, 4157066022390242,
  4212964228027080, 4269592906885815, 4326961336304754, 4385078908142472, 4443955130151908, 4503599627370496,
  4564022143526499, 4625232542461742, 4687240809570922, 4750057053257682, 4813691506407650, 4878154527878617,
  4943456604008068, 5009608350138244, 5076620512158949, 5144503968068288, 5213269729551554, 5282928943578457,
  5353492894018904, 5424973003277550, 5497380833947314, 5570728090482095, 5645026620888885, 5720288418439509,
  5796525623402216, 5873750524793331, 5951975562149211, 6031213327318722, 6111476566276472, 6192778180957031,
  6275131231110385, 6358548936178844, 6443044677195667, 6528631998705628, 6615324610707783, 6703136390620690,
  6792081385270312, 6882173812900892, 6973428065209029, 7065858709401225, 7159480490275179, 7254308332325065,
  7350357341871102, 7447642809213649, 7546180210812131, 7645985211489055, 7747073666659406, 7849461624585704,
  7953165328659014, 8058201219706189, 8164585938323653, 8272336327238010, 8381469433693783, 8492002511868592,
  8603953025316065, 8717338649436802, 8832177273977704, 8948487005559979, 9066286170236151, 9185593316076388,
  9306427215784490, 9428806869343846]

/-- T(s) for s = 1409 .. 1536 (42_rank.md R132). -/
def thresholds12 : List Nat := [
  9552751506693720, 9678280590436180, 9805413818574027, 9934171127280069, 10064572693698072, 10196638938775770,
  10330390530130258, 10465848384946156, 10603033672906892, 10741967819159475, 10882672507313141, 11025169682472226,
  11169481554303675, 11315630600139547, 11463639568114917, 11613531480341567, 11765329636117858, 11919057615175190,
  12074739280961454, 12232398783961883, 12392060565057723, 12553749358923133, 12717490197460751, 12883308413276342,
  13051229643192965, 13221279831805100, 13393485235073172, 13567872423958919, 13744468288102062, 13923300039538724,
  14104395216462066, 14287781687025606, 14473487653189688, 14661541654611584, 14851972572579704, 15044809633992407,
  15240082415381897, 15437820846983710, 15638055216852289, 15840816175023158, 16046134737722206, 16254042291622599,
  16464570598149850, 16677751797835573, 16893618414720453, 17112203360806985, 17333539940562518, 17557661855473162,
  17784603208649116, 18014398509481984, 18247082678354650, 18482691051404288, 18721259385339086, 18962823862309285,
  19207421094833115, 19455088130778250, 19705862458399361, 19959782011432415, 20216885174246318, 20477210787052544,
  20740798151173374, 21007687034369400, 21277917676226932, 21551530793605969, 21828567586149393, 22109069741854063,
  22393079442704475, 22680639370369685, 22971792711964172, 23266583165873353, 23565054947644450, 23867252795943418,
  24173221978578667, 24483008298592294, 24796658100419578, 25114218276117457, 25435736271662770, 25761260093321003,
  26090838314086311, 26424520080193601, 26762355117703449, 27104393739160661, 27450686850327257, 27801285956990706,
  28156243171848228, 28515611221467980, 28879443453327976, 29247793842933577, 29620717001014401, 29998268180801539,
  30380503285385912, 30767478875158682, 31159252175334600, 31555881083559176, 31957424177600598, 32363940723127317,
  32775490681572214, 33192134718084304, 33613934209568913, 34040951252817298, 34473248672726663, 34910890030611572,
  35353939632607723, 35802462538169104, 36256524568659528, 36716192316039578, 37181533151649979, 37652615235092459,
  38129507523209133, 38612279779161489, 39101002581610045, 39595747333995766, 40096586273924335, 40603592482654399,
  41116839894690897, 41636403307484615, 42162358391239114, 42694781698826172, 43233750675810934, 43779343670587932,
  44331639944629179, 44890719682845540, 45456664004062606, 46029554971612291, 46609475604041409, 47196509885938482,
  47790742778880056, 48392260232497804]

/-- T(s) for s = 1537 .. 1664 (42_rank.md R132). -/
def thresholds13 : List Nat := [
  49001149195667715, 49617497627822691, 50241394510389858, 50872929858353946, 51512194731948092, 52159281248473418,
  52814282594248784, 53477293036692103, 54148407936534624, 54827723760169623, 55515338092136929, 56211349647744750,
  56915858285830255, 57628965021660424, 58350772039974638, 59081382708170547, 59820901589634743, 60569434457219780,
  61327088306869119, 62093971371391568, 62870193134386822, 63655864344323716, 64451097028772817, 65256004508795014,
  66070701413487760, 66895303694690659, 67729928641852091, 68574694897058592, 69429722470228737, 70295132754473266,
  71171048541623226, 72057594037927936, 72954894879924558, 73863078150481129, 74782272395014878, 75712607637887708,
  76654215398980724, 77607228710449713, 78571782133663497, 79548011776327109, 80536055309791753, 81536051986553536,
  82548142657942969, 83572469792007285, 84609177491587590, 85658411512592944, 86720319282473447, 87795049918894442,
  88882754248613976, 89983584826565670, 91097695955149171, 92225243703730397, 93366385928353785, 94521282291668805,
  95690094283072990, 96872985239073786, 98070120363871542, 99281666750165964, 100507793400188416, 101748671246962444,
  103004473175794939, 104275374046000382, 105561550712860629, 106863182049822724, 108180448970937259,
  109513534453539818, 110862623561178068, 112227903466787105, 113609563476115643, 115007795051405732,
  116422791835328647, 117854749675179662, 119303866647334435, 120770343081969770, 122254381588051521,
  123756187078592471, 125275966796183019, 126813930338797547, 128370289685879371, 129945259224707211,
  131539055777046124, 133151898626085911, 134784009543670013, 136435612817817943, 138106935280544347,
  139798206335977802, 141509657988782506, 143241524872886036, 144994044280516384, 146767456191551525,
  148562003303184783, 150377931059909321, 152215487683825085, 154074924205271601, 155956494493790025,
  157860455289417893, 159787066234320079, 161736589904759448, 163709291843410792, 165705440592021615,
  167725307724423417, 169769167879897131, 171837298796896420, 173929981347132576, 176047499570024801,
  178190140707519686, 180358195239283747, 182551956918272909, 184771722806682889, 187017793312284429,
  189290472225147419, 191590066754757956, 193916887567532439, 196271248824732835, 198653468220787314,
  201063867022020462, 203502770105797343, 205970506000085728, 208467406923440839, 210993808825417013,
  213550051427410720, 216136478263939435, 218753436724360893, 221401278095037308, 224080357601949178,
  226791034453763366, 229533671885360152, 232308637201824051]

/-- T(s) for s = 1665 .. 1792 (42_rank.md R132). -/
def thresholds14 : List Nat := [
  235116301822903200, 237957041327942182, 240831235501293202, 243739268378210587, 246681528291233614,
  249658407917062742, 252670304323934362, 255717619019499228, 258800757999209807, 261920131795221798,
  265076155525815171, 268269248945340092, 271499836494693179, 274768347352329567, 278075215485816349,
  281420879703932969, 284805783709324247, 288230376151711744, 291695110681669231, 295200446004968113,
  298746845937498681, 302334779460773147, 305964720778016475, 309637149370851078, 313352550056581502,
  317111413046085306, 320914234002316379, 324761514099427023, 328653760082515172, 332591484328003212,
  336575204904654885, 340605445635236883, 344682736158831756, 348807611993808841, 352980614601460008,
  357202291450307043, 361473196081087600, 365793888172426697, 370164933607200805, 374586904539601666,
  379060379462907024, 383585943277965534, 388164187362403204, 392795709640558769, 397481114654155491,
  402221013633716947, 407016024570734448, 411866772290593793, 416773888526269164, 421738011992792024,
  426759788462502968, 431839870841094564, 436978919244453274, 442177601076308673, 447436591106698209,
  452756571551255881, 458138232151333264, 463582270254961398, 469089390898662163, 474660306890117822,
  480295738891707513, 485996415504919569, 491763073355648606, 497596457180386437, 503497319913315948,
  509466422774317155, 515504535357894768, 521612435723036672, 527790910484012831, 534040754902124213,
  540362772978411444, 546757777547332958, 553226590371422567, 559770042236936410, 566388973050499389,
  573084231936761264, 579856677337072715, 586707177109191747, 593636608628030940, 600645858887456147,
  607735824603147334, 614907412316532388, 622161538499804798, 629499129662036246, 636921122456395233,
  644428463788483007, 652022110925798123, 659703031608341135, 667472204160370986, 675330617603324800,
  683279271769912896, 691319177419400958, 699451356354091400, 707676841537016112, 715996677210852865,
  724411919018077802, 732923634122366531, 741532901331256499, 750240811220083421, 759048466257204674,
  767956980930522706, 776967481875321609, 786081108003430180, 795299010633724869, 804622353623986205,
  814052313504122373, 823590079610773786, 833236854223312622, 842993852701251416, 852862303623074970,
  862843448926509955, 872938544050246734, 883148858077128086, 893475673878819624, 903920288261976899,
  914484012115924264, 925168170561860791, 935974103103608614, 946903163779919285, 957956721318353842,
  969136159290752455, 980442876270309681, 991878285990271503, 1003443817504270493, 1015140915348315605,
  1026971039704453258, 1038935666566116526, 1051036287905179451]

/-- T(s) for s = 1793 .. 1920 (42_rank.md R132). -/
def thresholds15 : List Nat := [
  1063274411840733608, 1075651562809604275, 1088169281738623689, 1100829126218679068, 1113632670680553235,
  1126581506572575858, 1139677242540103523, 1152921504606846976, 1166315936358064123, 1179862199125637506,
  1193561972175055167, 1207416952894314022, 1221428856984765023, 1235599418653919594, 1249930390810237008,
  1264423545259912572, 1279080672905686677, 1293903583947694963, 1308894108086380063, 1324054094727485560,
  1339385413189153029, 1354889952911143212, 1370569623666202593, 1386426355773596845, 1402462100314832825,
  1418678829351591026, 1435078536145890571, 1451663235382509087, 1468434963393679997, 1485395778386089990,
  1502547760670199649, 1519893012891910443, 1537433660266601528, 1555171850815560000, 1573109755604828511,
  1591249568986494355, 1609593508842444402, 1628143816830610461, 1646902758633729924, 1665872624210646754,
  1685055728050178154, 1704454409427572481, 1724071032663584214, 1743907987386192065, 1763967688794986533,
  1784252577928253496, 1804765121932780676, 1825507814336414059, 1846483175323391658, 1867693752012482218,
  1889142118737956777, 1910830877333421243, 1932762657418538421, 1954940116688668216, 1977365941207454992,
  2000042845702391380, 2022973573863388075, 2046160898644379480, 2069607622567995329, 2093316578033328712,
  2117290627626831233, 2141532664436366308, 2166045612368451932, 2190832426468724536, 2215896093245655862,
  2241239630997555093, 2266866090142888791, 2292778553553951509, 2318980136893920251, 2345473988957326298,
  2372263292013978215, 2399351262156370200, 2426741149650610261, 2454436239290903030, 2482439850757622381,
  2510755338979009331, 2539386094496531076, 2568335543833937330, 2597607149870050507, 2627204412215326624,
  2657130867592224173, 2687390090219418550, 2717985692199900006, 2748921323912993457, 2780200674410338828,
  2811827471815871023, 2843805483729838951, 2876138517636903443, 2908830421318354259, 2941885083268486790,
  2975306433115179441, 3009098442044713068, 3043265123230874258, 3077810532268384627, 3112738767610698720,
  3148053971012213524, 3183760327974932981, 3219862068199631342, 3256363466041559611, 3293268840970739739,
  3330582558036891682, 3368309028339038852, 3406452709499837926, 3445018106144679444, 3484009770385606030,
  3523432302310095561, 3563290350474757043, 3603588612403987401, 3644331835093637880, 3685524815519739194,
  3727172401152335044, 3769279490474474104, 3811851033506411037, 3854892032335067618, 3898407541648805491,
  3942402669277562608, 3986882576738405893, 4031852479786553168, 4077317648971917883, 4123283410201230722,
  4169755145305792648, 4216738292614914502, 4264238347535098762, 4312260863135019641, 4360811450736358192,
  4409895780510549678, 4459519582081500970, 4509688645134336315]

/-- T(s) for s = 1921 .. 2048 (42_rank.md R132). -/
def thresholds16 : List Nat := [
  4560408820030230364, 4611686018427387904, 4663526213908230313, 4715935442612849343, 4768919803878789378,
  4822485460887219929, 4876638641315560715, 4931385637996622243, 4986732809584325442, 5042686581226064479,
  5099253445241777499, 5156439961809790682, 5214252759659501570, 5272698536770968309, 5331784061081472044,
  5391516171199120354, 5451901777123560272, 5512947860973870067, 5574661477723699645, 5637049755943730061,
  5700119898551523342, 5763879183568834456, 5828334964886457976, 5893494673036682664, 5959365815973427891,
  6025955979860136527, 6093272829865499616, 6161324110967088900, 6230117648762973946, 6299661350291401379,
  6369963204858614448, 6441031284874891894, 6512873746698885854, 6585498831490339254, 6658914866071263948,
  6733130263795661609, 6808153525427870142, 6883993240029619201, 6960658085855879166, 7038156831259588734,
  7116498335605347087, 7195691550192157413, 7275745519185309385, 7356669380557489007, 7438472367039205106,
  7521163807078622558, 7604753125810893214, 7689249846037076340, 7774663589212741251, 7861004076446345695,
  7948281129507484433, 8036504671845103347, 8125684729615775297, 8215831432722134883, 8306955015861570159,
  8399065819585270281, 8492174291367729003, 8586290986686804875, 8681426570114439965, 8777591816418139841,
  8874797611673318580, 8973054954386613489, 9072374956630275258, 9172768845187740213, 9274247962710492389,
  9376823768886324117, 9480507841619104868, 9585311878220169111, 9691247696611434999, 9798327236540366740,
  9906562560806894570, 10015965856502407315, 10126549436260933626, 10238325739522629031, 10351307333809687079,
  10465506916014793938, 10580937313702246953, 10697611486421858767, 10815542527035769802, 10934743663058292979,
  11055228258008915793, 11177009812778585972, 11300101967009408169, 11424518500487880309, 11550273334551799443,
  11677380533510968144, 11805854306081833749, 11935709006836193947, 12066959137664103498, 12199619349251118112,
  12333704442570012797, 12469229370387113264, 12606209238783380284, 12744659308690388188, 12884594997441340033,
  13026031880337263286, 13168985692228531215, 13313472329111856551, 13459507849742905334, 13607108477264680253,
  13756290600851824183, 13907070777370996016, 14059465733057472325, 14213492365208129821, 14369167743890964995,
  14526509113671308838, 14685533895354895957, 14846259687747948921, 15008704269434440171, 15172885600570695316,
  15338821824697503202, 15506531270569899647, 15676032454004793317, 15847344079746603767, 16020485043351083268,
  16195474433087495642, 16372331531859326918, 16551075819143704280, 16731726972949701391, 16914304871795709865,
  17098829596706058288, 17285321433227061938, 17473800873462687983, 17664288618130022723, 17856805578634729133,
  18051372879166684721, 18248011858815991497, 18446744073709551616]

/-- T(1), T(2), .., T(2048) (42_rank.md R132). -/
def thresholds : List Nat :=
  thresholds1 ++ (thresholds2 ++ (thresholds3 ++ (thresholds4 ++ (thresholds5 ++ (thresholds6 ++ (thresholds7 ++
    (thresholds8 ++ (thresholds9 ++ (thresholds10 ++ (thresholds11 ++ (thresholds12 ++ (thresholds13 ++ (thresholds14 ++
      (thresholds15 ++ thresholds16))))))))))))))

end Sys2Proof.Machine
end

