-- ==== Sys2Proof/Machine/Sizing.lean ====
section
/-!
DEFINITION. Machine/Sizing.lean: the sizing function SizeParams(n) of the rank dictionary (42_rank.md R130 to R136),
for n >= 2.
-/

namespace Sys2Proof.Machine

/-- The six size parameters (42_rank.md R130). -/
structure SizeParams where
  superblockLen : Nat
  superblockWordSize : Nat
  superblockCount : Nat
  blockLen : Nat
  blockWordSize : Nat
  blocksPerSuperblock : Nat
deriving DecidableEq, Repr

/-- The number of the first threshold that `n` does not exceed, counting from `s` on. -/
def leastThreshold (n : Nat) : Nat → List Nat → Nat
  | s, [] => s
  | s, t :: ts => if n ≤ t then s else leastThreshold n (s + 1) ts

/-- `superblock_len = ceil(log2(n)^2 / 2)` over the reals: the least `s >= 1` with `n <= T(s)` (42_rank.md R130, R132). -/
def superblockLen (n : Nat) : Nat := leastThreshold n 1 thresholds

/-- `SizeParams(n)` (42_rank.md R130, in the integer form of R131). -/
def sizeParams (n : Nat) : SizeParams :=
  let l := bitLen (n - 1)
  let sl := superblockLen n
  let bl := (l + 1) / 2
  { superblockLen := sl
    superblockWordSize := l
    superblockCount := ceilDiv n sl
    blockLen := bl
    blockWordSize := bitLen (sl - 1)
    blocksPerSuperblock := ceilDiv sl bl }

/-- `bit_count` of the superblock table (42_rank.md R134). -/
def SizeParams.sbtBits (z : SizeParams) : Nat := z.superblockCount * z.superblockWordSize

/-- `bit_count` of the block table (42_rank.md R134). -/
def SizeParams.bltBits (z : SizeParams) : Nat := z.superblockCount * z.blocksPerSuperblock * z.blockWordSize

/-- The bytes of both tables (42_rank.md R140, check 7). -/
def SizeParams.tableBytes (z : SizeParams) : Nat := bytesFor z.sbtBits + bytesFor z.bltBits

end Sys2Proof.Machine
end

