-- ==== Sys2Proof/Machine/Rank.lean ====
section
/-!
DEFINITION. Machine/Rank.lean: the rank dictionary's build pass (42_rank.md R140) and the two rank functions (R142,
R143), shared by the RD, SEL and WT commands.
-/

namespace Sys2Proof.Machine

/-- The seven scalars latched at build time (10_state.md R26). -/
def RankDict.ofSizes (n : Nat) (z : SizeParams) : RankDict :=
  { n := BitVec.ofNat 64 n
    superblockLen := BitVec.ofNat 64 z.superblockLen
    superblockWordSize := BitVec.ofNat 64 z.superblockWordSize
    superblockCount := BitVec.ofNat 64 z.superblockCount
    blockLen := BitVec.ofNat 64 z.blockLen
    blockWordSize := BitVec.ofNat 64 z.blockWordSize
    blocksPerSuperblock := BitVec.ofNat 64 z.blocksPerSuperblock }

/-- The six latched sizes as numbers. -/
def RankDict.sizes (d : RankDict) : SizeParams :=
  { superblockLen := d.superblockLen.toNat
    superblockWordSize := d.superblockWordSize.toNat
    superblockCount := d.superblockCount.toNat
    blockLen := d.blockLen.toNat
    blockWordSize := d.blockWordSize.toNat
    blocksPerSuperblock := d.blocksPerSuperblock.toNat }

/-- The temporaries of the build pass: the two tables and the two running totals (42_rank.md R140, 10_state.md R33). -/
structure BuildPass where
  sbt : BitArray
  blt : BitArray
  superblockVal : Nat
  blockVal : Nat
deriving DecidableEq, Repr

/-- Block `j` of superblock `i`: record `block_val`, then add the block's 1 bits to both totals; the block is cut at
the superblock's end and at `n` (42_rank.md R140). -/
def buildBlock (b : BitArray) (n : Nat) (z : SizeParams) (i : Nat) (p : BuildPass) (j : Nat) : BuildPass :=
  let start := i * z.superblockLen + j * z.blockLen
  let stop := min (min (start + z.blockLen) ((i + 1) * z.superblockLen)) n
  let ones := b.ones start (stop - start)
  { sbt := p.sbt
    blt := p.blt.setInt ((i * z.blocksPerSuperblock + j) * z.blockWordSize) z.blockWordSize p.blockVal
    superblockVal := p.superblockVal + ones
    blockVal := p.blockVal + ones }

/-- Superblock `i`: record `superblock_val`, reset `block_val`, then its blocks in order (42_rank.md R140;
90_conflicts.md C1). -/
def buildSuperblock (b : BitArray) (n : Nat) (z : SizeParams) (p : BuildPass) (i : Nat) : BuildPass :=
  (List.range z.blocksPerSuperblock).foldl (buildBlock b n z i)
    { sbt := p.sbt.setInt (i * z.superblockWordSize) z.superblockWordSize p.superblockVal
      blt := p.blt
      superblockVal := p.superblockVal
      blockVal := 0 }

/-- The whole pass over bitvector `b` (42_rank.md R140). -/
def buildTables (b : BitArray) (z : SizeParams) : BuildPass :=
  (List.range z.superblockCount).foldl (buildSuperblock b b.len z)
    { sbt := BitArray.zeros z.sbtBits, blt := BitArray.zeros z.bltBits, superblockVal := 0, blockVal := 0 }

/-- `RD(k)` and its two tables built over `b` (42_rank.md R140, Operation). -/
def Slot.withDict (sl : Slot) (b : BitArray) : Slot :=
  let z := sizeParams b.len
  let p := buildTables b z
  { sl with rankDict := some (RankDict.ofSizes b.len z), superblockTable := some p.sbt, blockTable := some p.blt }

/-- `Rank1(k, idx)`: two table entries and one popcount (42_rank.md R142). -/
def rank1 (sl : Slot) (d : RankDict) (idx : Nat) : Nat :=
  let z := d.sizes
  let sb := idx / z.superblockLen
  let blk := idx % z.superblockLen / z.blockLen
  let start := sb * z.superblockLen + blk * z.blockLen
  let inBlockBit := idx - start
  (sl.array .SBT).getInt (sb * z.superblockWordSize) z.superblockWordSize
    + (sl.array .BLT).getInt ((sb * z.blocksPerSuperblock + blk) * z.blockWordSize) z.blockWordSize
    + popcount ((sl.array .P).getInt start (inBlockBit + 1))

/-- `Rank0(k, idx) = idx + 1 - Rank1(k, idx)` (42_rank.md R143). -/
def rank0 (sl : Slot) (d : RankDict) (idx : Nat) : Nat := idx + 1 - rank1 sl d idx

/-- `Rank1` or `Rank0` by the bit counted (43_select.md R160, 44_wavelet.md R176). -/
def rankOf (which : Nat) (sl : Slot) (d : RankDict) (idx : Nat) : Nat :=
  if which = 1 then rank1 sl d idx else rank0 sl d idx

end Sys2Proof.Machine
end

