-- ==== Sys2Proof/Machine/Rd.lean ====
section
/-!
DEFINITION. Machine/Rd.lean: the RD commands (42_rank.md R140 to R146). Checks in the order each rule lists them.
-/

namespace Sys2Proof.Machine

/-- RD.BUILD (42_rank.md R140). -/
def execRdBuild (k : SlotNum) (s : State) : Result :=
  inSlot k s fun sl =>
    if sl.node.isSome then s.fail .eLocked
    else if sl.rankDict.isSome then s.fail .eExists
    else
      match sl.partitionBits with
      | none => s.fail .eInvalid
      | some b =>
        if b.len < 2 then s.fail .eParam
        else if s.overCapacity 0 (sizeParams b.len).tableBytes then s.fail .eNomem
        else
          ((s.setSlot k.toNat (sl.withDict b)).account 0 (sizeParams b.len).tableBytes).complete 0

/-- RD.FREE (42_rank.md R141). -/
def execRdFree (k : SlotNum) (s : State) : Result :=
  inSlot k s fun sl =>
    if sl.node.isSome then s.fail .eLocked
    else if sl.rankDict.isNone then s.fail .eInvalid
    else
      ((s.setSlot k.toNat { sl with superblockTable := none, blockTable := none, rankDict := none }).account
        (arrBytes sl.superblockTable + arrBytes sl.blockTable) 0).complete 0

/-- RD.RANK1 (42_rank.md R142). -/
def execRdRank1 (k : SlotNum) (s : State) : Result :=
  inSlot k s fun sl =>
    match sl.rankDict with
    | none => s.fail .eInvalid
    | some d => if d.n.toNat ≤ s.operand0 then s.fail .eRange else s.complete (rank1 sl d s.operand0)

/-- RD.RANK0 (42_rank.md R143). -/
def execRdRank0 (k : SlotNum) (s : State) : Result :=
  inSlot k s fun sl =>
    match sl.rankDict with
    | none => s.fail .eInvalid
    | some d => if d.n.toNat ≤ s.operand0 then s.fail .eRange else s.complete (rank0 sl d s.operand0)

/-- RD.OVH (42_rank.md R145): the bits of both tables. -/
def execRdOvh (k : SlotNum) (s : State) : Result :=
  inSlot k s fun sl =>
    match sl.rankDict with
    | none => s.fail .eInvalid
    | some _ => s.complete ((sl.array .SBT).len + (sl.array .BLT).len)

/-- The scalar that `RD.PARAM` reads by its selector, in the order of 42_rank.md R146; none for a selector above 6. -/
def RankDict.param (d : RankDict) (sel : Nat) : Option Word :=
  if sel = 0 then some d.n
  else if sel = 1 then some d.superblockLen
  else if sel = 2 then some d.superblockWordSize
  else if sel = 3 then some d.superblockCount
  else if sel = 4 then some d.blockLen
  else if sel = 5 then some d.blockWordSize
  else if sel = 6 then some d.blocksPerSuperblock
  else none

/-- RD.PARAM (42_rank.md R146). -/
def execRdParam (k : SlotNum) (sel : Imm9) (s : State) : Result :=
  inSlot k s fun sl =>
    if 6 < sel.toNat then s.fail .eParam
    else
      match sl.rankDict with
      | none => s.fail .eInvalid
      | some d =>
        match d.param sel.toNat with
        | none => s.fail .eParam
        | some v => s.complete v.toNat

end Sys2Proof.Machine
end

