-- ==== Sys2Proof/Machine/Select.lean ====
section
/-!
DEFINITION. Machine/Select.lean: the binary search of the select engine (43_select.md R160), shared by the SEL and WT
commands. The engine has no state (10_state.md R32).
-/

namespace Sys2Proof.Machine

/-- The search loop of 43_select.md R160 over a rank function; `fuel` bounds its rounds. -/
def searchLeftmost (fn : Nat → Nat) (r : Nat) : Nat → Nat → Nat → Nat → Nat
  | 0, _, _, cand => cand
  | fuel + 1, low, high, cand =>
    if low ≤ high then
      let mid := (low + high) / 2
      if fn mid < r then searchLeftmost fn r fuel (mid + 1) high cand
      else if r < fn mid then
        if mid = 0 then cand else searchLeftmost fn r fuel low (mid - 1) cand
      else
        if mid = 0 then mid else searchLeftmost fn r fuel low (mid - 1) mid
    else cand

/-- `Select(k, which, r)` (43_select.md R160). The search makes at most `bitlen(n)` rounds (R164). -/
def select (sl : Slot) (d : RankDict) (which r : Nat) : Nat :=
  let n := d.n.toNat
  if r = 0 ∨ n < r then sentinelNat
  else searchLeftmost (rankOf which sl d) r (bitLen n) 0 (n - 1) sentinelNat

end Sys2Proof.Machine
end

