-- ==== Sys2Proof/Machine/Sel.lean ====
section
/-!
DEFINITION. Machine/Sel.lean: the SEL commands (43_select.md R161 to R163).
-/

namespace Sys2Proof.Machine

/-- SEL.SELECT1 (43_select.md R161). -/
def execSelSelect1 (k : SlotNum) (s : State) : Result :=
  inSlot k s fun sl =>
    match sl.rankDict with
    | none => s.fail .eInvalid
    | some d => s.complete (select sl d 1 s.operand0)

/-- SEL.SELECT0 (43_select.md R162). -/
def execSelSelect0 (k : SlotNum) (s : State) : Result :=
  inSlot k s fun sl =>
    match sl.rankDict with
    | none => s.fail .eInvalid
    | some d => s.complete (select sl d 0 s.operand0)

/-- SEL.OVH (43_select.md R163): always zero. -/
def execSelOvh (k : SlotNum) (s : State) : Result :=
  inSlot k s fun sl =>
    match sl.rankDict with
    | none => s.fail .eInvalid
    | some _ => s.complete 0

end Sys2Proof.Machine
end

