-- ==== Sys2Proof/Machine/Sys.lean ====
section
/-!
DEFINITION. Machine/Sys.lean: the SYS commands (40_sys.md R100 to R102).
-/

namespace Sys2Proof.Machine

/-- SYS.NOP (40_sys.md R100). -/
def execSysNop (s : State) : Result := .next (s.complete 0)

/-- SYS.RESET (40_sys.md R101): every piece of state takes its reset value; CMD keeps the word just written. -/
def execSysReset (s : State) : Result := .next s.resetData

/-- SYS.CLRERR (40_sys.md R102): STICKY <- 0. -/
def execSysClrerr (s : State) : Result := .next { s.complete 0 with sticky := false }

end Sys2Proof.Machine
end

