-- ==== Sys2Proof/Machine/Tree.lean ====
section
/-!
DEFINITION. Machine/Tree.lean: the wavelet tree: the slot plan of a build (44_wavelet.md R172, R174), the input tests
(R173), and the two walks (R176, R178).
-/

namespace Sys2Proof.Machine

/-- `symbol_word_size = bitlen(A - 1)` (44_wavelet.md R171). -/
def symbolWidth (alphabetSize : Nat) : Nat := bitLen (alphabetSize - 1)

/-- The slots a tree takes, `2A - 1` (44_wavelet.md R172). -/
def runLength (alphabetSize : Nat) : Nat := 2 * alphabetSize - 1

/-- The elements `c_t = GetInt(A(k,S), t*w, w)`, `t < m` (44_wavelet.md R173). -/
def inputIds (a : BitArray) (m w : Nat) : List Nat := (List.range m).map fun t => a.getInt (t * w) w

/-- Every id is below `A` (44_wavelet.md R175, check 8). -/
def idsInRange (alphabetSize : Nat) (seq : List Nat) : Bool := seq.all fun c => decide (c < alphabetSize)

/-- Every id of `0 .. A-1` occurs (44_wavelet.md R175, check 9). -/
def idsAllOccur (alphabetSize : Nat) (seq : List Nat) : Bool :=
  (List.range alphabetSize).all fun c => seq.contains c

/-- One node that a build creates: `BuildNode(j, lo, hi, seq, is_root)` with `len = |seq|` (44_wavelet.md R174). -/
structure PlanNode where
  slot : Nat
  lo : Nat
  hi : Nat
  len : Nat
  seq : List Nat
  isRoot : Bool
deriving DecidableEq, Repr

/-- `mid` of a range (44_wavelet.md R170). -/
def midOf (lo hi : Nat) : Nat := (lo + hi) / 2

/-- Slot of the right child of a node in slot `j` over `[lo, hi]` (44_wavelet.md R172). -/
def rightSlot (j lo hi : Nat) : Nat := j + 2 * (midOf lo hi - lo + 1)

/-- The elements that go left, in order (44_wavelet.md R174). -/
def leftSeq (lo hi : Nat) (seq : List Nat) : List Nat := seq.filter fun c => decide (c ≤ midOf lo hi)

/-- The elements that go right, in order (44_wavelet.md R174). -/
def rightSeq (lo hi : Nat) (seq : List Nat) : List Nat := seq.filter fun c => decide (midOf lo hi < c)

/-- The nodes of a tree in pre-order (44_wavelet.md R172, R174); `fuel` bounds the depth, and `hi - lo + 1` is
enough, since every split leaves fewer symbols on each side. -/
def planTree : Nat → Nat → Nat → Nat → Nat → List Nat → Bool → List PlanNode
  | 0, _, _, _, _, _, _ => []
  | fuel + 1, j, lo, hi, len, seq, isRoot =>
    { slot := j, lo := lo, hi := hi, len := len, seq := seq, isRoot := isRoot } ::
      if lo < hi then
        let ls := leftSeq lo hi seq
        let rs := rightSeq lo hi seq
        planTree fuel (j + 1) lo (midOf lo hi) ls.length ls false
          ++ planTree fuel (rightSlot j lo hi) (midOf lo hi + 1) hi rs.length rs false
      else []

/-- The nodes of `BuildNode(k, 0, A - 1, seq, 1)` (44_wavelet.md R175). -/
def treePlan (k alphabetSize m : Nat) (seq : List Nat) : List PlanNode :=
  planTree alphabetSize k 0 (alphabetSize - 1) m seq true

/-- The node's bitvector: 1 for the elements above `mid` (44_wavelet.md R174); a leaf's has 0 bits. -/
def PlanNode.bits (pn : PlanNode) : BitArray :=
  if pn.lo < pn.hi then BitArray.pack 1 (pn.seq.map fun c => if midOf pn.lo pn.hi < c then 1 else 0)
  else BitArray.zeros 0

/-- The node descriptor a build writes (44_wavelet.md R174). -/
def PlanNode.descriptor (w : Nat) (pn : PlanNode) : Node :=
  { isRoot := pn.isRoot
    alphabetLow := BitVec.ofNat 8 pn.lo
    alphabetHigh := BitVec.ofNat 8 pn.hi
    symbolWordSize := BitVec.ofNat 8 w
    seqLen := BitVec.ofNat 64 pn.len
    left := if pn.lo < pn.hi then some (BitVec.ofNat 10 (pn.slot + 1)) else none
    right := if pn.lo < pn.hi then some (BitVec.ofNat 10 (rightSlot pn.slot pn.lo pn.hi)) else none }

/-- The slot a build leaves for a node (44_wavelet.md R174): the root keeps the host's input as its symbols; an
internal node's dictionary is built over its bitvector, a leaf has none. -/
def PlanNode.build (w : Nat) (old : Slot) (pn : PlanNode) : Slot :=
  let base : Slot :=
    { partitionBits := some pn.bits
      symbols := if pn.isRoot then old.symbols else some (BitArray.pack w pn.seq)
      superblockTable := none
      blockTable := none
      rankDict := none
      node := some (pn.descriptor w) }
  if pn.lo < pn.hi then base.withDict pn.bits else base

/-- The bytes a build creates for a node (44_wavelet.md R175, check 10). -/
def PlanNode.need (w : Nat) (pn : PlanNode) : Nat :=
  (if pn.isRoot then 0 else bytesFor (pn.len * w))
    + (if pn.lo < pn.hi then bytesFor pn.len + (sizeParams pn.len).tableBytes else 0)

/-- The bytes a build creates (44_wavelet.md R175, check 10). -/
def planNeed (w : Nat) (plan : List PlanNode) : Nat := (plan.map (PlanNode.need w)).sum

/-- Every node of a plan built in its slot (44_wavelet.md R174; the order is not observable). -/
def State.buildPlan (s : State) (w : Nat) : List PlanNode → State
  | [] => s
  | pn :: rest => (s.setSlot pn.slot (pn.build w (s.slot pn.slot))).buildPlan w rest

/-- No object exists in a slot, its symbols array apart. -/
def Slot.vacantButSymbols (sl : Slot) : Bool :=
  sl.partitionBits.isNone && sl.superblockTable.isNone && sl.blockTable.isNone && sl.rankDict.isNone
    && sl.node.isNone

/-- Every slot of the run is empty, but for the input `A(k,S)` (44_wavelet.md R175, check 5). -/
def State.runVacant (s : State) (k alphabetSize : Nat) : Bool :=
  (List.range (runLength alphabetSize)).all fun t =>
    (s.slot (k + t)).vacantButSymbols && (decide (t = 0) || (s.slot (k + t)).symbols.isNone)

/-- `IsLeaf` (44_wavelet.md R170). -/
def Node.isLeaf (nd : Node) : Bool := nd.alphabetLow == nd.alphabetHigh

/-- `mid` of a node (44_wavelet.md R170). -/
def Node.mid (nd : Node) : Nat := midOf nd.alphabetLow.toNat nd.alphabetHigh.toNat

/-- The child on the side of a bit: 0 goes left, 1 goes right (44_wavelet.md R174). -/
def Node.child (nd : Node) (bit : Nat) : Option SlotNum := if bit = 0 then nd.left else nd.right

/-- The nodes on a root-to-leaf path: at most 9 (44_wavelet.md R172). -/
def maxPath : Nat := 9

/-- `WtRank(j, idx)` (44_wavelet.md R176); `fuel` bounds the path. Where a link is missing, which no run reaches, the
sentinel (notes/assumptions/8.md). -/
def wtRank (s : State) : Nat → Nat → Nat → Nat
  | 0, _, _ => sentinelNat
  | fuel + 1, j, idx =>
    match (s.slot j).node with
    | none => sentinelNat
    | some nd =>
      if nd.seqLen.toNat ≤ idx then sentinelNat
      else if nd.isLeaf then idx + 1
      else
        let b := ((s.slot j).array .P).bit idx
        match (s.slot j).rankDict, nd.child b with
        | some d, some c => wtRank s fuel c.toNat (rankOf b (s.slot j) d idx - 1)
        | _, _ => sentinelNat

/-- `WtSelect(j, c, occ)` (44_wavelet.md R178); `fuel` bounds the path. Where a link is missing, which no run
reaches, the sentinel (notes/assumptions/8.md). -/
def wtSelect (s : State) : Nat → Nat → Nat → Nat → Nat
  | 0, _, _, _ => sentinelNat
  | fuel + 1, j, c, occ =>
    match (s.slot j).node with
    | none => sentinelNat
    | some nd =>
      if nd.isLeaf then
        if occ = 0 ∨ nd.seqLen.toNat < occ then sentinelNat else occ - 1
      else
        let b := if c ≤ nd.mid then 0 else 1
        match (s.slot j).rankDict, nd.child b with
        | some d, some ch => select (s.slot j) d b ((wtSelect s fuel ch.toNat c occ + 1) % 2 ^ 64)
        | _, _ => sentinelNat

end Sys2Proof.Machine
end

