-- ==== Sys2Proof/Machine/Wt.lean ====
section
/-!
DEFINITION. Machine/Wt.lean: the WT commands (44_wavelet.md R175 to R182). Checks in the order each rule lists them.
-/

namespace Sys2Proof.Machine

/-- The id sequence WT.BUILD works on. With `A = 1` every element is 0 and a lone leaf's slot does not depend on the
list, so it is not written out (44_wavelet.md R171, R175: `m` may then be any value; notes/assumptions/10.md). -/
def buildIds (a : BitArray) (m alphabetSize : Nat) : List Nat :=
  if alphabetSize = 1 then [] else inputIds a m (symbolWidth alphabetSize)

/-- Checks 8 and 9 (44_wavelet.md R175). With `A = 1` and `m >= 1` both hold of every input: each element reads 0. -/
def buildIdsOk (alphabetSize : Nat) (seq : List Nat) : Bool :=
  decide (alphabetSize = 1) || (idsInRange alphabetSize seq && idsAllOccur alphabetSize seq)

/-- WT.BUILD (44_wavelet.md R175). -/
def execWtBuild (k : SlotNum) (alphabet : Imm9) (s : State) : Result :=
  inSlot k s fun sl =>
    let a := alphabet.toNat
    let m := s.operand0
    let w := symbolWidth a
    if a = 0 ∨ 256 < a ∨ m = 0 then s.fail .eParam
    else if s.config.nslot ≤ k.toNat + 2 * a - 2 then s.fail .eSlot
    else if s.runVacant k.toNat a = false then s.fail .eExists
    else
      match sl.symbols with
      | none => s.fail .eInvalid
      | some input =>
        if input.len ≠ m * w then s.fail .eParam
        else
          let seq := buildIds input m a
          let plan := treePlan k.toNat a m seq
          if buildIdsOk a seq = false then s.fail .eParam
          else if s.overCapacity 0 (planNeed w plan) then s.fail .eNomem
          else ((s.buildPlan w plan).account 0 (planNeed w plan)).complete 0

/-- WT.FREE (44_wavelet.md R180). -/
def execWtFree (k : SlotNum) (s : State) : Result :=
  inSlot k s fun sl =>
    match sl.node with
    | none => s.fail .eInvalid
    | some nd =>
      if nd.isRoot then
        let cnt := runLength (nd.alphabetHigh.toNat - nd.alphabetLow.toNat + 1)
        ((s.clearRun k.toNat cnt).account (s.runBytes k.toNat cnt) 0).complete 0
      else s.fail .eLocked

/-- WT.RANK (44_wavelet.md R177). -/
def execWtRank (k : SlotNum) (s : State) : Result :=
  inSlot k s fun sl =>
    match sl.node with
    | none => s.fail .eInvalid
    | some _ => s.complete (wtRank s maxPath k.toNat s.operand0)

/-- WT.SELECT (44_wavelet.md R179). -/
def execWtSelect (k : SlotNum) (symbol : Imm9) (s : State) : Result :=
  inSlot k s fun sl =>
    if 255 < symbol.toNat then s.fail .eParam
    else
      match sl.node with
      | none => s.fail .eInvalid
      | some nd =>
        if symbol.toNat < nd.alphabetLow.toNat ∨ nd.alphabetHigh.toNat < symbol.toNat then s.fail .eRange
        else s.complete (wtSelect s maxPath k.toNat symbol.toNat s.operand0)

/-- A child slot as WT.FIELD reads it: the sentinel if none (44_wavelet.md R182). -/
def childField (c : Option SlotNum) : Nat :=
  match c with
  | none => sentinelNat
  | some j => j.toNat

/-- The field that WT.FIELD reads by its selector (44_wavelet.md R182); none for a selector above 8. -/
def Node.field (nd : Node) (sel : Nat) : Option Nat :=
  if sel = 0 then some nd.alphabetLow.toNat
  else if sel = 1 then some nd.alphabetHigh.toNat
  else if sel = 2 then some nd.mid
  else if sel = 3 then some (if nd.isLeaf then 1 else 0)
  else if sel = 4 then some (childField nd.left)
  else if sel = 5 then some (childField nd.right)
  else if sel = 6 then some nd.seqLen.toNat
  else if sel = 7 then some nd.symbolWordSize.toNat
  else if sel = 8 then some (if nd.isRoot then 1 else 0)
  else none

/-- WT.FIELD (44_wavelet.md R182). -/
def execWtField (k : SlotNum) (sel : Imm9) (s : State) : Result :=
  inSlot k s fun sl =>
    if 8 < sel.toNat then s.fail .eParam
    else
      match sl.node with
      | none => s.fail .eInvalid
      | some nd =>
        match nd.field sel.toNat with
        | none => s.fail .eParam
        | some v => s.complete v

end Sys2Proof.Machine
end

