-- ==== Sys2Proof/Machine/Dispatch.lean ====
section
/-!
DEFINITION. Machine/Dispatch.lean: exec, one arm per command (30_encoding.md R86).
-/

namespace Sys2Proof.Machine

def exec (i : Instr) (s : State) : Host.Outcome State Fault Refusal :=
  match i with
  | .sysNop => Sys2Proof.Machine.execSysNop s
  | .sysReset => Sys2Proof.Machine.execSysReset s
  | .sysClrerr => Sys2Proof.Machine.execSysClrerr s
  | .baNew k r => Sys2Proof.Machine.execBaNew k r s
  | .baResize k r => Sys2Proof.Machine.execBaResize k r s
  | .baFree k r => Sys2Proof.Machine.execBaFree k r s
  | .baLen k r => Sys2Proof.Machine.execBaLen k r s
  | .baGetbit k r => Sys2Proof.Machine.execBaGetbit k r s
  | .baSetbit k r => Sys2Proof.Machine.execBaSetbit k r s
  | .baClrbit k r => Sys2Proof.Machine.execBaClrbit k r s
  | .baGetint k r w => Sys2Proof.Machine.execBaGetint k r w s
  | .baSetint k r w => Sys2Proof.Machine.execBaSetint k r w s
  | .rdBuild k => Sys2Proof.Machine.execRdBuild k s
  | .rdFree k => Sys2Proof.Machine.execRdFree k s
  | .rdRank1 k => Sys2Proof.Machine.execRdRank1 k s
  | .rdRank0 k => Sys2Proof.Machine.execRdRank0 k s
  | .rdOvh k => Sys2Proof.Machine.execRdOvh k s
  | .rdParam k sel => Sys2Proof.Machine.execRdParam k sel s
  | .selSelect1 k => Sys2Proof.Machine.execSelSelect1 k s
  | .selSelect0 k => Sys2Proof.Machine.execSelSelect0 k s
  | .selOvh k => Sys2Proof.Machine.execSelOvh k s
  | .wtBuild k a => Sys2Proof.Machine.execWtBuild k a s
  | .wtFree k => Sys2Proof.Machine.execWtFree k s
  | .wtRank k => Sys2Proof.Machine.execWtRank k s
  | .wtSelect k c => Sys2Proof.Machine.execWtSelect k c s
  | .wtField k sel => Sys2Proof.Machine.execWtField k sel s

end Sys2Proof.Machine
end

