-- ==== Sys2Proof/Machine/Port.lean ====
section
/-!
DEFINITION. Machine/Port.lean: the host's side (10_state.md R21): the register numbers, the value a read of each
register returns, a write of a register other than CMD, the latch of CMD, and hardware reset
(70_reset_and_hazards.md R230). This is where the machine takes its next command from: a CMD write, not a fetch.
-/

namespace Sys2Proof.Machine

/-- A register's number (10_state.md R21). -/
def HostReg.num : HostReg → Nat
  | .op0 => 0
  | .op1 => 1
  | .cmd => 2
  | .res => 3
  | .stat => 4
  | .cap => 5
  | .used => 6
  | .idr => 7

/-- `IDR`: `NSLOT` in [15:0], version 1 in [23:16] (10_state.md R29). -/
def State.idr (s : State) : Word := BitVec.ofNat 64 (s.config.nslot + 1 * 2 ^ 16)

/-- `CAP`: `MEM_BYTES` (10_state.md R29). -/
def State.cap (s : State) : Word := BitVec.ofNat 64 s.config.memBytes

/-- What a host read of a register returns; it has no side effect (10_state.md R21). -/
def State.readReg (s : State) : HostReg → Word
  | .op0 => s.op0
  | .op1 => s.op1
  | .cmd => s.cmd.setWidth 64
  | .res => s.res
  | .stat => s.stat
  | .cap => s.cap
  | .used => s.used
  | .idr => s.idr

/-- A host write of a register other than CMD: OP0 and OP1 take the value, a write to a read-only register is ignored
(10_state.md R21). A write to CMD runs a command and is taken by step. -/
def State.writeReg (s : State) (r : HostReg) (v : Word) : State :=
  match r with
  | .op0 => { s with op0 := v }
  | .op1 => { s with op1 := v }
  | .cmd => s
  | .res => s
  | .stat => s
  | .cap => s
  | .used => s
  | .idr => s

/-- CMD <- data[31:0], before anything else (60_exceptions.md R203). -/
def State.latchCmd (s : State) (data : Word) : State := { s with cmd := data.setWidth 32 }

/-- A read by the host: the value goes to the host, nothing else changes (10_state.md R21). -/
def State.hostRead (s : State) (r : HostReg) : State := { s with hostReads := s.readReg r :: s.hostReads }

/-- Hardware reset (70_reset_and_hazards.md R230): as SYS.RESET, and CMD is 0 too. -/
def State.hardReset (s : State) : State := { s.resetData with cmd := 0 }

/-- An action of the host that is no command, applied. -/
def State.hostAct (s : State) : HostAction → State
  | .write r v => s.writeReg r v
  | .read r => s.hostRead r
  | .hardReset => s.hardReset

/-- The data of an action that issues a command: a write to CMD (30_encoding.md R80). -/
def commandData : HostAction → Option Word
  | .write .cmd v => some v
  | .write _ _ => none
  | .read _ => none
  | .hardReset => none

/-- The action that issues the command whose `nbits` bits are `w`. -/
def commandWrite (nbits w : Nat) : HostAction := .write .cmd (BitVec.ofNat 64 (w % 2 ^ nbits))

end Sys2Proof.Machine
end

