-- ==== Sys2Proof/Machine/Step.lean ====
section
/-!
DEFINITION. Machine/Step.lean: one step is one host action (00_scope.md R7, 60_exceptions.md R203). A write to CMD
latches the word, decodes the data and runs the command; every other action only touches registers. With nothing
pending the SPU does nothing (R7: nothing else executes; notes/assumptions/2.md).
-/

namespace Sys2Proof.Machine

/-- A host write of `data` to CMD (60_exceptions.md R203; 30_encoding.md R85). -/
def issue (data : Word) (s : State) : Result :=
  match decode data with
  | .illegal _ => .next ((s.latchCmd data).fail .eIllegal)
  | .command i => exec i (s.latchCmd data)

/-- One host action on a state it has been taken from. -/
def act (a : HostAction) (s : State) : Result :=
  match commandData a with
  | none => .next (s.hostAct a)
  | some data => issue data s

/-- One step: the oldest pending host action is taken (00_scope.md R7). -/
def step (s : State) : Host.Outcome State Fault Refusal :=
  match s.hostQueue with
  | [] => .next s
  | a :: rest => act a { s with hostQueue := rest }

/-- `s` with the host about to write the command word `w` to CMD: the SPU fetches nothing, its next command is the
host's next write (10_state.md R22; notes/assumptions/1.md). -/
def State.withFetchWord (s : State) (nbits w : Nat) : State :=
  { s with hostQueue := commandWrite nbits w :: s.hostQueue }

end Sys2Proof.Machine
end

