-- ==== Sys2Proof/Safety.lean ====
section
/-!
DEFINITION. Safety.lean: the terms claims are stated in: the model's read of one bit and one byte, what a command leaves
alone, and the invariants every step keeps (10_state.md R31).
-/

namespace Sys2Proof.Machine

/-- Storage byte `b` of `A(k, r)`: the model's read of one byte; 0 where the array does not exist. -/
def State.readByte (s : State) (k : Nat) (r : Role) (b : Nat) : Byte := ((s.slot k).array r).readByte b

/-- Bit `i` of `A(k, r)` (20_memory.md R50). -/
def State.readBit (s : State) (k : Nat) (r : Role) (i : Nat) : Nat := ((s.slot k).array r).bit i

/-- The bytes that bits `off .. off + w - 1` touch. -/
def touchesByte (off w b : Nat) : Prop := ∃ i, off ≤ i ∧ i < off + w ∧ i / 8 = b

/-- What no command but SYS.RESET changes: the parameters, the operand registers, the latched command word
(30_encoding.md R83, 10_state.md R21); and the host's side, which is the model's own (notes/assumptions/1.md). -/
structure SameInputs (s t : State) : Prop where
  config : t.config = s.config
  op0 : t.op0 = s.op0
  op1 : t.op1 = s.op1
  cmd : t.cmd = s.cmd
  hostQueue : t.hostQueue = s.hostQueue
  hostReads : t.hostReads = s.hostReads

/-- A command that completed OK with result `v` (60_exceptions.md R203): RES, CODE, STICKY and the inputs. -/
structure CompletedOk (s t : State) (v : Nat) : Prop where
  res : t.res.toNat = v
  code : t.code = .ok
  sticky : t.sticky = s.sticky
  inputs : SameInputs s t

/-- A command that failed with code `c` (60_exceptions.md R203): CODE, STICKY and RES, and nothing else changes. -/
structure Failed (s t : State) (c : Status) : Prop where
  code : t.code = c
  sticky : t.sticky = true
  res : t.res.toNat = 2 ^ 64 - 1
  inputs : SameInputs s t
  used : t.used = s.used
  slots : t.slots = s.slots

/-- A query that completed OK with result `v`: no array, dictionary, node or byte count changes. -/
structure Answered (s t : State) (v : Nat) : Prop where
  ok : CompletedOk s t v
  used : t.used = s.used
  slots : t.slots = s.slots

/-- Every slot but those named keeps all it holds (four arrays, dictionary, node), and every byte of its arrays reads
as before. -/
structure SameSlotsBut (p : Nat → Prop) (s t : State) : Prop where
  slot : ∀ j, ¬p j → t.slot j = s.slot j
  byte : ∀ j r b, ¬p j → t.readByte j r b = s.readByte j r b

/-- Every dictionary, every node and every array but `A(k, r)` is as before, and every byte of every other array reads
as before. -/
structure OnlyArray (k : Nat) (r : Role) (s t : State) : Prop where
  rankDict : ∀ j, (t.slot j).rankDict = (s.slot j).rankDict
  node : ∀ j, (t.slot j).node = (s.slot j).node
  arr : ∀ j q, (j ≠ k ∨ q ≠ r) → (t.slot j).arr q = (s.slot j).arr q
  byte : ∀ j q b, (j ≠ k ∨ q ≠ r) → t.readByte j q b = s.readByte j q b

/-- The number of positions `p` with `lo <= p < min(hi, bit_count)` whose bit is `v`; for `v = 1` the `ones(lo, hi)` of
42_rank.md R137. -/
def BitArray.count (a : BitArray) (v lo hi : Nat) : Nat :=
  ((Finset.range a.len).filter fun p => lo ≤ p ∧ p < hi ∧ a.bit p = v).card

/-- Both tables hold the counts that 42_rank.md R137 states, in the geometry of R134. -/
structure TablesCount (b : BitArray) (z : SizeParams) (sbt blt : BitArray) : Prop where
  sbtLen : sbt.len = z.superblockCount * z.superblockWordSize
  bltLen : blt.len = z.superblockCount * z.blocksPerSuperblock * z.blockWordSize
  superblocks : ∀ i, i < z.superblockCount →
    sbt.getInt (i * z.superblockWordSize) z.superblockWordSize = b.count 1 0 (i * z.superblockLen)
  blocks : ∀ i j, i < z.superblockCount → j < z.blocksPerSuperblock →
    blt.getInt ((i * z.blocksPerSuperblock + j) * z.blockWordSize) z.blockWordSize
      = b.count 1 (i * z.superblockLen) (min (i * z.superblockLen + j * z.blockLen) ((i + 1) * z.superblockLen))

/-- `v` is the answer of a select for the `r`-th position whose bit is `bit`: that position, or SENTINEL where there is
none (43_select.md R160 to R162, R164). -/
def SelectAnswer (b : BitArray) (bit r v : Nat) : Prop :=
  (1 ≤ r ∧ v < b.len ∧ b.bit v = bit ∧ b.count bit 0 (v + 1) = r) ∨
    ((r = 0 ∨ b.count bit 0 b.len < r) ∧ v = 2 ^ 64 - 1)

/-- An array whose storage is in canonical form and whose bits at and above `bit_count`, the pad bits among them, are
0 (10_state.md R25). -/
def BitArray.WellFormed (a : BitArray) : Prop := Memory.wf a.storage = true ∧ ∀ i, a.len ≤ i → a.bit i = 0

/-- The storage invariant: parameters in range, slot file canonical and within NSLOT, every array well-formed, tables
exactly where a dictionary is (10_state.md R31 item 2), USED the sum of all bytes and within MEM_BYTES (R28, R31 item 4). -/
structure StorageInv (s : State) : Prop where
  config : s.config.ok = true
  slotFile : sparseWf Slot.empty 0 s.slots = true
  inRange : ∀ k, s.config.nslot ≤ k → s.slot k = Slot.empty
  arrays : ∀ k r a, (s.slot k).arr r = some a → a.WellFormed
  superblockTable : ∀ k, (s.slot k).superblockTable.isSome = (s.slot k).rankDict.isSome
  blockTable : ∀ k, (s.slot k).blockTable.isSome = (s.slot k).rankDict.isSome
  used : s.used.toNat = s.usedSum
  capacity : s.usedSum ≤ s.config.memBytes

/-- Slot `k` holds the dictionary that 42_rank.md R140 builds over its bitvector `b` (10_state.md R31 item 1). -/
def HasDict (s : State) (k : Nat) (b : BitArray) : Prop :=
  (s.slot k).partitionBits = some b ∧ 2 ≤ b.len ∧ s.slot k = (s.slot k).withDict b

/-- Every valid dictionary is the one built over the slot's current bits (10_state.md R31 item 1). -/
def DictInv (s : State) : Prop := ∀ k, (s.slot k).rankDict.isSome = true → ∃ b, HasDict s k b

/-- The id sequence of the tree over alphabet size `a` whose `m` symbols are in `input` (44_wavelet.md R171). -/
def treeIds (input : BitArray) (a m : Nat) : List Nat := inputIds input m (symbolWidth a)

/-- Slots `k .. k + 2a - 2` hold the tree that 44_wavelet.md R175 builds over the `m` symbols of `input`. -/
structure TreeOver (s : State) (k a m : Nat) (input : BitArray) : Prop where
  alphabetPos : 1 ≤ a
  alphabetMax : a ≤ 256
  lengthPos : 1 ≤ m
  lengthMax : m < 2 ^ 64
  fits : k + runLength a ≤ s.config.nslot
  symbols : (s.slot k).symbols = some input
  inputLen : input.len = m * symbolWidth a
  inRange : idsInRange a (treeIds input a m) = true
  allOccur : idsAllOccur a (treeIds input a m) = true
  built : ∀ pn ∈ treePlan k a m (treeIds input a m), s.slot pn.slot = pn.build (symbolWidth a) (s.slot pn.slot)

/-- What 44_wavelet.md R174 leaves in the slot of one node: its scalars, its symbols element by element, its partition
bits and dictionary if internal, an empty bitvector and no dictionary if a leaf. -/
structure NodeStands (s : State) (w : Nat) (pn : PlanNode) : Prop where
  scalars : ∃ nd, (s.slot pn.slot).node = some nd ∧ nd.isRoot = pn.isRoot ∧ nd.alphabetLow.toNat = pn.lo ∧
    nd.alphabetHigh.toNat = pn.hi ∧ nd.symbolWordSize.toNat = w ∧ nd.seqLen.toNat = pn.seq.length ∧
    childField nd.left = (if pn.lo < pn.hi then pn.slot + 1 else 2 ^ 64 - 1) ∧
    childField nd.right = (if pn.lo < pn.hi then pn.slot + 2 * ((pn.lo + pn.hi) / 2 - pn.lo + 1) else 2 ^ 64 - 1)
  symbols : ∃ sa, (s.slot pn.slot).symbols = some sa ∧ sa.len = pn.seq.length * w ∧
    ∀ i (h : i < pn.seq.length), sa.getInt (i * w) w = pn.seq[i]
  leaf : pn.lo = pn.hi → ∃ p, (s.slot pn.slot).partitionBits = some p ∧ p.len = 0 ∧
    (s.slot pn.slot).rankDict = none ∧ (s.slot pn.slot).superblockTable = none ∧
    (s.slot pn.slot).blockTable = none
  internal : pn.lo < pn.hi → ∃ p, HasDict s pn.slot p ∧ p.len = pn.seq.length ∧
    ∀ i (h : i < pn.seq.length), p.bit i = if (pn.lo + pn.hi) / 2 < pn.seq[i] then 1 else 0

/-- Every valid node belongs to the run of a root whose tree stands as built (10_state.md R31 item 3; 44_wavelet.md
R170: built once, immutable thereafter). -/
structure TreeInv (s : State) : Prop where
  config : s.config.ok = true
  roots : ∀ k nd, (s.slot k).node = some nd → nd.isRoot = true → ∃ a m input, TreeOver s k a m input
  children : ∀ j nd, (s.slot j).node = some nd → nd.isRoot = false →
    ∃ k a m input, TreeOver s k a m input ∧ k < j ∧ j < k + runLength a

/-- The invariant of 10_state.md R31: its four items, with the canonical form of the model's data. -/
structure SpuInv (s : State) : Prop where
  storage : StorageInv s
  dicts : DictInv s
  trees : TreeInv s

/-- The codes a command can complete with besides OK (60_exceptions.md R201). -/
def failureCodes : Instr → List Status
  | .sysNop => []
  | .sysReset => []
  | .sysClrerr => []
  | .baNew _ _ => [.eSlot, .eExists, .eLocked, .eNomem]
  | .baResize _ _ => [.eSlot, .eInvalid, .eLocked, .eNomem]
  | .baFree _ _ => [.eSlot, .eInvalid, .eLocked]
  | .baLen _ _ => [.eSlot, .eInvalid]
  | .baGetbit _ _ => [.eSlot, .eInvalid, .eRange]
  | .baSetbit _ _ => [.eSlot, .eInvalid, .eLocked, .eRange]
  | .baClrbit _ _ => [.eSlot, .eInvalid, .eLocked, .eRange]
  | .baGetint _ _ _ => [.eSlot, .eInvalid, .eParam, .eRange]
  | .baSetint _ _ _ => [.eSlot, .eInvalid, .eLocked, .eParam, .eRange]
  | .rdBuild _ => [.eSlot, .eInvalid, .eExists, .eLocked, .eParam, .eNomem]
  | .rdFree _ => [.eSlot, .eInvalid, .eLocked]
  | .rdRank1 _ => [.eSlot, .eInvalid, .eRange]
  | .rdRank0 _ => [.eSlot, .eInvalid, .eRange]
  | .rdOvh _ => [.eSlot, .eInvalid]
  | .rdParam _ _ => [.eSlot, .eInvalid, .eParam]
  | .selSelect1 _ => [.eSlot, .eInvalid]
  | .selSelect0 _ => [.eSlot, .eInvalid]
  | .selOvh _ => [.eSlot, .eInvalid]
  | .wtBuild _ _ => [.eSlot, .eInvalid, .eExists, .eParam, .eNomem]
  | .wtFree _ => [.eSlot, .eInvalid, .eLocked]
  | .wtRank _ => [.eSlot, .eInvalid]
  | .wtSelect _ _ => [.eSlot, .eInvalid, .eParam, .eRange]
  | .wtField _ _ => [.eSlot, .eInvalid, .eParam]

/-- The columns `match` and `mask` of the opcode map, row by row as 30_encoding.md R86 prints them. -/
def opcodeMap : List (Nat × Nat) :=
  [(0x00000000, 0xFFFFFFFF), (0x00000001, 0xFFFFFFFF), (0x00000002, 0xFFFFFFFF),
    (0x00000010, 0xFFF000FF), (0x00000011, 0xFFF000FF), (0x00000012, 0xFFF000FF), (0x00000013, 0xFFF000FF),
    (0x00000014, 0xFFF000FF), (0x00000015, 0xFFF000FF), (0x00000016, 0xFFF000FF),
    (0x00000017, 0xE00000FF), (0x00000018, 0xE00000FF),
    (0x00000020, 0xFFFC00FF), (0x00000021, 0xFFFC00FF), (0x00000022, 0xFFFC00FF), (0x00000023, 0xFFFC00FF),
    (0x00000024, 0xFFFC00FF), (0x00000025, 0xE00C00FF),
    (0x00000030, 0xFFFC00FF), (0x00000031, 0xFFFC00FF), (0x00000032, 0xFFFC00FF),
    (0x00000040, 0xE00C00FF), (0x00000041, 0xFFFC00FF), (0x00000042, 0xFFFC00FF), (0x00000043, 0xE00C00FF),
    (0x00000044, 0xE00C00FF)]

/-- The commands that only read: none of them changes the SPU's data (20_memory.md R56). -/
def isQuery : Instr → Bool
  | .baLen _ _ => true
  | .baGetbit _ _ => true
  | .baGetint _ _ _ => true
  | .rdRank1 _ => true
  | .rdRank0 _ => true
  | .rdOvh _ => true
  | .rdParam _ _ => true
  | .selSelect1 _ => true
  | .selSelect0 _ => true
  | .selOvh _ => true
  | .wtRank _ => true
  | .wtSelect _ _ => true
  | .wtField _ _ => true
  | .sysNop => true
  | .sysReset => false
  | .sysClrerr => true
  | .baNew _ _ => false
  | .baResize _ _ => false
  | .baFree _ _ => false
  | .baSetbit _ _ => false
  | .baClrbit _ _ => false
  | .baSetint _ _ _ => false
  | .rdBuild _ => false
  | .rdFree _ => false
  | .wtBuild _ _ => false
  | .wtFree _ => false

/-- The commands of the BA family (30_encoding.md R86). -/
def isBa (i : Instr) : Bool := decide (i.opcode / 16 = 1)

/-- The test of `slot` that comes before a command's own checks (30_encoding.md R85). -/
def slotCheck (s : State) (k : SlotNum) : Bool × Status := (decide (s.config.nslot ≤ k.toNat), .eSlot)

/-- A command's checks, each with its code, in the order of its rule's list after the slot test (R110 to R182). -/
def checks (s : State) : Instr → List (Bool × Status)
  | .sysNop => []
  | .sysReset => []
  | .sysClrerr => []
  | .baNew k r =>
    [slotCheck s k, ((s.slot k.toNat).locked r, .eLocked), (((s.slot k.toNat).arr r).isSome, .eExists),
      (decide (s.config.memBytes < s.used.toNat + bytesFor s.op0.toNat), .eNomem)]
  | .baResize k r =>
    [slotCheck s k, ((s.slot k.toNat).locked r, .eLocked), (((s.slot k.toNat).arr r).isNone, .eInvalid),
      (decide (s.config.memBytes <
        s.used.toNat - ((s.slot k.toNat).array r).bytes + bytesFor s.op0.toNat), .eNomem)]
  | .baFree k r =>
    [slotCheck s k, ((s.slot k.toNat).locked r, .eLocked), (((s.slot k.toNat).arr r).isNone, .eInvalid)]
  | .baLen k r => [slotCheck s k, (((s.slot k.toNat).arr r).isNone, .eInvalid)]
  | .baGetbit k r =>
    [slotCheck s k, (((s.slot k.toNat).arr r).isNone, .eInvalid),
      (decide (((s.slot k.toNat).array r).len ≤ s.op0.toNat), .eRange)]
  | .baSetbit k r =>
    [slotCheck s k, ((s.slot k.toNat).locked r, .eLocked), (((s.slot k.toNat).arr r).isNone, .eInvalid),
      (decide (((s.slot k.toNat).array r).len ≤ s.op0.toNat), .eRange)]
  | .baClrbit k r =>
    [slotCheck s k, ((s.slot k.toNat).locked r, .eLocked), (((s.slot k.toNat).arr r).isNone, .eInvalid),
      (decide (((s.slot k.toNat).array r).len ≤ s.op0.toNat), .eRange)]
  | .baGetint k r w =>
    [slotCheck s k, (decide (64 < w.toNat), .eParam), (((s.slot k.toNat).arr r).isNone, .eInvalid),
      (decide (((s.slot k.toNat).array r).len < s.op0.toNat + w.toNat), .eRange)]
  | .baSetint k r w =>
    [slotCheck s k, (decide (64 < w.toNat), .eParam), ((s.slot k.toNat).locked r, .eLocked),
      (((s.slot k.toNat).arr r).isNone, .eInvalid),
      (decide (((s.slot k.toNat).array r).len < s.op0.toNat + w.toNat), .eRange)]
  | .rdBuild k =>
    [slotCheck s k, ((s.slot k.toNat).node.isSome, .eLocked), ((s.slot k.toNat).rankDict.isSome, .eExists),
      ((s.slot k.toNat).partitionBits.isNone, .eInvalid),
      (decide (((s.slot k.toNat).array .P).len < 2), .eParam),
      (decide (s.config.memBytes <
        s.used.toNat + (sizeParams ((s.slot k.toNat).array .P).len).tableBytes), .eNomem)]
  | .rdFree k =>
    [slotCheck s k, ((s.slot k.toNat).node.isSome, .eLocked), ((s.slot k.toNat).rankDict.isNone, .eInvalid)]
  | .rdRank1 k =>
    [slotCheck s k, ((s.slot k.toNat).rankDict.isNone, .eInvalid),
      ((s.slot k.toNat).rankDict.any fun d => decide (d.n.toNat ≤ s.op0.toNat), .eRange)]
  | .rdRank0 k =>
    [slotCheck s k, ((s.slot k.toNat).rankDict.isNone, .eInvalid),
      ((s.slot k.toNat).rankDict.any fun d => decide (d.n.toNat ≤ s.op0.toNat), .eRange)]
  | .rdOvh k => [slotCheck s k, ((s.slot k.toNat).rankDict.isNone, .eInvalid)]
  | .rdParam k sel =>
    [slotCheck s k, (decide (6 < sel.toNat), .eParam), ((s.slot k.toNat).rankDict.isNone, .eInvalid)]
  | .selSelect1 k => [slotCheck s k, ((s.slot k.toNat).rankDict.isNone, .eInvalid)]
  | .selSelect0 k => [slotCheck s k, ((s.slot k.toNat).rankDict.isNone, .eInvalid)]
  | .selOvh k => [slotCheck s k, ((s.slot k.toNat).rankDict.isNone, .eInvalid)]
  | .wtBuild k a =>
    [slotCheck s k, (decide (a.toNat = 0 ∨ 256 < a.toNat ∨ s.op0.toNat = 0), .eParam),
      (decide (s.config.nslot ≤ k.toNat + 2 * a.toNat - 2), .eSlot),
      (decide (s.slot k.toNat ≠ { Slot.empty with symbols := (s.slot k.toNat).symbols } ∨
        ∃ t, t < 2 * a.toNat - 1 ∧ t ≠ 0 ∧ s.slot (k.toNat + t) ≠ Slot.empty), .eExists),
      ((s.slot k.toNat).symbols.isNone, .eInvalid),
      (decide (((s.slot k.toNat).array .S).len ≠ s.op0.toNat * symbolWidth a.toNat), .eParam),
      (!idsInRange a.toNat (treeIds ((s.slot k.toNat).array .S) a.toNat s.op0.toNat), .eParam),
      (!idsAllOccur a.toNat (treeIds ((s.slot k.toNat).array .S) a.toNat s.op0.toNat), .eParam),
      (decide (s.config.memBytes < s.used.toNat + planNeed (symbolWidth a.toNat)
        (treePlan k.toNat a.toNat s.op0.toNat
          (treeIds ((s.slot k.toNat).array .S) a.toNat s.op0.toNat))), .eNomem)]
  | .wtFree k =>
    [slotCheck s k, ((s.slot k.toNat).node.isNone, .eInvalid),
      ((s.slot k.toNat).node.any fun nd => !nd.isRoot, .eLocked)]
  | .wtRank k => [slotCheck s k, ((s.slot k.toNat).node.isNone, .eInvalid)]
  | .wtSelect k c =>
    [slotCheck s k, (decide (255 < c.toNat), .eParam), ((s.slot k.toNat).node.isNone, .eInvalid),
      ((s.slot k.toNat).node.any fun nd =>
        decide (c.toNat < nd.alphabetLow.toNat ∨ nd.alphabetHigh.toNat < c.toNat), .eRange)]
  | .wtField k sel =>
    [slotCheck s k, (decide (8 < sel.toNat), .eParam), ((s.slot k.toNat).node.isNone, .eInvalid)]

/-- The code of the first check of a command that fails, if one does (60_exceptions.md R202). -/
def firstFailure (i : Instr) (s : State) : Option Status := ((checks s i).find? fun c => c.1).map fun c => c.2

end Sys2Proof.Machine
end

