-- ==== Sys2Proof/Certificates/Slice0/Obligations.lean ====
section
/-!
DEFINITION. Certificates/Slice0/Obligations.lean: the statements for the provers, by family: encoding, the host's side,
SYS, BA, RD, SEL, WT, the whole machine. Each docstring names the rules of the spec the statement rests on; a
statement that rests on a choice of the model says so and names the log entry.
-/

open Sys2Proof Sys2Proof.Machine

/-! Encoding. -/

/-- Decoding the word of a command gives the command back, with every field at every value (30_encoding.md R81, R84 to
R86). -/
def Obligations.EncodedCommandsDecodeBack : Prop :=
  ∀ i : Instr, decode ((encode i).setWidth 64) = .command i

/-- The only data that select a command are its word, zero-extended: no bit of a decoded value is dropped
(30_encoding.md R80, R81, R84, R85). -/
def Obligations.DecodedDataAreTheWord : Prop :=
  ∀ (data : Word) (i : Instr), decode data = .command i → data = (encode i).setWidth 64

/-- A word selects the command of a row of the opcode map exactly when `w AND mask = match`, and a word that no row
matches selects none (30_encoding.md R86, R87). -/
def Obligations.OpcodeMapSelectsByMask : Prop :=
  ∀ w : BitVec 32,
    (∀ row ∈ opcodeMap, (∃ i, decode (w.setWidth 64) = .command i ∧ i.opcode = row.1) ↔
      w &&& BitVec.ofNat 32 row.2 = BitVec.ofNat 32 row.1) ∧
    ((∀ row ∈ opcodeMap, w &&& BitVec.ofNat 32 row.2 ≠ BitVec.ofNat 32 row.1) →
      ∃ why, decode (w.setWidth 64) = .illegal why)

/-- Words that the spec prints decode to the commands it prints them for (R81, R102, R175, R179), with one more word
for each other family. -/
def Obligations.PrintedWordsDecode : Prop :=
  decode 0x00540318#64 = .command (.baSetint 3#10 .S 5#9) ∧ decode 0x00300040#64 = .command (.wtBuild 0#10 3#9) ∧
    decode 0x00000043#64 = .command (.wtSelect 0#10 0#9) ∧ decode 0x00300043#64 = .command (.wtSelect 0#10 3#9) ∧
    decode 0x00000002#64 = .command .sysClrerr ∧ decode 0x00000102#64 = .illegal .unusedSlot ∧
    decode 0x00600525#64 = .command (.rdParam 5#10 6#9) ∧ decode 0x00000130#64 = .command (.selSelect1 1#10)

/-- Every other value written to CMD completes with E_ILLEGAL: CMD keeps its low word, and nothing but CMD, RES and
STAT changes (30_encoding.md R85, R87; 60_exceptions.md R203); so does the step that takes such a write, whose queue has
moved on (the queue is the model's, notes/assumptions/1.md). -/
def Obligations.OtherDataAreIllegal : Prop :=
  ∀ data : Word, (∀ i : Instr, data ≠ (encode i).setWidth 64) →
    (∀ s : State,
      ∃ t, issue data s = .next t ∧ t.cmd = data.setWidth 32 ∧ Failed (s.latchCmd data) t .eIllegal) ∧
    ∀ (s : State) (rest : List HostAction), s.hostQueue = .write .cmd data :: rest →
      ∃ t, step s = .next t ∧ t.cmd = data.setWidth 32 ∧
        Failed { s with hostQueue := rest, cmd := data.setWidth 32 } t .eIllegal

/-! The host's side. -/

/-- A step whose host action is a CMD write of data that decode to a command runs exactly that command, on the state
whose CMD holds the low word and whose queue has moved on; so does a step after withFetchWord (00_scope.md R7,
60_exceptions.md R203; the queue is the model's, notes/assumptions/1.md). -/
def Obligations.StepRunsTheDecodedCommand : Prop :=
  (∀ (s : State) (data : Word) (rest : List HostAction) (i : Instr),
    s.hostQueue = .write .cmd data :: rest → decode data = .command i →
      step s = exec i { s with hostQueue := rest, cmd := data.setWidth 32 }) ∧
  ∀ (s : State) (w : Nat) (i : Instr), decodeTableWord 32 w = some i →
    step (s.withFetchWord 32 w) = exec i { s with cmd := BitVec.ofNat 32 w }

/-- A host write of OP0 or OP1 stores the value; a write of a read-only register changes nothing (10_state.md R21; the
queue is the model's, notes/assumptions/1.md). -/
def Obligations.HostWritesReachOperandsOnly : Prop :=
  ∀ (s : State) (r : HostReg) (v : Word) (rest : List HostAction), s.hostQueue = .write r v :: rest → r ≠ .cmd →
    step s = .next
      (if r = .op0 then { s with hostQueue := rest, op0 := v }
        else if r = .op1 then { s with hostQueue := rest, op1 := v }
        else { s with hostQueue := rest })

/-- A host read returns the register and changes nothing else: CAP is MEM_BYTES, IDR is NSLOT and version 1, STAT is
CODE, numbered as 60_exceptions.md R200 numbers it, and STICKY, CMD's high half is 0 (10_state.md R21, R29, R30; where
the value goes is the model's, notes/assumptions/1.md). -/
def Obligations.HostReadsReturnRegisters : Prop :=
  ∀ (s : State) (r : HostReg) (rest : List HostAction), s.config.ok = true → s.hostQueue = .read r :: rest →
    ∃ v : Word, step s = .next { s with hostQueue := rest, hostReads := v :: s.hostReads } ∧
      match r with
      | .op0 => v = s.op0
      | .op1 => v = s.op1
      | .cmd => v.toNat = s.cmd.toNat
      | .res => v = s.res
      | .stat =>
        v.toNat = (if s.sticky then 256 else 0) +
          match s.code with
          | .ok => 0
          | .eIllegal => 1
          | .eSlot => 2
          | .eInvalid => 3
          | .eExists => 4
          | .eLocked => 5
          | .eParam => 6
          | .eRange => 7
          | .eNomem => 8
      | .cap => v.toNat = s.config.memBytes
      | .used => v = s.used
      | .idr => v.toNat = s.config.nslot + 65536

/-- After hardware reset and after SYS.RESET every register and every valid flag is as 10_state.md R36 says, CAP and IDR
among them. -/
def Obligations.ResetLeavesTheResetValues : Prop :=
  ∀ s : State, s.config.ok = true →
    (∀ rest : List HostAction, s.hostQueue = .hardReset :: rest →
      ∃ t, step s = .next t ∧ t.op0 = 0 ∧ t.op1 = 0 ∧ t.cmd = 0 ∧ t.res = 0 ∧ t.stat = 0 ∧ t.code = .ok ∧
        t.sticky = false ∧ t.used = 0 ∧ t.cap.toNat = s.config.memBytes ∧ t.idr.toNat = s.config.nslot + 65536 ∧
        ∀ k, t.slot k = Slot.empty) ∧
    ∃ t, issue 0x00000001#64 s = .next t ∧ t.op0 = 0 ∧ t.op1 = 0 ∧ t.cmd = 1 ∧ t.res = 0 ∧ t.stat = 0 ∧
      t.code = .ok ∧ t.sticky = false ∧ t.used = 0 ∧ t.cap.toNat = s.config.memBytes ∧
      t.idr.toNat = s.config.nslot + 65536 ∧ ∀ k, t.slot k = Slot.empty

/-- Hardware reset makes the SPU's state the reset state for the same parameters (70_reset_and_hazards.md R230); that it
stands between two host actions and leaves the host's own side alone is the model's choice (notes/assumptions/14.md). -/
def Obligations.HardResetKeepsTheHostSide : Prop :=
  ∀ (s : State) (rest : List HostAction), s.hostQueue = .hardReset :: rest →
    step s = .next { State.resetWith s.config with hostQueue := rest, hostReads := s.hostReads }

/-- The model's state after reset reads as 10_state.md R36 and R29 say, with the default parameters: IDR 0x10200, CAP
0x100000, every other register 0, every slot empty (the defaults: notes/assumptions/3.md). -/
def Obligations.DefaultResetReadsAsTheSpecSays : Prop :=
  State.reset.readReg .idr = 0x0000000000010200#64 ∧ State.reset.readReg .cap = 0x0000000000100000#64 ∧
    State.reset.readReg .op0 = 0 ∧ State.reset.readReg .op1 = 0 ∧ State.reset.readReg .cmd = 0 ∧
    State.reset.readReg .res = 0 ∧ State.reset.readReg .stat = 0 ∧ State.reset.readReg .used = 0 ∧
    ∀ k, State.reset.slot k = Slot.empty

/-- With no host action pending a step changes nothing: the model's choice (notes/assumptions/2.md), since by 00_scope.md
section 5 nothing executes but what the host starts. -/
def Obligations.IdleStepChangesNothing : Prop :=
  ∀ s : State, s.hostQueue = [] → step s = .next s

/-- Every step of every state answers a next state: the step is total, and no command stops the machine
(00_scope.md R7). -/
def Obligations.EveryStepAnswersNext : Prop :=
  ∀ s : State, ∃ t, step s = .next t

/-! SYS. -/

/-- SYS.NOP: RES 0, CODE OK, nothing else (40_sys.md R100). -/
def Obligations.SysNopWritesResAndCode : Prop :=
  encode .sysNop = 0x00000000#32 ∧
    ∀ s : State, exec .sysNop s = .next { s with res := 0, code := .ok }

/-- SYS.RESET empties every slot whatever its locks, clears USED, OP0, OP1, RES and STAT, and keeps CMD (40_sys.md
R101); the host's side is the model's (notes/assumptions/1.md). -/
def Obligations.SysResetEmptiesEverything : Prop :=
  encode .sysReset = 0x00000001#32 ∧
    ∀ s : State, exec .sysReset s = .next
      { s with op0 := 0, op1 := 0, res := 0, code := .ok, sticky := false, used := 0, slots := [] }

/-- SYS.CLRERR: RES 0, CODE OK, STICKY 0, so STAT reads 0, and nothing else changes; the word 0x102, which looks like
it, is E_ILLEGAL and sets STICKY (40_sys.md R102). -/
def Obligations.SysClrerrClearsSticky : Prop :=
  encode .sysClrerr = 0x00000002#32 ∧
    ∀ s : State, (∃ t, exec .sysClrerr s = .next t ∧ t = { s with res := 0, code := .ok, sticky := false } ∧
        t.stat = 0) ∧
      ∃ t, issue 0x00000102#64 s = .next t ∧ t.code = .eIllegal ∧ t.sticky = true

/-! BA. -/

/-- BA.NEW on an unlocked, absent array that fits: a valid array of OP0 bits, all bytes 0x00, USED grows by its bytes,
and nothing else changes (41_bitarray.md R110, 20_memory.md R64, 10_state.md R28). -/
def Obligations.BaNewCreatesZeroedArray : Prop :=
  ∀ (k : SlotNum) (r : Role) (s : State), s.config.ok = true → k.toNat < s.config.nslot →
    (s.slot k.toNat).locked r = false → (s.slot k.toNat).arr r = none →
    s.used.toNat + (s.op0.toNat + 7) / 8 ≤ s.config.memBytes →
    ∃ t a, exec (.baNew k r) s = .next t ∧ CompletedOk s t 0 ∧
      t.used.toNat = s.used.toNat + (s.op0.toNat + 7) / 8 ∧
      (t.slot k.toNat).arr r = some a ∧ a.bitCount = s.op0 ∧ (∀ b, a.readByte b = 0) ∧ OnlyArray k.toNat r s t

/-- BA.RESIZE on an unlocked, valid array: OP0 bits, all bytes 0x00 whatever they held, USED changes by the difference,
nothing else changes (41_bitarray.md R111, 20_memory.md R64, 10_state.md R28). -/
def Obligations.BaResizeRezeroesArray : Prop :=
  ∀ (k : SlotNum) (r : Role) (s : State) (old : BitArray), s.config.ok = true → k.toNat < s.config.nslot →
    (s.slot k.toNat).locked r = false → (s.slot k.toNat).arr r = some old →
    s.used.toNat - (old.len + 7) / 8 + (s.op0.toNat + 7) / 8 ≤ s.config.memBytes →
    ∃ t a, exec (.baResize k r) s = .next t ∧ CompletedOk s t 0 ∧
      t.used.toNat = s.used.toNat - (old.len + 7) / 8 + (s.op0.toNat + 7) / 8 ∧
      (t.slot k.toNat).arr r = some a ∧ a.bitCount = s.op0 ∧ (∀ b, a.readByte b = 0) ∧ OnlyArray k.toNat r s t

/-- BA.FREE on an unlocked, valid array: it no longer exists, USED shrinks by its bytes, nothing else changes
(41_bitarray.md R112, 10_state.md R28). -/
def Obligations.BaFreeRemovesArray : Prop :=
  ∀ (k : SlotNum) (r : Role) (s : State) (old : BitArray), k.toNat < s.config.nslot →
    (s.slot k.toNat).locked r = false → (s.slot k.toNat).arr r = some old →
    ∃ t, exec (.baFree k r) s = .next t ∧ CompletedOk s t 0 ∧
      t.used.toNat = s.used.toNat - (old.len + 7) / 8 ∧ (t.slot k.toNat).arr r = none ∧ OnlyArray k.toNat r s t

/-- BA.LEN reads the length and BA.GETBIT the bit, least significant first within its byte, of any valid array, locked
or not; nothing changes (41_bitarray.md R113, R114, 20_memory.md R50). -/
def Obligations.BaLenAndGetbitRead : Prop :=
  ∀ (k : SlotNum) (r : Role) (s : State) (a : BitArray), k.toNat < s.config.nslot →
    (s.slot k.toNat).arr r = some a →
    (∃ t, exec (.baLen k r) s = .next t ∧ Answered s t a.bitCount.toNat) ∧
    (s.op0.toNat < a.bitCount.toNat →
      ∃ t, exec (.baGetbit k r) s = .next t ∧
        Answered s t ((s.readByte k.toNat r (s.op0.toNat / 8)).toNat / 2 ^ (s.op0.toNat % 8) % 2))

/-- BA.SETBIT makes bit OP0 a 1 and BA.CLRBIT makes it a 0; every other bit, every other byte, the length, USED and
everything else stay (41_bitarray.md R115, R116, 20_memory.md R50). -/
def Obligations.BaSetbitClrbitChangeOneBit : Prop :=
  ∀ (k : SlotNum) (r : Role) (s : State) (a : BitArray), k.toNat < s.config.nslot →
    (s.slot k.toNat).locked r = false → (s.slot k.toNat).arr r = some a → s.op0.toNat < a.len →
    ∀ set : Bool,
      ∃ t a', exec (if set then .baSetbit k r else .baClrbit k r) s = .next t ∧ CompletedOk s t 0 ∧
        t.used = s.used ∧ (t.slot k.toNat).arr r = some a' ∧ a'.bitCount = a.bitCount ∧
        (∀ i, t.readBit k.toNat r i = if i = s.op0.toNat then set.toNat else s.readBit k.toNat r i) ∧
        (∀ b, b ≠ s.op0.toNat / 8 → t.readByte k.toNat r b = s.readByte k.toNat r b) ∧ OnlyArray k.toNat r s t

/-- BA.GETINT returns the sum of the bits it reads, each times its power of two, for every width 0 to 64 at every
offset in range, locked or not; nothing changes (41_bitarray.md R117, 20_memory.md R52). -/
def Obligations.BaGetintSumsBits : Prop :=
  ∀ (k : SlotNum) (r : Role) (w : Imm9) (s : State) (a : BitArray), k.toNat < s.config.nslot → w.toNat ≤ 64 →
    (s.slot k.toNat).arr r = some a → s.op0.toNat + w.toNat ≤ a.len →
    ∃ t, exec (.baGetint k r w) s = .next t ∧
      Answered s t (∑ j ∈ Finset.range w.toNat, s.readBit k.toNat r (s.op0.toNat + j) * 2 ^ j)

/-- BA.SETINT writes bit `j` of OP1 to bit `OP0 + j` for every `j` below the width; every other bit and every byte
that holds none of these bits reads as before, and nothing else changes (41_bitarray.md R118, 20_memory.md R53); reading
the integer back gives OP1 mod 2^w, which R53 marks as its own inference from R52. -/
def Obligations.BaSetintWritesBits : Prop :=
  ∀ (k : SlotNum) (r : Role) (w : Imm9) (s : State) (a : BitArray), k.toNat < s.config.nslot → w.toNat ≤ 64 →
    (s.slot k.toNat).locked r = false → (s.slot k.toNat).arr r = some a → s.op0.toNat + w.toNat ≤ a.len →
    ∃ t a', exec (.baSetint k r w) s = .next t ∧ CompletedOk s t 0 ∧ t.used = s.used ∧
      (t.slot k.toNat).arr r = some a' ∧ a'.bitCount = a.bitCount ∧
      (∀ i, t.readBit k.toNat r i =
        if s.op0.toNat ≤ i ∧ i < s.op0.toNat + w.toNat then s.op1.toNat / 2 ^ (i - s.op0.toNat) % 2
        else s.readBit k.toNat r i) ∧
      a'.getInt s.op0.toNat w.toNat = s.op1.toNat % 2 ^ w.toNat ∧
      (∀ b, ¬touchesByte s.op0.toNat w.toNat b → t.readByte k.toNat r b = s.readByte k.toNat r b) ∧
      OnlyArray k.toNat r s t

/-- A locked array refuses every host write with E_LOCKED, tables always, P while a node or a dictionary is valid, S
while a node is; so do RD.BUILD and RD.FREE on a slot with a node, and WT.FREE on a node that is not a root
(60_exceptions.md R211). -/
def Obligations.LocksRefuseHostWrites : Prop :=
  ∀ (k : SlotNum) (s : State), k.toNat < s.config.nslot →
    (∀ r : Role,
      (r = .SBT ∨ r = .BLT ∨ (s.slot k.toNat).node.isSome = true ∨
        (r = .P ∧ (s.slot k.toNat).rankDict.isSome = true)) →
      (∀ i ∈ [Instr.baNew k r, .baResize k r, .baFree k r, .baSetbit k r, .baClrbit k r],
        ∃ t, exec i s = .next t ∧ Failed s t .eLocked) ∧
      ∀ w : Imm9, w.toNat ≤ 64 → ∃ t, exec (.baSetint k r w) s = .next t ∧ Failed s t .eLocked) ∧
    ∀ nd, (s.slot k.toNat).node = some nd →
      (∃ t, exec (.rdBuild k) s = .next t ∧ Failed s t .eLocked) ∧
      (∃ t, exec (.rdFree k) s = .next t ∧ Failed s t .eLocked) ∧
      (nd.isRoot = false → ∃ t, exec (.wtFree k) s = .next t ∧ Failed s t .eLocked)

/-! RD. -/

/-- The six size parameters are the formulas of 42_rank.md R130 over the reals, for every length a dictionary can have. -/
def Obligations.SizesFollowRealLogarithms : Prop :=
  ∀ n : Nat, 2 ≤ n → n < 2 ^ 64 →
    (sizeParams n).superblockLen = ⌈Real.logb 2 n ^ 2 / 2⌉₊ ∧
    (sizeParams n).superblockWordSize = ⌈Real.logb 2 n⌉₊ ∧
    (sizeParams n).superblockCount = ⌈(n : ℝ) / (sizeParams n).superblockLen⌉₊ ∧
    (sizeParams n).blockLen = ⌈Real.logb 2 n / 2⌉₊ ∧
    (sizeParams n).blockWordSize = ⌈Real.logb 2 (sizeParams n).superblockLen⌉₊ ∧
    (sizeParams n).blocksPerSuperblock = ⌈((sizeParams n).superblockLen : ℝ) / (sizeParams n).blockLen⌉₊

/-- The worked values of 42_rank.md R136, which the spec marks as its own inference from R130 to R134, row by row: n, the
six sizes, the two tables' bits and their sum. -/
def Obligations.WorkedSizesTable : Prop :=
  ∀ row ∈ [(2, 1, 1, 2, 1, 0, 1, 2, 0, 2), (3, 2, 2, 2, 1, 1, 2, 4, 4, 8), (4, 2, 2, 2, 1, 1, 2, 4, 4, 8),
      (5, 3, 3, 2, 2, 2, 2, 6, 8, 14), (6, 4, 3, 2, 2, 2, 2, 6, 8, 14), (7, 4, 3, 2, 2, 2, 2, 6, 8, 14),
      (8, 5, 3, 2, 2, 3, 3, 6, 18, 24), (16, 8, 4, 2, 2, 3, 4, 8, 24, 32), (17, 9, 5, 2, 3, 4, 3, 10, 24, 34),
      (64, 18, 6, 4, 3, 5, 6, 24, 120, 144), (100, 23, 7, 5, 4, 5, 6, 35, 150, 185),
      (600, 43, 10, 14, 5, 6, 9, 140, 756, 896), (1000, 50, 10, 20, 5, 6, 10, 200, 1200, 1400),
      (1024, 50, 10, 21, 5, 6, 10, 210, 1260, 1470), (1025, 51, 11, 21, 6, 6, 9, 231, 1134, 1365),
      (65536, 128, 16, 512, 8, 7, 16, 8192, 57344, 65536),
      (1000000, 199, 20, 5026, 10, 8, 20, 100520, 804160, 904680),
      (4294967296, 512, 32, 8388608, 16, 9, 32, 268435456, 2415919104, 2684354560)],
    match row with
    | (n, sl, sw, sc, bl, bw, bps, sbt, blt, ovh) =>
      sizeParams n = ⟨sl, sw, sc, bl, bw, bps⟩ ∧ (sizeParams n).sbtBits = sbt ∧ (sizeParams n).bltBits = blt ∧
        (sizeParams n).sbtBits + (sizeParams n).bltBits = ovh

/-- What 42_rank.md R135 draws from the sizing, for every length a dictionary can have; and that both tables' lengths
together fit 64 bits (notes/assumptions/16.md). -/
def Obligations.SizingConsequences : Prop :=
  ∀ n : Nat, 2 ≤ n → n < 2 ^ 64 → ∀ z, sizeParams n = z →
    1 ≤ z.blockLen ∧ z.blockLen ≤ z.superblockLen ∧ z.blockLen ≤ 32 ∧
    (z.superblockCount - 1) * z.superblockLen < n ∧ n ≤ z.superblockCount * z.superblockLen ∧
    (z.blocksPerSuperblock - 1) * z.blockLen < z.superblockLen ∧
    z.superblockLen ≤ z.blocksPerSuperblock * z.blockLen ∧
    n - 1 < 2 ^ z.superblockWordSize ∧ z.superblockLen - 1 < 2 ^ z.blockWordSize ∧
    (z.blockWordSize = 0 ↔ z.superblockLen = 1) ∧ (z.superblockLen = 1 ↔ n = 2) ∧
    z.sbtBits + z.bltBits < 2 ^ 64

/-- The bounds and the closed form of superblock_len (42_rank.md R132): with F and L the floor and the ceiling of
log2(n), it lies between ceil(F^2/2) and ceil(L^2/2), and at a power of two it is ceil(L^2/2). -/
def Obligations.SuperblockLenBounds : Prop :=
  (∀ n : Nat, 2 ≤ n → n < 2 ^ 64 →
    ceilDiv (Nat.log 2 n ^ 2) 2 ≤ superblockLen n ∧ superblockLen n ≤ ceilDiv (Nat.clog 2 n ^ 2) 2) ∧
  ∀ l : Nat, 1 ≤ l → l < 64 → superblockLen (2 ^ l) = ceilDiv (l ^ 2) 2

/-- RD.BUILD over at least 2 bits: the scalars are n and SizeParams(n), USED grows by both tables' bytes, the bits and all
else stay (42_rank.md R140, R134), and both tables hold the counts of R137, which R140 marks as its own inference. -/
def Obligations.RdBuildFillsBothTables : Prop :=
  ∀ (k : SlotNum) (s : State) (b : BitArray), s.config.ok = true → k.toNat < s.config.nslot →
    (s.slot k.toNat).node = none → (s.slot k.toNat).rankDict = none →
    (s.slot k.toNat).partitionBits = some b → 2 ≤ b.len →
    s.used.toNat + (((sizeParams b.len).sbtBits + 7) / 8 + ((sizeParams b.len).bltBits + 7) / 8)
      ≤ s.config.memBytes →
    ∃ t d sbt blt, exec (.rdBuild k) s = .next t ∧ CompletedOk s t 0 ∧
      t.used.toNat
        = s.used.toNat + (((sizeParams b.len).sbtBits + 7) / 8 + ((sizeParams b.len).bltBits + 7) / 8) ∧
      t.slot k.toNat = { s.slot k.toNat with rankDict := some d, superblockTable := some sbt, blockTable := some blt } ∧
      d.n.toNat = b.len ∧ d.sizes = sizeParams b.len ∧ TablesCount b (sizeParams b.len) sbt blt ∧
      HasDict t k.toNat b ∧ SameSlotsBut (· = k.toNat) s t ∧
      ∀ r x, r ≠ .SBT → r ≠ .BLT → t.readByte k.toNat r x = s.readByte k.toNat r x

/-- RD.FREE on a slot with a dictionary and no node: the dictionary and both tables are gone, USED shrinks by their
bytes, the bits and all else stay, and the bits are unlocked (42_rank.md R141, 60_exceptions.md R211). -/
def Obligations.RdFreeRemovesTables : Prop :=
  ∀ (k : SlotNum) (s : State), k.toNat < s.config.nslot → (s.slot k.toNat).node = none →
    (s.slot k.toNat).rankDict.isSome = true →
    ∃ t, exec (.rdFree k) s = .next t ∧ CompletedOk s t 0 ∧
      t.used.toNat
        = s.used.toNat - (arrBytes (s.slot k.toNat).superblockTable + arrBytes (s.slot k.toNat).blockTable) ∧
      t.slot k.toNat = { s.slot k.toNat with rankDict := none, superblockTable := none, blockTable := none } ∧
      (t.slot k.toNat).locked .P = false ∧ SameSlotsBut (· = k.toNat) s t ∧
      ∀ r x, r ≠ .SBT → r ≠ .BLT → t.readByte k.toNat r x = s.readByte k.toNat r x

/-- RD.RANK1 and RD.RANK0 over a built dictionary return how many of the positions 0 to OP0 hold a 1, and a 0; nothing
changes (42_rank.md R142, R143, R144). -/
def Obligations.RankCountsBits : Prop :=
  ∀ (k : SlotNum) (s : State) (b : BitArray), k.toNat < s.config.nslot → HasDict s k.toNat b →
    s.op0.toNat < b.len →
    (∃ t, exec (.rdRank1 k) s = .next t ∧ Answered s t (b.count 1 0 (s.op0.toNat + 1))) ∧
    ∃ t, exec (.rdRank0 k) s = .next t ∧ Answered s t (b.count 0 0 (s.op0.toNat + 1))

/-- The properties (a) to (d) of rank over a built dictionary (42_rank.md R144, which the spec marks as its own inference
from R137 and R142; (a) and (b) are the source's words). -/
def Obligations.RankProperties : Prop :=
  ∀ (s : State) (k : Nat) (b : BitArray) (d : RankDict), HasDict s k b → (s.slot k).rankDict = some d →
    (∀ i, i < b.len → rank1 (s.slot k) d i = b.count 1 0 (i + 1) ∧
      rank0 (s.slot k) d i + rank1 (s.slot k) d i = i + 1) ∧
    (∀ i, i + 1 < b.len →
      (rank1 (s.slot k) d (i + 1) = rank1 (s.slot k) d i + 1 ∧ rank0 (s.slot k) d (i + 1) = rank0 (s.slot k) d i) ∨
      (rank1 (s.slot k) d (i + 1) = rank1 (s.slot k) d i ∧ rank0 (s.slot k) d (i + 1) = rank0 (s.slot k) d i + 1)) ∧
    (rank1 (s.slot k) d 0 = 0 ∧ rank0 (s.slot k) d 0 = 1 ∨ rank1 (s.slot k) d 0 = 1 ∧ rank0 (s.slot k) d 0 = 0)

/-- RD.OVH returns the bits of both tables and RD.PARAM the scalar its selector names; nothing changes (42_rank.md R145,
R146). -/
def Obligations.RdOvhAndParamRead : Prop :=
  ∀ (k : SlotNum) (s : State) (b : BitArray), k.toNat < s.config.nslot → HasDict s k.toNat b →
    (∃ t, exec (.rdOvh k) s = .next t ∧ Answered s t ((sizeParams b.len).sbtBits + (sizeParams b.len).bltBits)) ∧
    ∀ sel : Imm9, sel.toNat ≤ 6 →
      ∃ t, exec (.rdParam k sel) s = .next t ∧
        Answered s t ([b.len, (sizeParams b.len).superblockLen, (sizeParams b.len).superblockWordSize,
          (sizeParams b.len).superblockCount, (sizeParams b.len).blockLen, (sizeParams b.len).blockWordSize,
          (sizeParams b.len).blocksPerSuperblock].getD sel.toNat 0)

/-! SEL. -/

/-- SEL.SELECT1 and SEL.SELECT0 over a built dictionary return the position of the OP0-th 1 (0) bit, or SENTINEL with
CODE OK where there is none; nothing changes (43_select.md R160 to R162). -/
def Obligations.SelectFindsThePosition : Prop :=
  ∀ (k : SlotNum) (s : State) (b : BitArray), k.toNat < s.config.nslot → HasDict s k.toNat b →
    (∃ t v, exec (.selSelect1 k) s = .next t ∧ Answered s t v ∧ SelectAnswer b 1 s.op0.toNat v) ∧
    ∃ t v, exec (.selSelect0 k) s = .next t ∧ Answered s t v ∧ SelectAnswer b 0 s.op0.toNat v

/-- The properties (a) to (e) of select (43_select.md R164, which the spec marks as its own inference from R160 and R144),
and that a search of more than bitlen(n) rounds answers no differently: the bound on the rounds is the model's
(notes/assumptions/8.md), and R164 infers that bitlen(n) is enough. -/
def Obligations.SelectInvertsRank : Prop :=
  ∀ (s : State) (k : Nat) (b : BitArray) (d : RankDict), HasDict s k b → (s.slot k).rankDict = some d →
    ∀ v, v < 2 →
      (∀ r, 1 ≤ r → r ≤ b.count v 0 b.len →
        select (s.slot k) d v r < b.len ∧ rankOf v (s.slot k) d (select (s.slot k) d v r) = r ∧
          b.bit (select (s.slot k) d v r) = v ∧
          ∀ i, i < b.len → (r ≤ rankOf v (s.slot k) d i ↔ select (s.slot k) d v r ≤ i)) ∧
      (∀ i, i < b.len →
        (b.bit i = v → select (s.slot k) d v (rankOf v (s.slot k) d i) = i) ∧
        (b.bit i ≠ v → 1 ≤ rankOf v (s.slot k) d i → select (s.slot k) d v (rankOf v (s.slot k) d i) < i) ∧
        (rankOf v (s.slot k) d i = 0 → select (s.slot k) d v (rankOf v (s.slot k) d i) = 2 ^ 64 - 1)) ∧
      (∀ r, select (s.slot k) d v r = 2 ^ 64 - 1 ↔ r = 0 ∨ b.count v 0 b.len < r) ∧
      ∀ r fuel, 1 ≤ r → r ≤ b.len → bitLen b.len ≤ fuel →
        searchLeftmost (rankOf v (s.slot k) d) r fuel 0 (b.len - 1) sentinelNat = select (s.slot k) d v r

/-- SEL.OVH returns 0 while the slot's dictionary is valid; nothing changes (43_select.md R163). -/
def Obligations.SelOvhIsZero : Prop :=
  ∀ (k : SlotNum) (s : State), k.toNat < s.config.nslot → (s.slot k.toNat).rankDict.isSome = true →
    ∃ t, exec (.selOvh k) s = .next t ∧ Answered s t 0

/-! WT. -/

/-- The slot plan of a tree: pre-order numbering over exactly the slots `k .. k + 2A - 2`, each node's range, sequence
and children, and A leaves among 2A - 1 nodes (44_wavelet.md R170, R172, R174). -/
def Obligations.TreeSlotNumbering : Prop :=
  ∀ (k a : Nat) (ids : List Nat), 1 ≤ a → (∀ c ∈ ids, c < a) →
    ((treePlan k a ids.length ids).map PlanNode.slot).Nodup ∧
    (∀ x, (∃ pn ∈ treePlan k a ids.length ids, pn.slot = x) ↔ k ≤ x ∧ x ≤ k + 2 * a - 2) ∧
    (treePlan k a ids.length ids).length = 2 * a - 1 ∧
    ((treePlan k a ids.length ids).filter fun pn => decide (pn.lo = pn.hi)).length = a ∧
    (∃ pn ∈ treePlan k a ids.length ids, pn.slot = k ∧ pn.lo = 0 ∧ pn.hi = a - 1 ∧ pn.seq = ids) ∧
    ∀ pn ∈ treePlan k a ids.length ids,
      pn.lo ≤ pn.hi ∧ pn.hi < a ∧ pn.len = pn.seq.length ∧ (pn.isRoot = true ↔ pn.slot = k) ∧
      pn.seq = (ids.filter fun c => decide (pn.lo ≤ c ∧ c ≤ pn.hi)) ∧
      (pn.lo < pn.hi →
        (∃ l ∈ treePlan k a ids.length ids, l.slot = pn.slot + 1 ∧ l.lo = pn.lo ∧ l.hi = (pn.lo + pn.hi) / 2 ∧
          l.seq = pn.seq.filter fun c => decide (c ≤ (pn.lo + pn.hi) / 2)) ∧
        ∃ r ∈ treePlan k a ids.length ids, r.slot = pn.slot + 2 * ((pn.lo + pn.hi) / 2 - pn.lo + 1) ∧
          r.lo = (pn.lo + pn.hi) / 2 + 1 ∧ r.hi = pn.hi ∧
          r.seq = pn.seq.filter fun c => decide ((pn.lo + pn.hi) / 2 < c))

/-- WT.BUILD with every check passed: every node of the plan stands as 44_wavelet.md R174 says, USED grows by the
arrays created, and every slot outside the run stays (44_wavelet.md R171 to R175). -/
def Obligations.WtBuildBuildsTheTree : Prop :=
  ∀ (k : SlotNum) (a : Imm9) (s : State) (input : BitArray), s.config.ok = true →
    1 ≤ a.toNat → a.toNat ≤ 256 → 1 ≤ s.op0.toNat → k.toNat + 2 * a.toNat - 2 < s.config.nslot →
    s.slot k.toNat = { Slot.empty with symbols := some input } →
    (∀ j, k.toNat < j → j ≤ k.toNat + 2 * a.toNat - 2 → s.slot j = Slot.empty) →
    input.len = s.op0.toNat * symbolWidth a.toNat →
    (∀ c ∈ treeIds input a.toNat s.op0.toNat, c < a.toNat) →
    (∀ c, c < a.toNat → c ∈ treeIds input a.toNat s.op0.toNat) →
    s.used.toNat + planNeed (symbolWidth a.toNat)
        (treePlan k.toNat a.toNat s.op0.toNat (treeIds input a.toNat s.op0.toNat)) ≤ s.config.memBytes →
    ∃ t, exec (.wtBuild k a) s = .next t ∧ CompletedOk s t 0 ∧
      t.used.toNat = s.used.toNat + planNeed (symbolWidth a.toNat)
        (treePlan k.toNat a.toNat s.op0.toNat (treeIds input a.toNat s.op0.toNat)) ∧
      (t.slot k.toNat).symbols = some input ∧
      (∀ pn ∈ treePlan k.toNat a.toNat s.op0.toNat (treeIds input a.toNat s.op0.toNat),
        NodeStands t (symbolWidth a.toNat) pn) ∧
      TreeOver t k.toNat a.toNat s.op0.toNat input ∧
      SameSlotsBut (fun j => k.toNat ≤ j ∧ j ≤ k.toNat + 2 * a.toNat - 2) s t

/-- The worked tree of 44_wavelet.md R183 over "banana": WT.BUILD s0, 3, 6 leaves the storage bytes, lengths, scalars
and USED of the printed table. -/
def Obligations.WorkedTreeOverBanana : Prop :=
  ∃ t, exec (.wtBuild 0#10 3#9)
      { State.reset with
        op0 := 6
        used := 2
        slots := [(0, { Slot.empty with symbols := some ⟨12#64, [(0, 0x21#8), (1, 0x02#8)]⟩ })] } = .next t ∧
    t.code = .ok ∧ t.res = 0 ∧ t.used = 12 ∧
    t.slot 0 =
      ⟨some ⟨6#64, [(0, 0x14#8)]⟩, some ⟨12#64, [(0, 0x21#8), (1, 0x02#8)]⟩, some ⟨6#64, [(0, 0x08#8)]⟩,
        some ⟨8#64, [(0, 0x40#8)]⟩, some ⟨6#64, 4#64, 3#64, 2#64, 2#64, 2#64, 2#64⟩,
        some ⟨true, 0#8, 2#8, 2#8, 6#64, some 1#10, some 4#10⟩⟩ ∧
    t.slot 1 =
      ⟨some ⟨4#64, [(0, 0x01#8)]⟩, some ⟨8#64, [(0, 0x01#8)]⟩, some ⟨4#64, [(0, 0x04#8)]⟩,
        some ⟨4#64, [(0, 0x02#8)]⟩, some ⟨4#64, 2#64, 2#64, 2#64, 1#64, 1#64, 2#64⟩,
        some ⟨false, 0#8, 1#8, 2#8, 4#64, some 2#10, some 3#10⟩⟩ ∧
    t.slot 2 = ⟨some ⟨0#64, []⟩, some ⟨6#64, []⟩, none, none, none, some ⟨false, 0#8, 0#8, 2#8, 3#64, none, none⟩⟩ ∧
    t.slot 3 =
      ⟨some ⟨0#64, []⟩, some ⟨2#64, [(0, 0x01#8)]⟩, none, none, none,
        some ⟨false, 1#8, 1#8, 2#8, 1#64, none, none⟩⟩ ∧
    t.slot 4 =
      ⟨some ⟨0#64, []⟩, some ⟨4#64, [(0, 0x0A#8)]⟩, none, none, none,
        some ⟨false, 2#8, 2#8, 2#8, 2#64, none, none⟩⟩

/-- WT.FREE on a root empties every slot of its run, USED shrinks by their bytes, every other slot stays
(44_wavelet.md R180). -/
def Obligations.WtFreeEmptiesTheRun : Prop :=
  ∀ (k : SlotNum) (s : State) (nd : Node), k.toNat < s.config.nslot → (s.slot k.toNat).node = some nd →
    nd.isRoot = true → nd.alphabetLow = 0 →
    ∃ t, exec (.wtFree k) s = .next t ∧ CompletedOk s t 0 ∧
      t.used.toNat = s.used.toNat
        - ((List.range (2 * nd.alphabetHigh.toNat + 1)).map fun j => (s.slot (k.toNat + j)).bytes).sum ∧
      (∀ j, k.toNat ≤ j → j ≤ k.toNat + 2 * nd.alphabetHigh.toNat → t.slot j = Slot.empty) ∧
      SameSlotsBut (fun j => k.toNat ≤ j ∧ j ≤ k.toNat + 2 * nd.alphabetHigh.toNat) s t

/-- WT.RANK on any node of a tree returns how often the symbol at position OP0 of the node's own sequence has occurred
up to and with OP0, and SENTINEL with CODE OK past its end; nothing changes (44_wavelet.md R176, R177). -/
def Obligations.WtRankCountsOccurrences : Prop :=
  ∀ (s : State) (k a m : Nat) (input : BitArray) (pn : PlanNode) (j : SlotNum), s.config.ok = true →
    TreeOver s k a m input → pn ∈ treePlan k a m (treeIds input a m) → j.toNat = pn.slot →
    ∃ t v, exec (.wtRank j) s = .next t ∧ Answered s t v ∧
      (pn.seq.length ≤ s.op0.toNat → v = 2 ^ 64 - 1) ∧
      ∀ h : s.op0.toNat < pn.seq.length, v = (pn.seq.take (s.op0.toNat + 1)).count pn.seq[s.op0.toNat]

/-- WT.SELECT on any node of a tree, for a symbol of its range, returns the position of the OP0-th occurrence of the
symbol in the node's own sequence, and SENTINEL with CODE OK where there is none; nothing changes (44_wavelet.md R178,
R179). -/
def Obligations.WtSelectFindsOccurrence : Prop :=
  ∀ (s : State) (k a m : Nat) (input : BitArray) (pn : PlanNode) (j : SlotNum) (c : Imm9), s.config.ok = true →
    TreeOver s k a m input → pn ∈ treePlan k a m (treeIds input a m) → j.toNat = pn.slot →
    pn.lo ≤ c.toNat → c.toNat ≤ pn.hi →
    ∃ t v, exec (.wtSelect j c) s = .next t ∧ Answered s t v ∧
      ((∃ h : v < pn.seq.length, pn.seq[v] = c.toNat ∧ (pn.seq.take (v + 1)).count c.toNat = s.op0.toNat) ∨
        ((s.op0.toNat = 0 ∨ pn.seq.count c.toNat < s.op0.toNat) ∧ v = 2 ^ 64 - 1))

/-- WT.FIELD returns the scalar its selector names, SENTINEL for an absent child; nothing changes (44_wavelet.md R182). -/
def Obligations.WtFieldReadsScalars : Prop :=
  ∀ (k : SlotNum) (s : State) (nd : Node) (sel : Imm9), k.toNat < s.config.nslot →
    (s.slot k.toNat).node = some nd → sel.toNat ≤ 8 →
    ∃ t, exec (.wtField k sel) s = .next t ∧
      Answered s t ([nd.alphabetLow.toNat, nd.alphabetHigh.toNat,
        (nd.alphabetLow.toNat + nd.alphabetHigh.toNat) / 2, (if nd.alphabetLow = nd.alphabetHigh then 1 else 0),
        (match nd.left with | some l => l.toNat | none => 2 ^ 64 - 1),
        (match nd.right with | some r => r.toNat | none => 2 ^ 64 - 1),
        nd.seqLen.toNat, nd.symbolWordSize.toNat, nd.isRoot.toNat].getD sel.toNat 0)

/-- The properties (a) to (e) of a tree: rank counts occurrences, select finds them and inverts rank, a leaf holds
exactly the occurrences of its symbol, at every node with its own sequence (44_wavelet.md R184, which the spec marks as
its own inference; (a) is the source's). -/
def Obligations.TreeRankSelectProperties : Prop :=
  ∀ (s : State) (k a m : Nat) (input : BitArray) (pn : PlanNode), s.config.ok = true →
    TreeOver s k a m input → pn ∈ treePlan k a m (treeIds input a m) →
    (∀ p (h : p < pn.seq.length),
      wtRank s maxPath pn.slot p = (pn.seq.take (p + 1)).count pn.seq[p] ∧
      wtSelect s maxPath pn.slot pn.seq[p] (wtRank s maxPath pn.slot p) = p) ∧
    (∀ c o, pn.lo ≤ c → c ≤ pn.hi → 1 ≤ o → o ≤ pn.seq.count c →
      ∃ h : wtSelect s maxPath pn.slot c o < pn.seq.length, pn.seq[wtSelect s maxPath pn.slot c o] = c ∧
        (pn.seq.take (wtSelect s maxPath pn.slot c o + 1)).count c = o) ∧
    (pn.lo = pn.hi → pn.seq.length = (treeIds input a m).count pn.lo ∧ ∀ c ∈ pn.seq, c = pn.lo)

/-! The whole machine. -/

/-- Every command reports the first check of its rule that fails, and that alone: CODE, STICKY and RES change and
nothing else; with no failing check it completes OK (60_exceptions.md R202, R203, 40_sys.md to 44_wavelet.md). -/
def Obligations.FirstFailingCheckIsReported : Prop :=
  ∀ (i : Instr) (s : State), ∃ t, exec i s = .next t ∧
    match firstFailure i s with
    | some c => Failed s t c
    | none => t.code = .ok

/-- A command that completes with a code other than OK changes no array, dictionary, node, USED, OP0 or OP1, and sets
STICKY, and RES to SENTINEL (60_exceptions.md R203); so does the step that takes the CMD write, legal or not, whose queue
has moved on (the queue is the model's, notes/assumptions/1.md). -/
def Obligations.FailedCommandsChangeNothing : Prop :=
  (∀ (data : Word) (s t : State), issue data s = .next t → t.code ≠ .ok → Failed (s.latchCmd data) t t.code) ∧
  ∀ (data : Word) (rest : List HostAction) (s t : State), s.hostQueue = .write .cmd data :: rest →
    step s = .next t → t.code ≠ .ok → Failed { s with hostQueue := rest, cmd := data.setWidth 32 } t t.code

/-- A command completes OK or with a code its row of 60_exceptions.md R201 marks, E_SLOT at decode included; E_ILLEGAL
comes from the decoder alone. -/
def Obligations.CodesOfEachCommand : Prop :=
  ∀ (i : Instr) (s t : State), exec i s = .next t → t.code = .ok ∨ t.code ∈ failureCodes i

/-- STICKY is set by every command that completes with a code other than OK, cleared by SYS.CLRERR and SYS.RESET, and
kept by every other command that completes OK (10_state.md R30). -/
def Obligations.StickyFollowsTheCode : Prop :=
  ∀ (i : Instr) (s t : State), exec i s = .next t →
    (t.code ≠ .ok → t.sticky = true) ∧
    ((i = .sysClrerr ∨ i = .sysReset) → t.sticky = false) ∧
    (t.code = .ok → i ≠ .sysClrerr → i ≠ .sysReset → t.sticky = s.sticky)

/-- No command but SYS.RESET modifies OP0 or OP1, and none changes CMD, NSLOT or MEM_BYTES (30_encoding.md R83,
10_state.md R21, R29); that none changes hostQueue or hostReads is the model's choice (notes/assumptions/1.md), since both
are the model's own fields. -/
def Obligations.OnlySysResetChangesOperands : Prop :=
  ∀ (i : Instr) (s t : State), exec i s = .next t →
    (i ≠ .sysReset → t.op0 = s.op0 ∧ t.op1 = s.op1) ∧ t.cmd = s.cmd ∧ t.config = s.config ∧
      t.hostQueue = s.hostQueue ∧ t.hostReads = s.hostReads

/-- The commands that only read change no array, dictionary, node or USED, and read alike when repeated
(20_memory.md R56). -/
def Obligations.QueriesChangeNoData : Prop :=
  ∀ (i : Instr) (s t : State), isQuery i = true → exec i s = .next t →
    t.slots = s.slots ∧ t.used = s.used ∧ ∃ u, exec i t = .next u ∧ u.res = t.res ∧ u.code = t.code

/-- No BA command changes a locked array, a table, a dictionary or a node, in any slot (60_exceptions.md R211,
10_state.md R24, R26, R27). -/
def Obligations.BaCommandsKeepLockedObjects : Prop :=
  ∀ (i : Instr) (s t : State), isBa i = true → exec i s = .next t →
    ∀ j, (t.slot j).node = (s.slot j).node ∧ (t.slot j).rankDict = (s.slot j).rankDict ∧
      ∀ r, (s.slot j).locked r = true →
        (t.slot j).arr r = (s.slot j).arr r ∧ ∀ b, t.readByte j r b = s.readByte j r b

/-- A command on one slot outside the WT family leaves every other slot as it was, byte by byte (41_bitarray.md,
42_rank.md, 43_select.md: each rule writes A(k,r) and RD(k) of its own slot only). -/
def Obligations.SlotCommandsTouchOneSlot : Prop :=
  ∀ (i : Instr) (k : SlotNum) (s t : State), i.slot? = some k → i.opcode < 0x40 → exec i s = .next t →
    SameSlotsBut (· = k.toNat) s t

/-- Whatever the parameters, the state after reset meets the storage, dictionary and tree invariants (10_state.md R31,
R36). -/
def Obligations.ResetMeetsTheInvariants : Prop :=
  ∀ c : Config, c.ok = true → SpuInv (State.resetWith c)

/-- Every step keeps the storage invariant: canonical storage and slot file, pad bits 0, no array beyond NSLOT, tables
exactly where a dictionary is, USED the sum of all bytes and at most MEM_BYTES (10_state.md R25, R28, R31). -/
def Obligations.StepKeepsStorageInv : Prop :=
  ∀ s t : State, StorageInv s → step s = .next t → StorageInv t

/-- Every step keeps every valid dictionary equal to the one built over the slot's current bits (10_state.md R31 item 1,
70_reset_and_hazards.md R243). -/
def Obligations.StepKeepsDictionaries : Prop :=
  ∀ s t : State, DictInv s → step s = .next t → DictInv t

/-- Every step keeps every tree as built, and every valid node within the run of its root (10_state.md R27, R31 item 3,
44_wavelet.md R170). -/
def Obligations.StepKeepsTrees : Prop :=
  ∀ s t : State, TreeInv s → step s = .next t → TreeInv t

/-- The four items of 10_state.md R31, in its own words, hold of every state that meets the invariants. -/
def Obligations.InvariantsGiveTheItemsOfR31 : Prop :=
  ∀ s : State, SpuInv s →
    (∀ k d, (s.slot k).rankDict = some d → ∃ b sbt blt, (s.slot k).partitionBits = some b ∧
      (s.slot k).superblockTable = some sbt ∧ (s.slot k).blockTable = some blt ∧ d.n = b.bitCount ∧
      2 ≤ b.len ∧ d.sizes = sizeParams b.len ∧ TablesCount b (sizeParams b.len) sbt blt) ∧
    (∀ k, (s.slot k).superblockTable.isSome = (s.slot k).blockTable.isSome ∧
      (s.slot k).blockTable.isSome = (s.slot k).rankDict.isSome) ∧
    (∀ k nd, (s.slot k).node = some nd → ∃ p, (s.slot k).partitionBits = some p ∧
      (s.slot k).symbols.isSome = true ∧
      (nd.alphabetLow ≠ nd.alphabetHigh → (s.slot k).rankDict.isSome = true ∧ p.bitCount = nd.seqLen ∧
        ∃ l r, nd.left = some l ∧ nd.right = some r ∧ (s.slot l.toNat).node.isSome = true ∧
          (s.slot r.toNat).node.isSome = true) ∧
      (nd.alphabetLow = nd.alphabetHigh → p.bitCount = 0 ∧ (s.slot k).rankDict = none)) ∧
    s.used.toNat ≤ s.config.memBytes

/-- Two trees of one state share no slot (44_wavelet.md R172: trees coexist on runs that do not overlap). -/
def Obligations.TreesDoNotOverlap : Prop :=
  ∀ (s : State) (k k' a a' m m' : Nat) (input input' : BitArray), s.config.ok = true →
    TreeOver s k a m input → TreeOver s k' a' m' input' → k ≠ k' →
    k + 2 * a - 2 < k' ∨ k' + 2 * a' - 2 < k
end

