-- ==== Sys2Proof/Laws/Sparse.lean ====
section
/-!
SUPPORT. Laws/Sparse.lean: the laws of the sparse table: a read after a write, the canonical form, and that equal reads
mean equal tables.
-/

namespace Sys2Proof.Machine

variable {α : Type} [DecidableEq α] {d : α}

theorem sparseWf_mono {l : List (Nat × α)} {lo hi : Nat} (h : sparseWf d hi l = true) (hle : lo ≤ hi) :
    sparseWf d lo l = true := by
  cases l with
  | nil => rfl
  | cons e rest =>
    simp only [sparseWf, Bool.and_eq_true, decide_eq_true_eq] at h ⊢
    exact ⟨⟨hle.trans h.1.1, h.1.2⟩, h.2⟩

/-- Nothing is listed below the bound of a canonical table. -/
theorem sparseRead_below {l : List (Nat × α)} {lo x : Nat} (h : sparseWf d lo l = true) (hx : x < lo) :
    sparseRead d l x = d := by
  induction l generalizing lo with
  | nil => rfl
  | cons e rest ih =>
    simp only [sparseWf, Bool.and_eq_true, decide_eq_true_eq] at h
    have hne : x ≠ e.1 := by omega
    simp only [sparseRead, hne, if_false]
    exact ih h.2 (by omega)

omit [DecidableEq α] in
theorem sparseRead_drop_self (l : List (Nat × α)) (x : Nat) : sparseRead d (sparseDrop x l) x = d := by
  induction l with
  | nil => rfl
  | cons e rest ih =>
    simp only [sparseDrop]
    split
    · exact ih
    · next h => simp only [sparseRead, h, if_false, ih]

omit [DecidableEq α] in
theorem sparseRead_drop_ne (l : List (Nat × α)) {x y : Nat} (h : y ≠ x) :
    sparseRead d (sparseDrop x l) y = sparseRead d l y := by
  induction l with
  | nil => rfl
  | cons e rest ih =>
    simp only [sparseDrop]
    split
    · next hx => simp only [sparseRead, ← hx, h, if_false, ih]
    · simp only [sparseRead, ih]

omit [DecidableEq α] in
theorem sparseRead_insert_drop_self (l : List (Nat × α)) (x : Nat) (v : α) :
    sparseRead d (sparseInsert x v (sparseDrop x l)) x = v := by
  induction l with
  | nil => simp [sparseDrop, sparseInsert, sparseRead]
  | cons e rest ih =>
    simp only [sparseDrop]
    split
    · exact ih
    · next h =>
      simp only [sparseInsert]
      split
      · simp [sparseRead]
      · simp only [sparseRead, h, if_false, ih]

omit [DecidableEq α] in
theorem sparseRead_insert_ne (l : List (Nat × α)) {x y : Nat} (v : α) (h : y ≠ x) :
    sparseRead d (sparseInsert x v l) y = sparseRead d l y := by
  induction l with
  | nil => simp [sparseInsert, sparseRead, h]
  | cons e rest ih =>
    simp only [sparseInsert]
    split
    · simp [sparseRead, h]
    · simp only [sparseRead, ih]

/-- What a table reads as after a write, whatever its form. -/
theorem sparseRead_write (l : List (Nat × α)) (x : Nat) (v : α) (y : Nat) :
    sparseRead d (sparseWrite d l x v) y = if y = x then v else sparseRead d l y := by
  unfold sparseWrite
  by_cases hy : y = x
  · subst hy
    by_cases hv : v = d
    · simp [hv, sparseRead_drop_self]
    · simp [hv, sparseRead_insert_drop_self]
  · by_cases hv : v = d
    · simp [hv, hy, sparseRead_drop_ne l hy]
    · simp [hv, hy, sparseRead_insert_ne _ v hy, sparseRead_drop_ne l hy]

@[simp] theorem sparseRead_write_self (l : List (Nat × α)) (x : Nat) (v : α) :
    sparseRead d (sparseWrite d l x v) x = v := by
  rw [sparseRead_write, if_pos rfl]

theorem sparseRead_write_ne (l : List (Nat × α)) (x : Nat) (v : α) {y : Nat} (h : y ≠ x) :
    sparseRead d (sparseWrite d l x v) y = sparseRead d l y := by
  rw [sparseRead_write, if_neg h]

theorem sparseWf_drop {l : List (Nat × α)} {lo : Nat} (h : sparseWf d lo l = true) (x : Nat) :
    sparseWf d lo (sparseDrop x l) = true := by
  induction l generalizing lo with
  | nil => rfl
  | cons e rest ih =>
    simp only [sparseWf, Bool.and_eq_true, decide_eq_true_eq] at h
    simp only [sparseDrop]
    split
    · exact sparseWf_mono (ih h.2) (by omega)
    · simp only [sparseWf, Bool.and_eq_true, decide_eq_true_eq]
      exact ⟨h.1, ih h.2⟩

theorem sparseWf_insert_drop {l : List (Nat × α)} {lo : Nat} (h : sparseWf d lo l = true) {x : Nat} (hx : lo ≤ x)
    {v : α} (hv : v ≠ d) : sparseWf d lo (sparseInsert x v (sparseDrop x l)) = true := by
  induction l generalizing lo with
  | nil => simp [sparseDrop, sparseInsert, sparseWf, hx, hv]
  | cons e rest ih =>
    obtain ⟨a, b⟩ := e
    have h0 := h
    simp only [sparseWf, Bool.and_eq_true, decide_eq_true_eq] at h
    simp only [sparseDrop]
    split
    · exact ih (sparseWf_mono h.2 (by omega)) hx
    · next hne =>
      simp only [sparseInsert]
      split
      · next hlt =>
        simp only [sparseWf, Bool.and_eq_true, decide_eq_true_eq]
        exact ⟨⟨hx, hv⟩, ⟨⟨by omega, h.1.2⟩, sparseWf_drop h.2 x⟩⟩
      · simp only [sparseWf, Bool.and_eq_true, decide_eq_true_eq]
        exact ⟨h.1, ih h.2 (by omega)⟩

/-- A write keeps the canonical form. -/
theorem sparseWf_write {l : List (Nat × α)} (h : sparseWf d 0 l = true) (x : Nat) (v : α) :
    sparseWf d 0 (sparseWrite d l x v) = true := by
  unfold sparseWrite
  split
  · exact sparseWf_drop h x
  · next hv => exact sparseWf_insert_drop h (Nat.zero_le x) hv

/-- Canonical tables that read alike are equal. -/
theorem sparse_ext {l m : List (Nat × α)} {lo : Nat} (hl : sparseWf d lo l = true) (hm : sparseWf d lo m = true)
    (h : ∀ x, sparseRead d l x = sparseRead d m x) : l = m := by
  induction l generalizing m lo with
  | nil =>
    cases m with
    | nil => rfl
    | cons e rest =>
      simp only [sparseWf, Bool.and_eq_true, decide_eq_true_eq] at hm
      exact absurd (by simpa [sparseRead] using (h e.1).symm) hm.1.2
  | cons e rest ih =>
    obtain ⟨a, b⟩ := e
    have hl0 := hl
    simp only [sparseWf, Bool.and_eq_true, decide_eq_true_eq] at hl
    cases m with
    | nil => exact absurd (by simpa [sparseRead] using h a) hl.1.2
    | cons e' rest' =>
      obtain ⟨a', b'⟩ := e'
      have hm0 := hm
      simp only [sparseWf, Bool.and_eq_true, decide_eq_true_eq] at hm
      have haa : a = a' := by
        rcases Nat.lt_trichotomy a a' with hlt | heq | hgt
        · have := h a
          rw [show sparseRead d ((a', b') :: rest') a = d by
            have hne : a ≠ a' := by omega
            simp only [sparseRead, hne, if_false]; exact sparseRead_below hm.2 (by omega)] at this
          exact absurd (by simpa [sparseRead] using this) hl.1.2
        · exact heq
        · have := h a'
          rw [show sparseRead d ((a, b) :: rest) a' = d by
            have hne : a' ≠ a := by omega
            simp only [sparseRead, hne, if_false]; exact sparseRead_below hl.2 (by omega)] at this
          exact absurd (by simpa [sparseRead] using this.symm) hm.1.2
      subst haa
      have hbb : b = b' := by simpa [sparseRead] using h a
      subst hbb
      congr 1
      refine ih hl.2 hm.2 fun x => ?_
      by_cases hx : x = a
      · subst hx; rw [sparseRead_below hl.2 (by omega), sparseRead_below hm.2 (by omega)]
      · simpa [sparseRead, hx] using h x

/-- What a listed entry reads as. -/
theorem sparseRead_of_mem {l : List (Nat × α)} {lo : Nat} (h : sparseWf d lo l = true) {x : Nat} {v : α}
    (hm : (x, v) ∈ l) : sparseRead d l x = v := by
  induction l generalizing lo with
  | nil => cases hm
  | cons e rest ih =>
    obtain ⟨a, b⟩ := e
    simp only [sparseWf, Bool.and_eq_true, decide_eq_true_eq] at h
    rcases List.mem_cons.mp hm with heq | hin
    · obtain ⟨rfl, rfl⟩ := Prod.mk.injEq .. ▸ heq
      simp [sparseRead]
    · have := ih h.2 hin
      by_cases hxa : x = a
      · subst hxa
        rw [sparseRead_below h.2 (by omega)] at this
        have hmem : ∀ (l : List (Nat × α)) lo, sparseWf d lo l = true → (x, v) ∈ l → v ≠ d := by
          intro l
          induction l with
          | nil => intro _ _ hh; cases hh
          | cons e rest ih2 =>
            intro lo hw hh
            simp only [sparseWf, Bool.and_eq_true, decide_eq_true_eq] at hw
            rcases List.mem_cons.mp hh with h1 | h1
            · rw [← h1] at hw; exact hw.1.2
            · exact ih2 _ hw.2 h1
        exact absurd this.symm (hmem rest _ h.2 hin)
      · simpa [sparseRead, hxa] using this

end Sys2Proof.Machine
end

