-- ==== Sys2Proof/Laws/Memory.lean ====
section
/-!
SUPPORT. Laws/Memory.lean: what the array accesses do, once: bytes, bits, packed integers, packing, counting, and that
each keeps the storage's canonical form.
-/

namespace Sys2Proof.Machine

/-! Bytes. -/

theorem Memory.read_write (m : Memory) (x : Nat) (v : Byte) (y : Nat) :
    (m.write x v).read y = if y = x then v else m.read y := sparseRead_write m x v y

theorem Memory.wf_write {m : Memory} (h : m.wf = true) (x : Nat) (v : Byte) : (m.write x v).wf = true :=
  sparseWf_write h x v

@[simp] theorem BitArray.writeByte_bitCount (a : BitArray) (x : Nat) (v : Byte) :
    (a.writeByte x v).bitCount = a.bitCount := rfl

@[simp] theorem BitArray.writeByte_len (a : BitArray) (x : Nat) (v : Byte) : (a.writeByte x v).len = a.len := rfl

theorem BitArray.readByte_writeByte (a : BitArray) (x : Nat) (v : Byte) (y : Nat) :
    (a.writeByte x v).readByte y = if y = x then v else a.readByte y := Memory.read_write a.storage x v y

@[simp] theorem BitArray.zeros_readByte (n b : Nat) : (BitArray.zeros n).readByte b = 0 := rfl

theorem BitArray.zeros_len {n : Nat} (h : n < 2 ^ 64) : (BitArray.zeros n).len = n := by
  simp only [BitArray.len, BitArray.zeros, BitVec.toNat_ofNat]
  exact Nat.mod_eq_of_lt h

/-! Bits. -/

theorem BitArray.bit_eq_testBit (a : BitArray) (i : Nat) :
    a.bit i = ((a.readByte (i / 8)).toNat.testBit (i % 8)).toNat := by
  rw [BitArray.bit, Nat.testBit_eq_decide_div_mod_eq]
  rcases Nat.mod_two_eq_zero_or_one ((a.readByte (i / 8)).toNat / 2 ^ (i % 8)) with h | h <;> simp [h]

theorem BitArray.bit_lt_two (a : BitArray) (i : Nat) : a.bit i < 2 := Nat.mod_lt _ (by decide)

@[simp] theorem BitArray.zeros_bit (n i : Nat) : (BitArray.zeros n).bit i = 0 := by
  simp [BitArray.bit]

theorem BitArray.bit_writeByte (a : BitArray) (x : Nat) (v : Byte) (j : Nat) :
    (a.writeByte x v).bit j = if j / 8 = x then (v.toNat.testBit (j % 8)).toNat else a.bit j := by
  rw [BitArray.bit_eq_testBit, BitArray.readByte_writeByte]
  split
  · rfl
  · rw [BitArray.bit_eq_testBit]

@[simp] theorem BitArray.setBit_len (a : BitArray) (i : Nat) : (a.setBit i).len = a.len := rfl
@[simp] theorem BitArray.clearBit_len (a : BitArray) (i : Nat) : (a.clearBit i).len = a.len := rfl
@[simp] theorem BitArray.putBit_len (a : BitArray) (i v : Nat) : (a.putBit i v).len = a.len := by
  unfold BitArray.putBit; split <;> rfl
@[simp] theorem BitArray.putBit_bitCount (a : BitArray) (i v : Nat) : (a.putBit i v).bitCount = a.bitCount := by
  unfold BitArray.putBit; split <;> rfl

theorem BitArray.bit_setBit (a : BitArray) (i j : Nat) : (a.setBit i).bit j = if j = i then 1 else a.bit j := by
  have h8 : i % 8 < 8 := Nat.mod_lt _ (by decide)
  have hp : 2 ^ (i % 8) < 2 ^ 8 := Nat.pow_lt_pow_right (by decide) h8
  rw [BitArray.setBit, BitArray.bit_writeByte]
  by_cases hj : j / 8 = i / 8
  · rw [if_pos hj, BitVec.toNat_or, BitVec.toNat_ofNat, Nat.mod_eq_of_lt hp, Nat.testBit_or, Nat.testBit_two_pow]
    by_cases hm : j = i
    · simp [hm]
    · have : i % 8 ≠ j % 8 := by omega
      rw [if_neg hm, BitArray.bit_eq_testBit, hj]
      simp [this]
  · have hm : j ≠ i := by rintro rfl; exact hj rfl
    rw [if_neg hj, if_neg hm]

theorem BitArray.bit_clearBit (a : BitArray) (i j : Nat) : (a.clearBit i).bit j = if j = i then 0 else a.bit j := by
  have h8 : i % 8 < 8 := Nat.mod_lt _ (by decide)
  have h8j : j % 8 < 8 := Nat.mod_lt _ (by decide)
  have hlt : 255 - 2 ^ (i % 8) < 2 ^ 8 := Nat.lt_of_le_of_lt (Nat.sub_le _ _) (by decide)
  have hmask : ∀ p, p < 8 → ∀ q, q < 8 → (255 - 2 ^ p).testBit q = !decide (p = q) := by decide
  rw [BitArray.clearBit, BitArray.bit_writeByte]
  by_cases hj : j / 8 = i / 8
  · rw [if_pos hj, BitVec.toNat_and, BitVec.toNat_ofNat, Nat.mod_eq_of_lt hlt, Nat.testBit_and,
      hmask _ h8 _ h8j]
    by_cases hm : j = i
    · simp [hm]
    · have : i % 8 ≠ j % 8 := by omega
      rw [if_neg hm, BitArray.bit_eq_testBit, hj]
      simp [this]
  · have hm : j ≠ i := by rintro rfl; exact hj rfl
    rw [if_neg hj, if_neg hm]

theorem BitArray.bit_putBit (a : BitArray) (i v j : Nat) :
    (a.putBit i v).bit j = if j = i then v % 2 else a.bit j := by
  unfold BitArray.putBit
  split
  · next h => rw [BitArray.bit_setBit, h]
  · next h => rw [BitArray.bit_clearBit, show v % 2 = 0 by omega]

theorem BitArray.readByte_putBit_ne (a : BitArray) (i v : Nat) {b : Nat} (h : b ≠ i / 8) :
    (a.putBit i v).readByte b = a.readByte b := by
  unfold BitArray.putBit
  split <;> simp [BitArray.setBit, BitArray.clearBit, BitArray.readByte_writeByte, h]

/-! Packed integers (20_memory.md R52, R53). -/

@[simp] theorem BitArray.setInt_len (a : BitArray) (off w v : Nat) : (a.setInt off w v).len = a.len := by
  induction w with
  | zero => rfl
  | succ w ih => simp [BitArray.setInt, ih]

@[simp] theorem BitArray.setInt_bitCount (a : BitArray) (off w v : Nat) :
    (a.setInt off w v).bitCount = a.bitCount := by
  induction w with
  | zero => rfl
  | succ w ih => simp [BitArray.setInt, ih]

/-- What every bit is after `SetInt`. -/
theorem BitArray.bit_setInt (a : BitArray) (off w v j : Nat) :
    (a.setInt off w v).bit j = if off ≤ j ∧ j < off + w then v / 2 ^ (j - off) % 2 else a.bit j := by
  induction w with
  | zero =>
    have : ¬(off ≤ j ∧ j < off + 0) := by omega
    rw [if_neg this]; rfl
  | succ w ih =>
    rw [BitArray.setInt, BitArray.bit_putBit, ih]
    by_cases hj : j = off + w
    · subst hj; simp
    · rw [if_neg hj]
      by_cases hr : off ≤ j ∧ j < off + w
      · rw [if_pos hr, if_pos (by omega)]
      · rw [if_neg hr, if_neg (by omega)]

/-- A byte that `SetInt` does not touch. -/
theorem BitArray.readByte_setInt (a : BitArray) (off w v b : Nat)
    (h : ∀ i, off ≤ i → i < off + w → i / 8 ≠ b) : (a.setInt off w v).readByte b = a.readByte b := by
  induction w with
  | zero => rfl
  | succ w ih =>
    rw [BitArray.setInt, BitArray.readByte_putBit_ne _ _ _ (h (off + w) (by omega) (by omega)).symm]
    exact ih fun i h1 h2 => h i h1 (by omega)

theorem BitArray.getInt_lt (a : BitArray) (off w : Nat) : a.getInt off w < 2 ^ w := by
  induction w with
  | zero => simp [BitArray.getInt]
  | succ w ih =>
    have hb := a.bit_lt_two (off + w)
    have : a.bit (off + w) * 2 ^ w ≤ 1 * 2 ^ w := Nat.mul_le_mul_right _ (by omega)
    rw [BitArray.getInt, Nat.pow_succ]
    omega

/-- `GetInt` depends on the bits it reads only. -/
theorem BitArray.getInt_congr {a b : BitArray} {off w : Nat}
    (h : ∀ j, off ≤ j → j < off + w → a.bit j = b.bit j) : a.getInt off w = b.getInt off w := by
  induction w with
  | zero => rfl
  | succ w ih =>
    rw [BitArray.getInt, BitArray.getInt, ih fun j h1 h2 => h j h1 (by omega),
      h (off + w) (by omega) (by omega)]

/-- `GetInt` reads back what `SetInt` wrote there, cut to the width. -/
theorem BitArray.getInt_of_bits {a : BitArray} {off w v : Nat}
    (h : ∀ j, j < w → a.bit (off + j) = v / 2 ^ j % 2) : a.getInt off w = v % 2 ^ w := by
  induction w with
  | zero => simp [BitArray.getInt, Nat.mod_one]
  | succ w ih =>
    rw [BitArray.getInt, ih fun j hj => h j (by omega), h w (by omega), Nat.pow_succ, Nat.mod_mul]
    ring

theorem BitArray.getInt_setInt_self (a : BitArray) (off w v : Nat) :
    (a.setInt off w v).getInt off w = v % 2 ^ w := by
  refine BitArray.getInt_of_bits fun j hj => ?_
  rw [BitArray.bit_setInt, if_pos (by omega)]
  congr 2; congr 1; omega

theorem BitArray.getInt_setInt_disjoint (a : BitArray) {off w v off' w' : Nat}
    (h : off' + w' ≤ off ∨ off + w ≤ off') : (a.setInt off w v).getInt off' w' = a.getInt off' w' := by
  refine BitArray.getInt_congr fun j h1 h2 => ?_
  rw [BitArray.bit_setInt, if_neg (by omega)]

@[simp] theorem BitArray.zeros_getInt (n off w : Nat) : (BitArray.zeros n).getInt off w = 0 := by
  induction w with
  | zero => rfl
  | succ w ih => simp [BitArray.getInt, ih]

/-! Canonical form. -/

theorem BitArray.wf_putBit {a : BitArray} (h : Memory.wf a.storage = true) (i v : Nat) :
    Memory.wf (a.putBit i v).storage = true := by
  unfold BitArray.putBit
  split <;> exact Memory.wf_write h _ _

theorem BitArray.wf_setInt {a : BitArray} (h : Memory.wf a.storage = true) (off w v : Nat) :
    Memory.wf (a.setInt off w v).storage = true := by
  induction w with
  | zero => exact h
  | succ w ih => exact BitArray.wf_putBit ih _ _

theorem BitArray.wf_packFrom {a : BitArray} (h : Memory.wf a.storage = true) (w t : Nat) (vals : List Nat) :
    Memory.wf (BitArray.packFrom w t vals a).storage = true := by
  induction vals generalizing t a with
  | nil => exact h
  | cons v vals ih => exact ih (BitArray.wf_setInt h _ _ _) _

theorem BitArray.wf_pack (w : Nat) (vals : List Nat) : Memory.wf (BitArray.pack w vals).storage = true :=
  BitArray.wf_packFrom rfl _ _ _

/-! Packing (44_wavelet.md R171, R174). -/

@[simp] theorem BitArray.packFrom_len (w t : Nat) (vals : List Nat) (a : BitArray) :
    (BitArray.packFrom w t vals a).len = a.len := by
  induction vals generalizing t a with
  | nil => rfl
  | cons v vals ih => rw [BitArray.packFrom, ih, BitArray.setInt_len]

theorem BitArray.pack_len {w : Nat} {vals : List Nat} (h : vals.length * w < 2 ^ 64) :
    (BitArray.pack w vals).len = vals.length * w := by
  rw [BitArray.pack, BitArray.packFrom_len, BitArray.zeros_len h]

/-- What every element is after packing from element `t` on. -/
theorem BitArray.getInt_packFrom (w t : Nat) (vals : List Nat) (a : BitArray) (i : Nat) :
    (BitArray.packFrom w t vals a).getInt (i * w) w
      = if h : t ≤ i ∧ i - t < vals.length then vals[i - t]'h.2 % 2 ^ w else a.getInt (i * w) w := by
  induction vals generalizing t a with
  | nil => simp [BitArray.packFrom]
  | cons v vals ih =>
    rw [BitArray.packFrom, ih]
    by_cases hi : i = t
    · subst hi
      rw [dif_neg (by omega), dif_pos (by simp)]
      simp [BitArray.getInt_setInt_self]
    · have hdis : i * w + w ≤ t * w ∨ t * w + w ≤ i * w := by
        rcases Nat.lt_or_gt_of_ne hi with h | h
        · left; calc i * w + w = (i + 1) * w := by ring
            _ ≤ t * w := Nat.mul_le_mul_right _ h
        · right; calc t * w + w = (t + 1) * w := by ring
            _ ≤ i * w := Nat.mul_le_mul_right _ h
      by_cases h : t + 1 ≤ i ∧ i - (t + 1) < vals.length
      · have h' : t ≤ i ∧ i - t < (v :: vals).length := by simp only [List.length_cons]; omega
        rw [dif_pos h, dif_pos h']
        have : i - t = (i - (t + 1)) + 1 := by omega
        simp only [this, List.getElem_cons_succ]
      · have h' : ¬(t ≤ i ∧ i - t < (v :: vals).length) := by simp only [List.length_cons]; omega
        rw [dif_neg h, dif_neg h', BitArray.getInt_setInt_disjoint a hdis]

theorem BitArray.getInt_pack {w : Nat} {vals : List Nat} {i : Nat} (h : i < vals.length) :
    (BitArray.pack w vals).getInt (i * w) w = vals[i] % 2 ^ w := by
  rw [BitArray.pack, BitArray.getInt_packFrom, dif_pos (by omega)]
  simp

theorem BitArray.bit_packFrom_above (w t : Nat) (vals : List Nat) (a : BitArray) {i : Nat}
    (h : (t + vals.length) * w ≤ i) : (BitArray.packFrom w t vals a).bit i = a.bit i := by
  induction vals generalizing t a with
  | nil => rfl
  | cons v vals ih =>
    have h1 : (t + 1 + vals.length) * w ≤ i := by
      simpa [Nat.add_assoc, Nat.add_comm 1] using h
    have h2 : t * w + w ≤ i := by
      have : (t + 1) * w ≤ (t + 1 + vals.length) * w := Nat.mul_le_mul_right _ (by omega)
      calc t * w + w = (t + 1) * w := by ring
        _ ≤ i := this.trans h1
    rw [BitArray.packFrom, ih (t + 1) _ h1, BitArray.bit_setInt, if_neg (by omega)]

theorem BitArray.bit_pack_above {w : Nat} {vals : List Nat} {i : Nat} (h : vals.length * w ≤ i) :
    (BitArray.pack w vals).bit i = 0 := by
  rw [BitArray.pack, BitArray.bit_packFrom_above w 0 vals _ (by simpa using h), BitArray.zeros_bit]

/-! Counting 1 bits. -/

theorem BitArray.ones_le (a : BitArray) (start cnt : Nat) : a.ones start cnt ≤ cnt := by
  induction cnt with
  | zero => simp [BitArray.ones]
  | succ cnt ih =>
    have := a.bit_lt_two (start + cnt)
    rw [BitArray.ones]; omega

theorem BitArray.ones_add (a : BitArray) (start c d : Nat) :
    a.ones start (c + d) = a.ones start c + a.ones (start + c) d := by
  induction d with
  | zero => simp [BitArray.ones]
  | succ d ih => rw [← Nat.add_assoc, BitArray.ones, ih, BitArray.ones, Nat.add_assoc start c d]; omega

theorem BitArray.ones_mono (a : BitArray) (start : Nat) {c d : Nat} (h : c ≤ d) :
    a.ones start c ≤ a.ones start d := by
  obtain ⟨e, rfl⟩ := Nat.exists_eq_add_of_le h
  rw [BitArray.ones_add]; omega

theorem BitArray.ones_congr {a b : BitArray} {start cnt : Nat}
    (h : ∀ j, start ≤ j → j < start + cnt → a.bit j = b.bit j) : a.ones start cnt = b.ones start cnt := by
  induction cnt with
  | zero => rfl
  | succ cnt ih =>
    rw [BitArray.ones, BitArray.ones, ih fun j h1 h2 => h j h1 (by omega), h _ (by omega) (by omega)]

end Sys2Proof.Machine
end

