-- ==== Sys2Proof/Laws/Arith.lean ====
section
/-!
SUPPORT. Laws/Arith.lean: bit lengths, ceilings and the popcount of a read.
-/

namespace Sys2Proof.Machine

@[simp] theorem bitLen_zero : bitLen 0 = 0 := rfl

/-- A number is below `2^bitlen`. -/
theorem lt_two_pow_bitLen (v : Nat) : v < 2 ^ bitLen v := by
  unfold bitLen
  split
  · next h => simp [h]
  · exact Nat.lt_log2_self

/-- `bitlen` is the least such width. -/
theorem bitLen_le_of_lt {v w : Nat} (h : v < 2 ^ w) : bitLen v ≤ w := by
  unfold bitLen
  split
  · omega
  · next hv => exact (Nat.log2_lt hv).mpr h

theorem bitLen_pos {v : Nat} (h : 0 < v) : 0 < bitLen v := by
  unfold bitLen
  rw [if_neg (by omega)]
  omega

theorem bitLen_mono {v w : Nat} (h : v ≤ w) : bitLen v ≤ bitLen w :=
  bitLen_le_of_lt (lt_of_le_of_lt h (lt_two_pow_bitLen w))

/-- `ceil(a/b)` is the least number whose product with `b` reaches `a`. -/
theorem le_ceilDiv_mul {a b : Nat} (hb : 0 < b) : a ≤ ceilDiv a b * b := by
  unfold ceilDiv
  have h1 := Nat.div_add_mod (a + b - 1) b
  have h2 := Nat.mod_lt (a + b - 1) hb
  rw [Nat.mul_comm] at h1
  omega

theorem ceilDiv_mul_lt {a b : Nat} (hb : 0 < b) : ceilDiv a b * b < a + b := by
  unfold ceilDiv
  have h1 := Nat.div_mul_le_self (a + b - 1) b
  omega

theorem lt_ceilDiv_of_mul_lt {a b c : Nat} (hb : 0 < b) (h : c * b < a) : c < ceilDiv a b := by
  by_contra hc
  have h1 := le_ceilDiv_mul (a := a) hb
  have h2 : ceilDiv a b * b ≤ c * b := Nat.mul_le_mul_right _ (by omega)
  omega

theorem popcountLow_getInt (a : BitArray) (off w : Nat) :
    popcountLow w (a.getInt off w) = a.ones off w := by
  have key : ∀ w v, popcountLow w v = ((List.range w).map fun j => v / 2 ^ j % 2).sum := by
    intro w
    induction w with
    | zero => intro v; rfl
    | succ w ih =>
      intro v
      rw [popcountLow, ih, List.range_succ_eq_map, List.map_cons, List.map_map, List.sum_cons]
      congr 1
      · simp
      · congr 1
        refine List.map_congr_left fun j _ => ?_
        simp only [Function.comp]
        rw [Nat.pow_succ, Nat.mul_comm, Nat.div_div_eq_div_mul]
  have hbit : ∀ w j, j < w → a.getInt off w / 2 ^ j % 2 = a.bit (off + j) := by
    intro w
    induction w with
    | zero => intro j hj; omega
    | succ w ih =>
      intro j hj
      rw [BitArray.getInt]
      by_cases hjw : j = w
      · subst hjw
        rw [Nat.add_mul_div_right _ _ (Nat.two_pow_pos _), Nat.div_eq_of_lt (a.getInt_lt off j), Nat.zero_add]
        exact Nat.mod_eq_of_lt (a.bit_lt_two _)
      · rw [← ih j (by omega)]
        obtain ⟨e, rfl⟩ := Nat.exists_eq_add_of_lt (show j < w by omega)
        rw [show j + e + 1 = e + 1 + j by omega, Nat.pow_add, ← Nat.mul_assoc,
          Nat.add_mul_div_right _ _ (Nat.two_pow_pos _), Nat.pow_succ, ← Nat.mul_assoc, Nat.add_mul_mod_self_right]
  rw [key]
  induction w with
  | zero => rfl
  | succ w ih =>
    rw [List.range_succ, List.map_append, List.sum_append, BitArray.ones]
    congr 1
    · rw [← ih]
      congr 1
      refine List.map_congr_left fun j hj => ?_
      have hj' := List.mem_range.mp hj
      rw [hbit (w + 1) j (by omega), hbit w j hj']
    · simp [hbit (w + 1) w (by omega)]

theorem popcountLow_eq_of_lt {v w : Nat} (h : v < 2 ^ w) : popcountLow w v = popcount v := by
  have zero : ∀ w, popcountLow w 0 = 0 := by
    intro w
    induction w with
    | zero => rfl
    | succ w ih => simp [popcountLow, ih]
  have step : ∀ w v, v < 2 ^ w → popcountLow (w + 1) v = popcountLow w v := by
    intro w
    induction w with
    | zero =>
      intro v hv
      have : v = 0 := by simpa using hv
      simp [popcountLow, this]
    | succ w ih =>
      intro v hv
      rw [popcountLow, ih (v / 2) (by rw [Nat.pow_succ] at hv; omega), popcountLow]
  have hle := bitLen_le_of_lt h
  obtain ⟨e, he⟩ := Nat.exists_eq_add_of_le hle
  clear h hle
  unfold popcount
  rw [he]
  clear he
  induction e with
  | zero => rfl
  | succ e ih =>
    rw [← ih, ← Nat.add_assoc, step _ _ (lt_of_lt_of_le (lt_two_pow_bitLen v)
      (Nat.pow_le_pow_right (by decide) (by omega)))]

/-- The popcount of a read is the number of 1 bits read (42_rank.md R142). -/
theorem popcount_getInt (a : BitArray) (off w : Nat) : popcount (a.getInt off w) = a.ones off w := by
  rw [← popcountLow_eq_of_lt (a.getInt_lt off w), popcountLow_getInt]

end Sys2Proof.Machine
end

