-- ==== Sys2Proof/Laws/State.lean ====
section
/-!
SUPPORT. Laws/State.lean: one lemma per field per update of State and of Slot, true by unfolding the update once, so that
no later proof unfolds a record update.
-/

namespace Sys2Proof.Machine

/-! `State.fail`. -/

@[simp] theorem State.fail_config (s : State) (c : Status) : (s.fail c).config = s.config := rfl
@[simp] theorem State.fail_op0 (s : State) (c : Status) : (s.fail c).op0 = s.op0 := rfl
@[simp] theorem State.fail_op1 (s : State) (c : Status) : (s.fail c).op1 = s.op1 := rfl
@[simp] theorem State.fail_cmd (s : State) (c : Status) : (s.fail c).cmd = s.cmd := rfl
@[simp] theorem State.fail_res (s : State) (c : Status) : (s.fail c).res = sentinel := rfl
@[simp] theorem State.fail_code (s : State) (c : Status) : (s.fail c).code = c := rfl
@[simp] theorem State.fail_sticky (s : State) (c : Status) : (s.fail c).sticky = true := rfl
@[simp] theorem State.fail_used (s : State) (c : Status) : (s.fail c).used = s.used := rfl
@[simp] theorem State.fail_slots (s : State) (c : Status) : (s.fail c).slots = s.slots := rfl
@[simp] theorem State.fail_hostQueue (s : State) (c : Status) : (s.fail c).hostQueue = s.hostQueue := rfl
@[simp] theorem State.fail_hostReads (s : State) (c : Status) : (s.fail c).hostReads = s.hostReads := rfl
@[simp] theorem State.fail_slot (s : State) (c : Status) (j : Nat) : (s.fail c).slot j = s.slot j := rfl

/-! `State.complete`. -/

@[simp] theorem State.complete_config (s : State) (v : Nat) : (s.complete v).config = s.config := rfl
@[simp] theorem State.complete_op0 (s : State) (v : Nat) : (s.complete v).op0 = s.op0 := rfl
@[simp] theorem State.complete_op1 (s : State) (v : Nat) : (s.complete v).op1 = s.op1 := rfl
@[simp] theorem State.complete_cmd (s : State) (v : Nat) : (s.complete v).cmd = s.cmd := rfl
@[simp] theorem State.complete_res (s : State) (v : Nat) : (s.complete v).res = BitVec.ofNat 64 v := rfl
@[simp] theorem State.complete_code (s : State) (v : Nat) : (s.complete v).code = .ok := rfl
@[simp] theorem State.complete_sticky (s : State) (v : Nat) : (s.complete v).sticky = s.sticky := rfl
@[simp] theorem State.complete_used (s : State) (v : Nat) : (s.complete v).used = s.used := rfl
@[simp] theorem State.complete_slots (s : State) (v : Nat) : (s.complete v).slots = s.slots := rfl
@[simp] theorem State.complete_hostQueue (s : State) (v : Nat) : (s.complete v).hostQueue = s.hostQueue := rfl
@[simp] theorem State.complete_hostReads (s : State) (v : Nat) : (s.complete v).hostReads = s.hostReads := rfl
@[simp] theorem State.complete_slot (s : State) (v : Nat) (j : Nat) : (s.complete v).slot j = s.slot j := rfl

/-! `State.setSlot`. -/

@[simp] theorem State.setSlot_config (s : State) (k : Nat) (sl : Slot) : (s.setSlot k sl).config = s.config := rfl
@[simp] theorem State.setSlot_op0 (s : State) (k : Nat) (sl : Slot) : (s.setSlot k sl).op0 = s.op0 := rfl
@[simp] theorem State.setSlot_op1 (s : State) (k : Nat) (sl : Slot) : (s.setSlot k sl).op1 = s.op1 := rfl
@[simp] theorem State.setSlot_cmd (s : State) (k : Nat) (sl : Slot) : (s.setSlot k sl).cmd = s.cmd := rfl
@[simp] theorem State.setSlot_res (s : State) (k : Nat) (sl : Slot) : (s.setSlot k sl).res = s.res := rfl
@[simp] theorem State.setSlot_code (s : State) (k : Nat) (sl : Slot) : (s.setSlot k sl).code = s.code := rfl
@[simp] theorem State.setSlot_sticky (s : State) (k : Nat) (sl : Slot) : (s.setSlot k sl).sticky = s.sticky := rfl
@[simp] theorem State.setSlot_used (s : State) (k : Nat) (sl : Slot) : (s.setSlot k sl).used = s.used := rfl
@[simp] theorem State.setSlot_slots (s : State) (k : Nat) (sl : Slot) :
    (s.setSlot k sl).slots = sparseWrite Slot.empty s.slots k sl := rfl
@[simp] theorem State.setSlot_hostQueue (s : State) (k : Nat) (sl : Slot) :
    (s.setSlot k sl).hostQueue = s.hostQueue := rfl
@[simp] theorem State.setSlot_hostReads (s : State) (k : Nat) (sl : Slot) :
    (s.setSlot k sl).hostReads = s.hostReads := rfl

/-! `State.setUsed`. -/

@[simp] theorem State.setUsed_config (s : State) (v : Nat) : (s.setUsed v).config = s.config := rfl
@[simp] theorem State.setUsed_op0 (s : State) (v : Nat) : (s.setUsed v).op0 = s.op0 := rfl
@[simp] theorem State.setUsed_op1 (s : State) (v : Nat) : (s.setUsed v).op1 = s.op1 := rfl
@[simp] theorem State.setUsed_cmd (s : State) (v : Nat) : (s.setUsed v).cmd = s.cmd := rfl
@[simp] theorem State.setUsed_res (s : State) (v : Nat) : (s.setUsed v).res = s.res := rfl
@[simp] theorem State.setUsed_code (s : State) (v : Nat) : (s.setUsed v).code = s.code := rfl
@[simp] theorem State.setUsed_sticky (s : State) (v : Nat) : (s.setUsed v).sticky = s.sticky := rfl
@[simp] theorem State.setUsed_used (s : State) (v : Nat) : (s.setUsed v).used = BitVec.ofNat 64 v := rfl
@[simp] theorem State.setUsed_slots (s : State) (v : Nat) : (s.setUsed v).slots = s.slots := rfl
@[simp] theorem State.setUsed_hostQueue (s : State) (v : Nat) : (s.setUsed v).hostQueue = s.hostQueue := rfl
@[simp] theorem State.setUsed_hostReads (s : State) (v : Nat) : (s.setUsed v).hostReads = s.hostReads := rfl
@[simp] theorem State.setUsed_slot (s : State) (v : Nat) (j : Nat) : (s.setUsed v).slot j = s.slot j := rfl

/-! `State.account`. -/

@[simp] theorem State.account_config (s : State) (f a : Nat) : (s.account f a).config = s.config := rfl
@[simp] theorem State.account_op0 (s : State) (f a : Nat) : (s.account f a).op0 = s.op0 := rfl
@[simp] theorem State.account_op1 (s : State) (f a : Nat) : (s.account f a).op1 = s.op1 := rfl
@[simp] theorem State.account_cmd (s : State) (f a : Nat) : (s.account f a).cmd = s.cmd := rfl
@[simp] theorem State.account_res (s : State) (f a : Nat) : (s.account f a).res = s.res := rfl
@[simp] theorem State.account_code (s : State) (f a : Nat) : (s.account f a).code = s.code := rfl
@[simp] theorem State.account_sticky (s : State) (f a : Nat) : (s.account f a).sticky = s.sticky := rfl
@[simp] theorem State.account_used (s : State) (f a : Nat) :
    (s.account f a).used = BitVec.ofNat 64 (s.used.toNat - f + a) := rfl
@[simp] theorem State.account_slots (s : State) (f a : Nat) : (s.account f a).slots = s.slots := rfl
@[simp] theorem State.account_hostQueue (s : State) (f a : Nat) : (s.account f a).hostQueue = s.hostQueue := rfl
@[simp] theorem State.account_hostReads (s : State) (f a : Nat) : (s.account f a).hostReads = s.hostReads := rfl
@[simp] theorem State.account_slot (s : State) (f a : Nat) (j : Nat) : (s.account f a).slot j = s.slot j := rfl

/-! `State.latchCmd`. -/

@[simp] theorem State.latchCmd_config (s : State) (data : Word) : (s.latchCmd data).config = s.config := rfl
@[simp] theorem State.latchCmd_op0 (s : State) (data : Word) : (s.latchCmd data).op0 = s.op0 := rfl
@[simp] theorem State.latchCmd_op1 (s : State) (data : Word) : (s.latchCmd data).op1 = s.op1 := rfl
@[simp] theorem State.latchCmd_cmd (s : State) (data : Word) : (s.latchCmd data).cmd = data.setWidth 32 := rfl
@[simp] theorem State.latchCmd_res (s : State) (data : Word) : (s.latchCmd data).res = s.res := rfl
@[simp] theorem State.latchCmd_code (s : State) (data : Word) : (s.latchCmd data).code = s.code := rfl
@[simp] theorem State.latchCmd_sticky (s : State) (data : Word) : (s.latchCmd data).sticky = s.sticky := rfl
@[simp] theorem State.latchCmd_used (s : State) (data : Word) : (s.latchCmd data).used = s.used := rfl
@[simp] theorem State.latchCmd_slots (s : State) (data : Word) : (s.latchCmd data).slots = s.slots := rfl
@[simp] theorem State.latchCmd_hostQueue (s : State) (data : Word) : (s.latchCmd data).hostQueue = s.hostQueue := rfl
@[simp] theorem State.latchCmd_hostReads (s : State) (data : Word) : (s.latchCmd data).hostReads = s.hostReads := rfl
@[simp] theorem State.latchCmd_slot (s : State) (data : Word) (j : Nat) : (s.latchCmd data).slot j = s.slot j := rfl

/-! `State.hostRead`. -/

@[simp] theorem State.hostRead_config (s : State) (r : HostReg) : (s.hostRead r).config = s.config := rfl
@[simp] theorem State.hostRead_op0 (s : State) (r : HostReg) : (s.hostRead r).op0 = s.op0 := rfl
@[simp] theorem State.hostRead_op1 (s : State) (r : HostReg) : (s.hostRead r).op1 = s.op1 := rfl
@[simp] theorem State.hostRead_cmd (s : State) (r : HostReg) : (s.hostRead r).cmd = s.cmd := rfl
@[simp] theorem State.hostRead_res (s : State) (r : HostReg) : (s.hostRead r).res = s.res := rfl
@[simp] theorem State.hostRead_code (s : State) (r : HostReg) : (s.hostRead r).code = s.code := rfl
@[simp] theorem State.hostRead_sticky (s : State) (r : HostReg) : (s.hostRead r).sticky = s.sticky := rfl
@[simp] theorem State.hostRead_used (s : State) (r : HostReg) : (s.hostRead r).used = s.used := rfl
@[simp] theorem State.hostRead_slots (s : State) (r : HostReg) : (s.hostRead r).slots = s.slots := rfl
@[simp] theorem State.hostRead_hostQueue (s : State) (r : HostReg) : (s.hostRead r).hostQueue = s.hostQueue := rfl
@[simp] theorem State.hostRead_hostReads (s : State) (r : HostReg) :
    (s.hostRead r).hostReads = s.readReg r :: s.hostReads := rfl
@[simp] theorem State.hostRead_slot (s : State) (r : HostReg) (j : Nat) : (s.hostRead r).slot j = s.slot j := rfl

/-! `State.resetData`. -/

@[simp] theorem State.resetData_config (s : State) : (s.resetData).config = s.config := rfl
@[simp] theorem State.resetData_op0 (s : State) : (s.resetData).op0 = 0 := rfl
@[simp] theorem State.resetData_op1 (s : State) : (s.resetData).op1 = 0 := rfl
@[simp] theorem State.resetData_cmd (s : State) : (s.resetData).cmd = s.cmd := rfl
@[simp] theorem State.resetData_res (s : State) : (s.resetData).res = 0 := rfl
@[simp] theorem State.resetData_code (s : State) : (s.resetData).code = .ok := rfl
@[simp] theorem State.resetData_sticky (s : State) : (s.resetData).sticky = false := rfl
@[simp] theorem State.resetData_used (s : State) : (s.resetData).used = 0 := rfl
@[simp] theorem State.resetData_slots (s : State) : (s.resetData).slots = [] := rfl
@[simp] theorem State.resetData_hostQueue (s : State) : (s.resetData).hostQueue = s.hostQueue := rfl
@[simp] theorem State.resetData_hostReads (s : State) : (s.resetData).hostReads = s.hostReads := rfl

/-! `State.hardReset`. -/

@[simp] theorem State.hardReset_config (s : State) : (s.hardReset).config = s.config := rfl
@[simp] theorem State.hardReset_op0 (s : State) : (s.hardReset).op0 = 0 := rfl
@[simp] theorem State.hardReset_op1 (s : State) : (s.hardReset).op1 = 0 := rfl
@[simp] theorem State.hardReset_cmd (s : State) : (s.hardReset).cmd = 0 := rfl
@[simp] theorem State.hardReset_res (s : State) : (s.hardReset).res = 0 := rfl
@[simp] theorem State.hardReset_code (s : State) : (s.hardReset).code = .ok := rfl
@[simp] theorem State.hardReset_sticky (s : State) : (s.hardReset).sticky = false := rfl
@[simp] theorem State.hardReset_used (s : State) : (s.hardReset).used = 0 := rfl
@[simp] theorem State.hardReset_slots (s : State) : (s.hardReset).slots = [] := rfl
@[simp] theorem State.hardReset_hostQueue (s : State) : (s.hardReset).hostQueue = s.hostQueue := rfl
@[simp] theorem State.hardReset_hostReads (s : State) : (s.hardReset).hostReads = s.hostReads := rfl

/-! `State.setArr`. -/

@[simp] theorem State.setArr_config (s : State) (k : Nat) (r : Role) (a : Option BitArray) :
    (s.setArr k r a).config = s.config := rfl
@[simp] theorem State.setArr_op0 (s : State) (k : Nat) (r : Role) (a : Option BitArray) :
    (s.setArr k r a).op0 = s.op0 := rfl
@[simp] theorem State.setArr_op1 (s : State) (k : Nat) (r : Role) (a : Option BitArray) :
    (s.setArr k r a).op1 = s.op1 := rfl
@[simp] theorem State.setArr_cmd (s : State) (k : Nat) (r : Role) (a : Option BitArray) :
    (s.setArr k r a).cmd = s.cmd := rfl
@[simp] theorem State.setArr_res (s : State) (k : Nat) (r : Role) (a : Option BitArray) :
    (s.setArr k r a).res = s.res := rfl
@[simp] theorem State.setArr_code (s : State) (k : Nat) (r : Role) (a : Option BitArray) :
    (s.setArr k r a).code = s.code := rfl
@[simp] theorem State.setArr_sticky (s : State) (k : Nat) (r : Role) (a : Option BitArray) :
    (s.setArr k r a).sticky = s.sticky := rfl
@[simp] theorem State.setArr_used (s : State) (k : Nat) (r : Role) (a : Option BitArray) :
    (s.setArr k r a).used = s.used := rfl
@[simp] theorem State.setArr_hostQueue (s : State) (k : Nat) (r : Role) (a : Option BitArray) :
    (s.setArr k r a).hostQueue = s.hostQueue := rfl
@[simp] theorem State.setArr_hostReads (s : State) (k : Nat) (r : Role) (a : Option BitArray) :
    (s.setArr k r a).hostReads = s.hostReads := rfl

/-! The slot file. -/

theorem State.slot_setSlot (s : State) (k : Nat) (sl : Slot) (j : Nat) :
    (s.setSlot k sl).slot j = if j = k then sl else s.slot j := sparseRead_write s.slots k sl j

@[simp] theorem State.slot_setSlot_self (s : State) (k : Nat) (sl : Slot) : (s.setSlot k sl).slot k = sl := by
  rw [State.slot_setSlot, if_pos rfl]

theorem State.slot_setSlot_ne (s : State) (k : Nat) (sl : Slot) {j : Nat} (h : j ≠ k) :
    (s.setSlot k sl).slot j = s.slot j := by
  rw [State.slot_setSlot, if_neg h]

@[simp] theorem State.resetData_slot (s : State) (j : Nat) : s.resetData.slot j = Slot.empty := rfl
@[simp] theorem State.hardReset_slot (s : State) (j : Nat) : s.hardReset.slot j = Slot.empty := rfl
@[simp] theorem State.resetWith_slot (c : Config) (j : Nat) : (State.resetWith c).slot j = Slot.empty := rfl
@[simp] theorem State.reset_slot (j : Nat) : State.reset.slot j = Slot.empty := rfl

/-! One slot. -/

@[simp] theorem Slot.empty_arr (r : Role) : Slot.empty.arr r = none := by cases r <;> rfl
@[simp] theorem Slot.empty_rankDict : Slot.empty.rankDict = none := rfl
@[simp] theorem Slot.empty_node : Slot.empty.node = none := rfl
@[simp] theorem Slot.empty_bytes : Slot.empty.bytes = 0 := rfl

theorem Slot.arr_setArr (sl : Slot) (r q : Role) (a : Option BitArray) :
    (sl.setArr r a).arr q = if q = r then a else sl.arr q := by cases r <;> cases q <;> rfl

@[simp] theorem Slot.arr_setArr_self (sl : Slot) (r : Role) (a : Option BitArray) : (sl.setArr r a).arr r = a := by
  cases r <;> rfl

@[simp] theorem Slot.setArr_rankDict (sl : Slot) (r : Role) (a : Option BitArray) :
    (sl.setArr r a).rankDict = sl.rankDict := by cases r <;> rfl

@[simp] theorem Slot.setArr_node (sl : Slot) (r : Role) (a : Option BitArray) : (sl.setArr r a).node = sl.node := by
  cases r <;> rfl

theorem Slot.array_of_arr {sl : Slot} {r : Role} {a : BitArray} (h : sl.arr r = some a) : sl.array r = a := by
  rw [Slot.array, h]; rfl

@[simp] theorem Slot.withDict_partitionBits (sl : Slot) (b : BitArray) :
    (sl.withDict b).partitionBits = sl.partitionBits := rfl
@[simp] theorem Slot.withDict_symbols (sl : Slot) (b : BitArray) : (sl.withDict b).symbols = sl.symbols := rfl
@[simp] theorem Slot.withDict_node (sl : Slot) (b : BitArray) : (sl.withDict b).node = sl.node := rfl
@[simp] theorem Slot.withDict_rankDict (sl : Slot) (b : BitArray) :
    (sl.withDict b).rankDict = some (RankDict.ofSizes b.len (sizeParams b.len)) := rfl
@[simp] theorem Slot.withDict_superblockTable (sl : Slot) (b : BitArray) :
    (sl.withDict b).superblockTable = some (buildTables b (sizeParams b.len)).sbt := rfl
@[simp] theorem Slot.withDict_blockTable (sl : Slot) (b : BitArray) :
    (sl.withDict b).blockTable = some (buildTables b (sizeParams b.len)).blt := rfl

/-- Building twice over the same bits is building once. -/
@[simp] theorem Slot.withDict_withDict (sl : Slot) (b : BitArray) : (sl.withDict b).withDict b = sl.withDict b := rfl

end Sys2Proof.Machine
end

