-- ==== Sys2Proof/Laws/Ops.lean ====
section
/-!
SUPPORT. Laws/Ops.lean: what each shared operation over State can do, once: the slot frame of a command, array updates,
clearing a run, building a plan, the canonical form of the slot file, and the sum that USED stands for.
-/

namespace Sys2Proof.Machine

/-! The frame of a slot command. -/

/-- A slot command completes: with E_SLOT where the slot does not exist, else by its own rule (30_encoding.md R85). -/
theorem inSlot_eq (k : SlotNum) (s : State) (rule : Slot → State) :
    inSlot k s rule = .next (if s.config.nslot ≤ k.toNat then s.fail .eSlot else rule (s.slot k.toNat)) := by
  unfold inSlot; split <;> rfl

theorem inSlot_of_lt {k : SlotNum} {s : State} (h : k.toNat < s.config.nslot) (rule : Slot → State) :
    inSlot k s rule = .next (rule (s.slot k.toNat)) := by
  rw [inSlot_eq, if_neg (by omega)]

theorem inSlot_of_ge {k : SlotNum} {s : State} (h : s.config.nslot ≤ k.toNat) (rule : Slot → State) :
    inSlot k s rule = .next (s.fail .eSlot) := by
  rw [inSlot_eq, if_pos h]

/-! The tests the rules make. -/

theorem State.overCapacity_iff (s : State) (freed added : Nat) :
    s.overCapacity freed added = true ↔ s.config.memBytes < s.used.toNat - freed + added := decide_eq_true_iff

theorem BitArray.hasBit_iff (a : BitArray) (i : Nat) : a.hasBit i = true ↔ i < a.len := decide_eq_true_iff

theorem BitArray.hasInt_iff (a : BitArray) (off w : Nat) : a.hasInt off w = true ↔ off + w ≤ a.len := decide_eq_true_iff

/-! Array updates. -/

theorem State.slot_setArr (s : State) (k : Nat) (r : Role) (a : Option BitArray) (j : Nat) :
    (s.setArr k r a).slot j = if j = k then (s.slot k).setArr r a else s.slot j := State.slot_setSlot ..

/-- A slot's bytes after one of its arrays is replaced. -/
theorem Slot.bytes_setArr (sl : Slot) (r : Role) (a : Option BitArray) :
    (sl.setArr r a).bytes + arrBytes (sl.arr r) = sl.bytes + arrBytes a := by
  cases r <;> simp only [Slot.setArr, Slot.bytes, Slot.arr] <;> omega

theorem Slot.arrBytes_le_bytes (sl : Slot) (r : Role) : arrBytes (sl.arr r) ≤ sl.bytes := by
  cases r <;> simp only [Slot.bytes, Slot.arr] <;> omega

/-! Completion: what the two ways a command ends leave (60_exceptions.md R203). -/

theorem sentinel_toNat : sentinel.toNat = 2 ^ 64 - 1 := by decide

theorem State.fail_failed (s : State) (c : Status) : Failed s (s.fail c) c :=
  ⟨rfl, rfl, sentinel_toNat, ⟨rfl, rfl, rfl, rfl, rfl, rfl⟩, rfl, rfl⟩

theorem State.complete_completedOk (s : State) {v : Nat} (h : v < 2 ^ 64) : CompletedOk s (s.complete v) v :=
  ⟨by rw [State.complete_res, BitVec.toNat_ofNat, Nat.mod_eq_of_lt h], rfl, rfl, ⟨rfl, rfl, rfl, rfl, rfl, rfl⟩⟩

/-! Clearing a run (44_wavelet.md R180). -/

theorem State.clearRun_slot (s : State) (k cnt j : Nat) :
    (s.clearRun k cnt).slot j = if k ≤ j ∧ j < k + cnt then Slot.empty else s.slot j := by
  induction cnt with
  | zero => rw [if_neg (by omega)]; rfl
  | succ cnt ih =>
    rw [State.clearRun, State.slot_setSlot, ih]
    by_cases hj : j = k + cnt
    · rw [if_pos hj, if_pos (by omega)]
    · rw [if_neg hj]
      by_cases h : k ≤ j ∧ j < k + cnt
      · rw [if_pos h, if_pos (by omega)]
      · rw [if_neg h, if_neg (by omega)]

/-- Clearing a run changes the slot file only. -/
theorem State.clearRun_eq (s : State) (k cnt : Nat) :
    s.clearRun k cnt = { s with slots := (s.clearRun k cnt).slots } := by
  induction cnt with
  | zero => rfl
  | succ cnt ih => rw [State.clearRun, State.setSlot, ih]

/-! Building a plan (44_wavelet.md R174). -/

/-- Building a plan changes the slot file only. -/
theorem State.buildPlan_eq (s : State) (w : Nat) (plan : List PlanNode) :
    s.buildPlan w plan = { s with slots := (s.buildPlan w plan).slots } := by
  induction plan generalizing s with
  | nil => rfl
  | cons pn plan ih => rw [State.buildPlan, ih]; rfl

theorem State.buildPlan_slot_of_not_mem (s : State) (w : Nat) (plan : List PlanNode) (j : Nat)
    (h : ∀ pn ∈ plan, pn.slot ≠ j) : (s.buildPlan w plan).slot j = s.slot j := by
  induction plan generalizing s with
  | nil => rfl
  | cons pn plan ih =>
    rw [State.buildPlan, ih _ fun q hq => h q (List.mem_cons_of_mem _ hq),
      State.slot_setSlot_ne _ _ _ (h pn (List.mem_cons_self ..)).symm]

/-- Where no two nodes of a plan share a slot, each slot of the plan ends as its node's build of what it held. -/
theorem State.buildPlan_slot_of_mem (s : State) (w : Nat) {plan : List PlanNode}
    (hd : (plan.map PlanNode.slot).Nodup) {pn : PlanNode} (h : pn ∈ plan) :
    (s.buildPlan w plan).slot pn.slot = pn.build w (s.slot pn.slot) := by
  induction plan generalizing s with
  | nil => cases h
  | cons q plan ih =>
    rw [List.map_cons, List.nodup_cons] at hd
    rw [State.buildPlan]
    rcases List.mem_cons.mp h with rfl | hin
    · rw [State.buildPlan_slot_of_not_mem _ _ _ _ fun p hp heq => hd.1 (List.mem_map.mpr ⟨p, hp, heq⟩),
        State.slot_setSlot_self]
    · have hne : pn.slot ≠ q.slot := fun heq => hd.1 (List.mem_map.mpr ⟨pn, hin, heq⟩)
      rw [ih _ hd.2 hin, State.slot_setSlot_ne _ _ _ hne]

/-! The slot file's canonical form. -/

theorem State.setSlot_wf {s : State} (h : sparseWf Slot.empty 0 s.slots = true) (k : Nat) (sl : Slot) :
    sparseWf Slot.empty 0 (s.setSlot k sl).slots = true := sparseWf_write h k sl

theorem State.clearRun_wf {s : State} (h : sparseWf Slot.empty 0 s.slots = true) (k cnt : Nat) :
    sparseWf Slot.empty 0 (s.clearRun k cnt).slots = true := by
  induction cnt with
  | zero => exact h
  | succ cnt ih => exact State.setSlot_wf ih _ _

theorem State.buildPlan_wf {s : State} (h : sparseWf Slot.empty 0 s.slots = true) (w : Nat) (plan : List PlanNode) :
    sparseWf Slot.empty 0 (s.buildPlan w plan).slots = true := by
  induction plan generalizing s with
  | nil => exact h
  | cons pn plan ih => exact ih (State.setSlot_wf h _ _)

/-! The sum of all bytes (10_state.md R28). -/

theorem sum_bytes_drop {l : SlotFile} {lo : Nat} (h : sparseWf Slot.empty lo l = true) (x : Nat) :
    ((sparseDrop x l).map fun e => e.2.bytes).sum + (sparseRead Slot.empty l x).bytes
      = (l.map fun e => e.2.bytes).sum := by
  induction l generalizing lo with
  | nil => rfl
  | cons e rest ih =>
    obtain ⟨a, b⟩ := e
    simp only [sparseWf, Bool.and_eq_true, decide_eq_true_eq] at h
    have := ih h.2
    simp only [sparseDrop, sparseRead]
    by_cases hxa : x = a
    · subst hxa
      rw [sparseRead_below h.2 (by omega)] at this
      simp only [if_true, List.map_cons, List.sum_cons]
      simp only [Slot.empty_bytes] at this
      omega
    · simp only [hxa, if_false, List.map_cons, List.sum_cons]
      omega

theorem sum_bytes_insert (l : SlotFile) (x : Nat) (v : Slot) :
    ((sparseInsert x v l).map fun e => e.2.bytes).sum = v.bytes + (l.map fun e => e.2.bytes).sum := by
  induction l with
  | nil => simp [sparseInsert]
  | cons e rest ih =>
    obtain ⟨a, b⟩ := e
    simp only [sparseInsert]
    split
    · simp
    · simp only [List.map_cons, List.sum_cons, ih]; omega

/-- Replacing a slot replaces its bytes in the sum. -/
theorem State.usedSum_setSlot {s : State} (h : sparseWf Slot.empty 0 s.slots = true) (k : Nat) (sl : Slot) :
    (s.setSlot k sl).usedSum + (s.slot k).bytes = s.usedSum + sl.bytes := by
  have hd := sum_bytes_drop h k
  simp only [State.usedSum, State.setSlot_slots, State.slot, sparseWrite] at hd ⊢
  split
  · next hv => subst hv; simp only [Slot.empty_bytes]; omega
  · rw [sum_bytes_insert]; omega

theorem State.slot_bytes_le_usedSum {s : State} (h : sparseWf Slot.empty 0 s.slots = true) (k : Nat) :
    (s.slot k).bytes ≤ s.usedSum := by
  have := sum_bytes_drop h k
  simp only [State.usedSum, State.slot]
  omega

/-- Clearing a run takes its bytes out of the sum. -/
theorem State.usedSum_clearRun {s : State} (h : sparseWf Slot.empty 0 s.slots = true) (k cnt : Nat) :
    (s.clearRun k cnt).usedSum + s.runBytes k cnt = s.usedSum := by
  induction cnt with
  | zero => rfl
  | succ cnt ih =>
    have h1 := State.usedSum_setSlot (State.clearRun_wf h k cnt) (k + cnt) Slot.empty
    rw [State.clearRun_slot, if_neg (by omega)] at h1
    rw [State.clearRun, State.runBytes]
    simp only [Slot.empty_bytes] at h1
    omega

/-- With a canonical slot file, USED's sum is 0 exactly when every slot holds no byte. -/
theorem State.usedSum_resetWith (c : Config) : (State.resetWith c).usedSum = 0 := rfl

end Sys2Proof.Machine
end

