-- ==== Sys2Proof/Laws/Sizing.lean ====
section
/-!
SUPPORT. Laws/Sizing.lean: what the sizing function can answer, once: the threshold search, the bounds of the six
parameters, and that everything fits its 64-bit field.
-/

namespace Sys2Proof.Machine

/-! The threshold search (42_rank.md R132). -/

theorem le_leastThreshold (n s : Nat) (l : List Nat) : s ≤ leastThreshold n s l := by
  induction l generalizing s with
  | nil => exact Nat.le_refl s
  | cons t ts ih =>
    rw [leastThreshold]
    split
    · exact Nat.le_refl s
    · exact (Nat.le_succ s).trans (ih (s + 1))

theorem leastThreshold_mono {n m : Nat} (h : n ≤ m) (s : Nat) (l : List Nat) :
    leastThreshold n s l ≤ leastThreshold m s l := by
  induction l generalizing s with
  | nil => exact Nat.le_refl s
  | cons t ts ih =>
    rw [leastThreshold, leastThreshold]
    by_cases hn : n ≤ t
    · rw [if_pos hn]
      split
      · exact Nat.le_refl s
      · exact (Nat.le_succ s).trans (le_leastThreshold _ _ _)
    · rw [if_neg hn, if_neg (by omega)]
      exact ih _

/-- The search stops at the first threshold that `n` does not exceed, or behind the last. -/
theorem leastThreshold_spec (n s : Nat) (l : List Nat) :
    (∀ i (h : i < l.length), s + i < leastThreshold n s l → l[i] < n) ∧
      (∀ h : leastThreshold n s l - s < l.length, n ≤ l[leastThreshold n s l - s]) := by
  induction l generalizing s with
  | nil => exact ⟨fun i h => absurd h (Nat.not_lt_zero i), fun h => absurd h (Nat.not_lt_zero _)⟩
  | cons t ts ih =>
    by_cases hn : n ≤ t
    · have hv : leastThreshold n s (t :: ts) = s := by rw [leastThreshold, if_pos hn]
      refine ⟨fun i h hi => by omega, fun h => ?_⟩
      simp only [hv, Nat.sub_self, List.getElem_cons_zero]
      exact hn
    · have hv : leastThreshold n s (t :: ts) = leastThreshold n (s + 1) ts := by rw [leastThreshold, if_neg hn]
      obtain ⟨h1, h2⟩ := ih (s + 1)
      refine ⟨fun i h hi => ?_, fun h => ?_⟩
      · cases i with
        | zero => simp only [List.getElem_cons_zero]; omega
        | succ i =>
          simp only [List.getElem_cons_succ]
          exact h1 i (by simpa using h) (by omega)
      · have hle := le_leastThreshold n (s + 1) ts
        simp only [hv, List.length_cons] at h ⊢
        have he : leastThreshold n (s + 1) ts - s = (leastThreshold n (s + 1) ts - (s + 1)) + 1 := by omega
        simp only [he, List.getElem_cons_succ]
        exact h2 (by omega)

theorem superblockLen_mono {n m : Nat} (h : n ≤ m) : superblockLen n ≤ superblockLen m := leastThreshold_mono h _ _

theorem superblockLen_pos (n : Nat) : 1 ≤ superblockLen n := le_leastThreshold _ _ _

/-! Bounds. The parameters of `n` depend on `n` through `L = bitlen(n-1)` and `superblock_len` only, but for the
superblock count; `superblock_len` lies between its values at the ends of `L`'s range. -/

/-- What the sizing needs of one pair of `L` and `superblock_len`. -/
def sizingFacts (l sl : Nat) : Bool :=
  let bl := (l + 1) / 2
  let sc := ceilDiv (2 ^ l) sl
  decide (1 ≤ bl) && decide (bl ≤ sl) && decide (bl ≤ 32) && decide (sl ≤ 2048)
    && decide (sc * l + sc * ceilDiv sl bl * bitLen (sl - 1) < 2 ^ 64)
    && decide (((l - 1) * (l - 1) + 1) / 2 ≤ sl) && decide (sl ≤ (l * l + 1) / 2)

/-- The listed numbers rise strictly, from above `a` on. -/
def risingFrom : Nat → List Nat → Bool
  | _, [] => true
  | a, t :: ts => if a < t then risingFrom t ts else false

theorem lt_getElem_of_risingFrom {a : Nat} {l : List Nat} (h : risingFrom a l = true) {i : Nat} (hi : i < l.length) :
    a + i < l[i] := by
  induction l generalizing a i with
  | nil => exact absurd hi (Nat.not_lt_zero i)
  | cons t ts ih =>
    rw [risingFrom] at h
    split at h
    · next hat =>
      cases i with
      | zero => simpa using hat
      | succ i =>
        have := ih h (i := i) (by simpa using hi)
        simp only [List.getElem_cons_succ]; omega
    · cases h

theorem getElem_mono_of_risingFrom {a : Nat} {l : List Nat} (h : risingFrom a l = true) {i j : Nat} (hij : i ≤ j)
    (hj : j < l.length) : l[i]'(lt_of_le_of_lt hij hj) ≤ l[j] := by
  induction l generalizing a i j with
  | nil => exact absurd hj (Nat.not_lt_zero j)
  | cons t ts ih =>
    rw [risingFrom] at h
    split at h
    · cases j with
      | zero => obtain rfl : i = 0 := by omega
                exact Nat.le_refl _
      | succ j =>
        have hj' : j < ts.length := by simpa using hj
        cases i with
        | zero =>
          have := lt_getElem_of_risingFrom h hj'
          simp only [List.getElem_cons_succ, List.getElem_cons_zero]; omega
        | succ i => simpa using ih h (by omega) hj'
    · cases h

set_option Elab.async false in
theorem thresholds_rising : risingFrom 1 thresholds = true := by decide +kernel

theorem thresholds_length : thresholds.length = 2048 := by decide +kernel

/-- `superblock_len` is the least `s` with `n <= T(s)` (42_rank.md R132). -/
theorem superblockLen_le_iff (n : Nat) {s : Nat} (h : s < 2048) :
    superblockLen n ≤ s + 1 ↔ n ≤ thresholds[s]'(thresholds_length.symm ▸ h) := by
  have hl := thresholds_length
  obtain ⟨h1, h2⟩ := leastThreshold_spec n 1 thresholds
  have hp : 1 ≤ leastThreshold n 1 thresholds := superblockLen_pos n
  change leastThreshold n 1 thresholds ≤ s + 1 ↔ _
  constructor
  · intro hle
    have hi : leastThreshold n 1 thresholds - 1 < thresholds.length := by omega
    exact (h2 hi).trans (getElem_mono_of_risingFrom thresholds_rising (by omega) (by omega))
  · intro hle
    by_contra hc
    have := h1 s (by omega) (by omega)
    omega

/-- Where each listed number stands among the powers of two, numbered from `s` on. -/
def logsFrom : Nat → List Nat → Bool
  | _, [] => true
  | s, t :: ts =>
    if 2 * s < (Nat.log2 t + 1) * (Nat.log2 t + 1) ∧ Nat.log2 (t - 1) * Nat.log2 (t - 1) < 2 * s then
      logsFrom (s + 1) ts
    else false

theorem getElem_of_logsFrom {s : Nat} {l : List Nat} (h : logsFrom s l = true) {i : Nat} (hi : i < l.length) :
    2 * (s + i) < (Nat.log2 l[i] + 1) * (Nat.log2 l[i] + 1) ∧
      Nat.log2 (l[i] - 1) * Nat.log2 (l[i] - 1) < 2 * (s + i) := by
  induction l generalizing s i with
  | nil => exact absurd hi (Nat.not_lt_zero i)
  | cons t ts ih =>
    rw [logsFrom] at h
    split at h
    · next hc =>
      cases i with
      | zero => simpa using hc
      | succ i =>
        have := ih h (i := i) (by simpa using hi)
        simp only [List.getElem_cons_succ]
        rwa [show s + (i + 1) = s + 1 + i by omega]
    · cases h

set_option Elab.async false in
theorem thresholds_logs : logsFrom 1 thresholds = true := by decide +kernel

/-- Bounds of `superblock_len` over the range that `L = l + 1` covers. -/
theorem superblockLen_ends {l : Nat} (h : l < 64) :
    l * l / 2 + 1 ≤ superblockLen (2 ^ l + 1) ∧ superblockLen (2 ^ (l + 1)) ≤ ((l + 1) * (l + 1) + 1) / 2 := by
  have hsq : (l + 1) * (l + 1) ≤ 64 * 64 := Nat.mul_le_mul (by omega) (by omega)
  have hsq' : (l + 1) * (l + 1) = l * l + 2 * l + 1 := by ring
  constructor
  · by_contra hc
    have hp := superblockLen_pos (2 ^ l + 1)
    have hs : l * l / 2 - 1 < 2048 := by omega
    have h1 := (superblockLen_le_iff (2 ^ l + 1) hs).mp (by omega)
    have h2 := (getElem_of_logsFrom thresholds_logs (thresholds_length.symm ▸ hs)).2
    have h3 : l ≤ Nat.log2 (thresholds[l * l / 2 - 1]'(thresholds_length.symm ▸ hs) - 1) :=
      (Nat.le_log2 (by have := Nat.two_pow_pos l; omega)).mpr (by omega)
    have := Nat.mul_le_mul h3 h3
    omega
  · have hs : ((l + 1) * (l + 1) + 1) / 2 - 1 < 2048 := by omega
    have h2 := (getElem_of_logsFrom thresholds_logs (thresholds_length.symm ▸ hs)).1
    refine (superblockLen_le_iff (2 ^ (l + 1)) hs).mpr ?_ |>.trans (by omega)
    by_contra hc
    have h3 : Nat.log2 (thresholds[((l + 1) * (l + 1) + 1) / 2 - 1]'(thresholds_length.symm ▸ hs)) < l + 1 := by
      rcases Nat.eq_zero_or_pos (thresholds[((l + 1) * (l + 1) + 1) / 2 - 1]'(thresholds_length.symm ▸ hs))
        with h0 | h0
      · rw [h0]; exact Nat.succ_pos l
      · exact (Nat.log2_lt (by omega)).mpr (by omega)
    have := Nat.mul_le_mul (Nat.succ_le_of_lt h3) (Nat.succ_le_of_lt h3)
    simp only [Nat.succ_eq_add_one] at this
    omega

set_option Elab.async false in
/-- The facts for every pair that some `n` has. -/
theorem sizingFacts_all : ((List.range 64).all fun l =>
    (List.range (l + 2)).all fun d => sizingFacts (l + 1) (l * l / 2 + 1 + d)
      || decide (((l + 1) * (l + 1) + 1) / 2 < l * l / 2 + 1 + d)) = true := by
  decide +kernel

theorem bitLen_range {n : Nat} (h2 : 2 ≤ n) (h : n < 2 ^ 64) :
    1 ≤ bitLen (n - 1) ∧ bitLen (n - 1) ≤ 64 ∧ 2 ^ (bitLen (n - 1) - 1) + 1 ≤ n ∧ n ≤ 2 ^ bitLen (n - 1) := by
  have hp : 0 < n - 1 := by omega
  have h1 := bitLen_pos hp
  have h3 := lt_two_pow_bitLen (n - 1)
  refine ⟨h1, bitLen_le_of_lt (by omega), ?_, by omega⟩
  have : 2 ^ (bitLen (n - 1) - 1) ≤ n - 1 := by
    by_contra hc
    have := bitLen_le_of_lt (Nat.lt_of_not_le hc)
    omega
  omega

theorem sizingFacts_of {n : Nat} (h2 : 2 ≤ n) (h : n < 2 ^ 64) :
    sizingFacts (bitLen (n - 1)) (superblockLen n) = true := by
  obtain ⟨h1, h64, hlo, hhi⟩ := bitLen_range h2 h
  obtain ⟨l, hl⟩ : ∃ l, bitLen (n - 1) = l + 1 := ⟨bitLen (n - 1) - 1, by omega⟩
  rw [hl] at hlo hhi ⊢
  obtain ⟨e1, e2⟩ := superblockLen_ends (l := l) (by omega)
  have g1 := superblockLen_mono hlo
  have g2 := superblockLen_mono hhi
  rw [Nat.add_sub_cancel] at g1
  replace g1 := e1.trans g1
  replace g2 := g2.trans e2
  have hall := sizingFacts_all
  rw [List.all_eq_true] at hall
  have hall := hall l (List.mem_range.mpr (by omega))
  rw [List.all_eq_true] at hall
  have hsq : (l + 1) * (l + 1) = l * l + 2 * l + 1 := by ring
  have hd := hall (superblockLen n - (l * l / 2 + 1)) (List.mem_range.mpr (by omega))
  rw [show l * l / 2 + 1 + (superblockLen n - (l * l / 2 + 1)) = superblockLen n by omega, Bool.or_eq_true,
    decide_eq_true_eq] at hd
  exact hd.resolve_right (by omega)

theorem ceilDiv_mono {a b c : Nat} (h : a ≤ b) : ceilDiv a c ≤ ceilDiv b c :=
  Nat.div_le_div_right (by omega)

theorem ceilDiv_le_self {a b : Nat} (hb : 0 < b) : ceilDiv a b ≤ a := by
  unfold ceilDiv
  rcases Nat.eq_zero_or_pos a with rfl | ha
  · rw [Nat.div_eq_of_lt (by omega)]
  · calc (a + b - 1) / b ≤ (a * b) / b := Nat.div_le_div_right (by
          obtain ⟨x, rfl⟩ := Nat.exists_eq_succ_of_ne_zero (Nat.pos_iff_ne_zero.mp ha)
          obtain ⟨y, rfl⟩ := Nat.exists_eq_succ_of_ne_zero (Nat.pos_iff_ne_zero.mp hb)
          have e : (x + 1) * (y + 1) = x * y + x + y + 1 := by ring
          simp only [Nat.succ_eq_add_one, e]; omega)
      _ = a := Nat.mul_div_cancel _ hb

/-- What the six parameters of a 64-bit `n >= 2` satisfy. -/
structure SizesGood (n : Nat) (z : SizeParams) : Prop where
  blPos : 1 ≤ z.blockLen
  blLe : z.blockLen ≤ z.superblockLen
  blMax : z.blockLen ≤ 32
  slMax : z.superblockLen ≤ 2048
  swPos : 1 ≤ z.superblockWordSize
  swMax : z.superblockWordSize ≤ 64
  swRoom : n ≤ 2 ^ z.superblockWordSize
  bwRoom : z.superblockLen ≤ 2 ^ z.blockWordSize
  bwMax : z.blockWordSize ≤ 11
  scCover : n ≤ z.superblockCount * z.superblockLen
  scTight : z.superblockCount * z.superblockLen < n + z.superblockLen
  bpsCover : z.superblockLen ≤ z.blocksPerSuperblock * z.blockLen
  bpsTight : z.blocksPerSuperblock * z.blockLen < z.superblockLen + z.blockLen
  fits : z.sbtBits + z.bltBits < 2 ^ 64
  scMax : z.superblockCount ≤ n
  bpsMax : z.blocksPerSuperblock ≤ 2048

theorem sizesGood {n : Nat} (h2 : 2 ≤ n) (h : n < 2 ^ 64) : SizesGood n (sizeParams n) := by
  obtain ⟨h1, h64, hlo, hhi⟩ := bitLen_range h2 h
  have hf := sizingFacts_of h2 h
  simp only [sizingFacts, Bool.and_eq_true, decide_eq_true_eq] at hf
  obtain ⟨⟨⟨⟨⟨⟨f1, f2⟩, f3⟩, f4⟩, f5⟩, f6⟩, f7⟩ := hf
  have hslp := superblockLen_pos n
  have hbw : superblockLen n - 1 < 2 ^ bitLen (superblockLen n - 1) := lt_two_pow_bitLen _
  refine ⟨f1, f2, f3, f4, h1, h64, hhi, ?_, ?_, le_ceilDiv_mul hslp, ceilDiv_mul_lt hslp,
    le_ceilDiv_mul (by exact f1), ceilDiv_mul_lt (by exact f1), ?_, ceilDiv_le_self hslp, ?_⟩
  · show superblockLen n ≤ 2 ^ bitLen (superblockLen n - 1)
    omega
  · exact bitLen_le_of_lt (by omega)
  · have hm : ceilDiv n (superblockLen n) ≤ ceilDiv (2 ^ bitLen (n - 1)) (superblockLen n) := ceilDiv_mono hhi
    refine lt_of_le_of_lt (Nat.add_le_add ?_ ?_) f5
    · exact Nat.mul_le_mul_right _ hm
    · exact Nat.mul_le_mul_right _ (Nat.mul_le_mul_right _ hm)
  · exact (ceilDiv_le_self (by exact f1)).trans f4

/-- A position below `n` lies in an existing superblock, and within it in an existing block. -/
theorem SizesGood.position {n : Nat} {z : SizeParams} (h : SizesGood n z) {p : Nat} (hp : p < n) :
    p / z.superblockLen < z.superblockCount ∧ p % z.superblockLen / z.blockLen < z.blocksPerSuperblock := by
  have hsl : 0 < z.superblockLen := lt_of_lt_of_le h.blPos h.blLe
  refine ⟨(Nat.div_lt_iff_lt_mul hsl).mpr (lt_of_lt_of_le hp h.scCover), ?_⟩
  exact (Nat.div_lt_iff_lt_mul h.blPos).mpr (lt_of_lt_of_le (Nat.mod_lt _ hsl) h.bpsCover)

end Sys2Proof.Machine
end

