-- ==== Sys2Proof/Laws/Rank.lean ====
section
/-!
SUPPORT. Laws/Rank.lean: counting bits, what the build pass leaves in the two tables, and what the rank functions
answer over a slot that holds a dictionary.
-/

namespace Sys2Proof.Machine

/-! Counting positions. -/

theorem BitArray.count_succ (a : BitArray) (v lo hi : Nat) :
    a.count v lo (hi + 1) = a.count v lo hi + if lo ≤ hi ∧ hi < a.len ∧ a.bit hi = v then 1 else 0 := by
  unfold BitArray.count
  split
  · next h =>
    rw [← Finset.card_insert_of_notMem (a := hi)]
    · congr 1
      ext p
      simp only [Finset.mem_filter, Finset.mem_range, Finset.mem_insert]
      constructor
      · rintro ⟨h1, h2, h3, h4⟩
        rcases Nat.lt_succ_iff_lt_or_eq.mp h3 with h5 | h5
        · exact Or.inr ⟨h1, h2, h5, h4⟩
        · exact Or.inl h5
      · rintro (rfl | ⟨h1, h2, h3, h4⟩)
        · exact ⟨h.2.1, h.1, Nat.lt_succ_self _, h.2.2⟩
        · exact ⟨h1, h2, by omega, h4⟩
    · simp
  · next h =>
    refine (congrArg Finset.card ?_).trans (Nat.add_zero _).symm
    ext p
    simp only [Finset.mem_filter, Finset.mem_range]
    constructor
    · rintro ⟨h1, h2, h3, h4⟩
      refine ⟨h1, h2, ?_, h4⟩
      rcases Nat.lt_succ_iff_lt_or_eq.mp h3 with h5 | rfl
      · exact h5
      · exact absurd ⟨h2, h1, h4⟩ h
    · rintro ⟨h1, h2, h3, h4⟩
      exact ⟨h1, h2, by omega, h4⟩

theorem BitArray.count_of_le (a : BitArray) (v : Nat) {lo hi : Nat} (h : hi ≤ lo) : a.count v lo hi = 0 := by
  unfold BitArray.count
  rw [Finset.card_eq_zero, Finset.filter_eq_empty_iff]
  intro p _ hp
  omega

theorem BitArray.count_self (a : BitArray) (v lo : Nat) : a.count v lo lo = 0 := a.count_of_le v (Nat.le_refl lo)

theorem BitArray.count_add (a : BitArray) (v : Nat) {lo mid hi : Nat} (h1 : lo ≤ mid) (h2 : mid ≤ hi) :
    a.count v lo hi = a.count v lo mid + a.count v mid hi := by
  obtain ⟨d, rfl⟩ := Nat.exists_eq_add_of_le h2
  clear h2
  induction d with
  | zero => rw [Nat.add_zero, a.count_self, Nat.add_zero]
  | succ d ih =>
    rw [← Nat.add_assoc, BitArray.count_succ, BitArray.count_succ, ih, Nat.add_assoc]
    congr 2
    have : (lo ≤ mid + d) ↔ (mid ≤ mid + d) := by omega
    simp only [this]

theorem BitArray.count_min (a : BitArray) (v lo hi : Nat) : a.count v lo (min hi a.len) = a.count v lo hi := by
  unfold BitArray.count
  congr 1
  ext p
  simp only [Finset.mem_filter, Finset.mem_range]
  omega

theorem BitArray.count_mono (a : BitArray) (v lo : Nat) {hi hi' : Nat} (h : hi ≤ hi') :
    a.count v lo hi ≤ a.count v lo hi' := by
  by_cases hl : lo ≤ hi
  · rw [a.count_add v hl h]; omega
  · rw [a.count_of_le v (by omega)]; omega

theorem BitArray.count_le (a : BitArray) (v lo hi : Nat) : a.count v lo hi ≤ hi - lo := by
  induction hi with
  | zero => rw [a.count_of_le v (Nat.zero_le lo)]; omega
  | succ hi ih =>
    by_cases h : lo ≤ hi
    · rw [BitArray.count_succ]; split <;> omega
    · rw [a.count_of_le v (by omega)]; omega

/-- A position holds a 0 or a 1. -/
theorem BitArray.count_zero_add_one (a : BitArray) {lo hi : Nat} (h : lo ≤ hi) (hl : hi ≤ a.len) :
    a.count 0 lo hi + a.count 1 lo hi = hi - lo := by
  obtain ⟨d, rfl⟩ := Nat.exists_eq_add_of_le h
  clear h
  induction d with
  | zero => rw [Nat.add_zero, a.count_self, a.count_self]; omega
  | succ d ih =>
    have := a.bit_lt_two (lo + d)
    rw [← Nat.add_assoc, BitArray.count_succ, BitArray.count_succ]
    have := ih (by omega)
    rcases Nat.lt_succ_iff_lt_or_eq.mp (a.bit_lt_two (lo + d)) with h0 | h1
    · have h0 : a.bit (lo + d) = 0 := by omega
      rw [if_pos ⟨by omega, by omega, h0⟩, if_neg (by rw [h0]; omega)]
      omega
    · rw [if_neg (by rw [h1]; omega), if_pos ⟨by omega, by omega, h1⟩]
      omega

/-- The model's count of 1 bits from `lo` on, cut at `n`, is the count of 42_rank.md R137. -/
theorem BitArray.ones_eq_count (a : BitArray) (lo hi : Nat) :
    a.ones lo (min hi a.len - lo) = a.count 1 lo hi := by
  have key : ∀ c, lo + c ≤ a.len → a.ones lo c = a.count 1 lo (lo + c) := by
    intro c
    induction c with
    | zero => intro _; rw [Nat.add_zero, a.count_self]; rfl
    | succ c ih =>
      intro hc
      rw [BitArray.ones, ih (by omega), ← Nat.add_assoc, BitArray.count_succ]
      have := a.bit_lt_two (lo + c)
      by_cases hb : a.bit (lo + c) = 1
      · rw [if_pos ⟨by omega, by omega, hb⟩, hb]
      · rw [if_neg (by tauto)]; omega
  rw [← a.count_min]
  by_cases h : lo ≤ min hi a.len
  · rw [key _ (by omega)]; congr 1; omega
  · rw [a.count_of_le 1 (by omega), show min hi a.len - lo = 0 by omega]; rfl

/-! The build pass (42_rank.md R140). -/

/-- The first `j` blocks of superblock `i`. -/
def blocksUpTo (b : BitArray) (z : SizeParams) (i : Nat) (p : BuildPass) (j : Nat) : BuildPass :=
  (List.range j).foldl (buildBlock b b.len z i) p

theorem blocksUpTo_succ (b : BitArray) (z : SizeParams) (i : Nat) (p : BuildPass) (j : Nat) :
    blocksUpTo b z i p (j + 1) = buildBlock b b.len z i (blocksUpTo b z i p j) j := by
  simp only [blocksUpTo, List.range_succ, List.foldl_append, List.foldl_cons, List.foldl_nil]

/-- What entry `t` of the block table must hold (42_rank.md R137). -/
def blockEntry (b : BitArray) (z : SizeParams) (t : Nat) : Nat :=
  let i := t / z.blocksPerSuperblock
  let j := t % z.blocksPerSuperblock
  b.count 1 (i * z.superblockLen) (min (i * z.superblockLen + j * z.blockLen) ((i + 1) * z.superblockLen))

theorem blockEntry_at (b : BitArray) (z : SizeParams) (i : Nat) {j : Nat} (h : j < z.blocksPerSuperblock) :
    blockEntry b z (i * z.blocksPerSuperblock + j)
      = b.count 1 (i * z.superblockLen)
          (min (i * z.superblockLen + j * z.blockLen) ((i + 1) * z.superblockLen)) := by
  have hp : 0 < z.blocksPerSuperblock := by omega
  have h1 : (i * z.blocksPerSuperblock + j) / z.blocksPerSuperblock = i := by
    rw [Nat.mul_comm, Nat.mul_add_div hp, Nat.div_eq_of_lt h, Nat.add_zero]
  have h2 : (i * z.blocksPerSuperblock + j) % z.blocksPerSuperblock = j := by
    rw [Nat.mul_comm, Nat.mul_add_mod, Nat.mod_eq_of_lt h]
  simp only [blockEntry, h1, h2]

/-- A table whose first `m` entries of `w` bits are as `f` says, and whose bits behind them are 0. -/
structure Filled (a : BitArray) (w m : Nat) (f : Nat → Nat) : Prop where
  wf : Memory.wf a.storage = true
  entries : ∀ t, t < m → a.getInt (t * w) w = f t
  rest : ∀ i, m * w ≤ i → a.bit i = 0

theorem Filled.zeros (len w : Nat) (f : Nat → Nat) : Filled (BitArray.zeros len) w 0 f :=
  ⟨rfl, fun _ h => absurd h (Nat.not_lt_zero _), fun _ _ => BitArray.zeros_bit _ _⟩

/-- The next entry written. -/
theorem Filled.setInt {a : BitArray} {w m : Nat} {f : Nat → Nat} (h : Filled a w m f) {v : Nat} (hv : v = f m)
    (hr : v < 2 ^ w) : Filled (a.setInt (m * w) w v) w (m + 1) f := by
  refine ⟨BitArray.wf_setInt h.wf _ _ _, fun t ht => ?_, fun i hi => ?_⟩
  · rcases Nat.lt_succ_iff_lt_or_eq.mp ht with hlt | rfl
    · have : t * w + w ≤ m * w := by
        calc t * w + w = (t + 1) * w := by ring
          _ ≤ m * w := Nat.mul_le_mul_right _ hlt
      rw [BitArray.getInt_setInt_disjoint _ (Or.inl this), h.entries t hlt]
    · rw [BitArray.getInt_setInt_self, Nat.mod_eq_of_lt hr, hv]
  · have : (m + 1) * w = m * w + w := by ring
    rw [BitArray.bit_setInt, if_neg (by omega), h.rest i (by omega)]

/-- The state of the pass within superblock `i`, after `j` of its blocks. -/
theorem blocksUpTo_spec {b : BitArray} {z : SizeParams} (hz : SizesGood b.len z) {i : Nat} {p : BuildPass}
    (hf : Filled p.blt z.blockWordSize (i * z.blocksPerSuperblock) (blockEntry b z)) (hb : p.blockVal = 0)
    {j : Nat} (hj : j ≤ z.blocksPerSuperblock) :
    let q := blocksUpTo b z i p j
    let c := b.count 1 (i * z.superblockLen)
      (min (i * z.superblockLen + j * z.blockLen) ((i + 1) * z.superblockLen))
    q.sbt = p.sbt ∧ q.blt.len = p.blt.len ∧ q.blockVal = c ∧ q.superblockVal = p.superblockVal + c ∧
      Filled q.blt z.blockWordSize (i * z.blocksPerSuperblock + j) (blockEntry b z) := by
  induction j with
  | zero =>
    have hc : b.count 1 (i * z.superblockLen)
        (min (i * z.superblockLen + 0 * z.blockLen) ((i + 1) * z.superblockLen)) = 0 :=
      b.count_of_le 1 (by omega)
    exact ⟨rfl, rfl, by rw [hc]; exact hb, by rw [hc]; rfl, by simpa [blocksUpTo] using hf⟩
  | succ j ih =>
    obtain ⟨h1, h2, h3, h4, h5⟩ := ih (by omega)
    have hsl : (i + 1) * z.superblockLen = i * z.superblockLen + z.superblockLen := by ring
    have hjb : (j + 1) * z.blockLen = j * z.blockLen + z.blockLen := by ring
    have hcov : (j + 1) * z.blockLen ≤ z.blocksPerSuperblock * z.blockLen := Nat.mul_le_mul_right _ hj
    have htight := hz.bpsTight
    -- the block's 1 bits are what the count grows by
    have hgrow : b.count 1 (i * z.superblockLen)
          (min (i * z.superblockLen + (j + 1) * z.blockLen) ((i + 1) * z.superblockLen))
        = b.count 1 (i * z.superblockLen)
            (min (i * z.superblockLen + j * z.blockLen) ((i + 1) * z.superblockLen))
          + b.ones (i * z.superblockLen + j * z.blockLen)
            (min (min (i * z.superblockLen + j * z.blockLen + z.blockLen) ((i + 1) * z.superblockLen)) b.len
              - (i * z.superblockLen + j * z.blockLen)) := by
      rw [BitArray.ones_eq_count, b.count_add 1 (lo := i * z.superblockLen)
        (mid := min (i * z.superblockLen + j * z.blockLen) ((i + 1) * z.superblockLen)) (by omega) (by omega),
        hjb, ← Nat.add_assoc]
      congr 1
      by_cases hs : i * z.superblockLen + j * z.blockLen ≤ (i + 1) * z.superblockLen
      · rw [Nat.min_eq_left hs]
      · rw [b.count_of_le 1 (by omega), b.count_of_le 1 (by omega)]
    have hsmall : b.count 1 (i * z.superblockLen)
        (min (i * z.superblockLen + j * z.blockLen) ((i + 1) * z.superblockLen)) < 2 ^ z.blockWordSize := by
      have := b.count_le 1 (i * z.superblockLen)
        (min (i * z.superblockLen + j * z.blockLen) ((i + 1) * z.superblockLen))
      have := hz.bwRoom
      omega
    simp only [blocksUpTo_succ, buildBlock]
    refine ⟨h1, by rw [BitArray.setInt_len, h2], by rw [h3, hgrow], by rw [h4, hgrow, Nat.add_assoc], ?_⟩
    rw [← Nat.add_assoc]
    refine h5.setInt ?_ ?_
    · rw [h3, blockEntry_at b z i (by omega)]
    · rw [h3]; exact hsmall

/-- The first `i` superblocks of the pass. -/
def superblocksUpTo (b : BitArray) (z : SizeParams) (i : Nat) : BuildPass :=
  (List.range i).foldl (buildSuperblock b b.len z)
    { sbt := BitArray.zeros z.sbtBits, blt := BitArray.zeros z.bltBits, superblockVal := 0, blockVal := 0 }

theorem superblocksUpTo_spec {b : BitArray} {z : SizeParams} (hz : SizesGood b.len z) {i : Nat}
    (hi : i ≤ z.superblockCount) :
    let q := superblocksUpTo b z i
    q.sbt.len = z.sbtBits ∧ q.blt.len = z.bltBits ∧ q.superblockVal = b.count 1 0 (i * z.superblockLen) ∧
      Filled q.sbt z.superblockWordSize i (fun t => b.count 1 0 (t * z.superblockLen)) ∧
      Filled q.blt z.blockWordSize (i * z.blocksPerSuperblock) (blockEntry b z) := by
  have hfits := hz.fits
  induction i with
  | zero =>
    refine ⟨BitArray.zeros_len (by omega), BitArray.zeros_len (by omega), ?_, Filled.zeros _ _ _, ?_⟩
    · rw [Nat.zero_mul, b.count_self]; rfl
    · rw [Nat.zero_mul]; exact Filled.zeros _ _ _
  | succ i ih =>
    obtain ⟨h1, h2, h3, h4, h5⟩ := ih (by omega)
    have hstep : superblocksUpTo b z (i + 1) = blocksUpTo b z i
        { sbt := (superblocksUpTo b z i).sbt.setInt (i * z.superblockWordSize) z.superblockWordSize
            (superblocksUpTo b z i).superblockVal
          blt := (superblocksUpTo b z i).blt
          superblockVal := (superblocksUpTo b z i).superblockVal
          blockVal := 0 } z.blocksPerSuperblock := by
      simp only [superblocksUpTo, List.range_succ, List.foldl_append, List.foldl_cons, List.foldl_nil,
        buildSuperblock, blocksUpTo]
    have hsl : (i + 1) * z.superblockLen = i * z.superblockLen + z.superblockLen := by ring
    have hcov := hz.bpsCover
    obtain ⟨g1, g2, g3, g4, g5⟩ := blocksUpTo_spec hz (i := i)
      (p := { sbt := (superblocksUpTo b z i).sbt.setInt (i * z.superblockWordSize) z.superblockWordSize
                (superblocksUpTo b z i).superblockVal
              blt := (superblocksUpTo b z i).blt
              superblockVal := (superblocksUpTo b z i).superblockVal
              blockVal := 0 }) h5 rfl (Nat.le_refl _)
    simp only [hstep]
    have hcut : min (i * z.superblockLen + z.blocksPerSuperblock * z.blockLen) ((i + 1) * z.superblockLen)
        = (i + 1) * z.superblockLen := by omega
    refine ⟨by rw [g1, BitArray.setInt_len, h1], by rw [g2]; exact h2, ?_, ?_, ?_⟩
    · rw [g4, hcut, h3, ← b.count_add 1 (Nat.zero_le _) (by omega)]
    · rw [g1]
      refine h4.setInt h3 ?_
      have hle := b.count_le 1 0 (i * z.superblockLen)
      have hmul : (i + 1) * z.superblockLen ≤ z.superblockCount * z.superblockLen := Nat.mul_le_mul_right _ hi
      have := hz.scTight
      have := hz.swRoom
      omega
    · rw [show (i + 1) * z.blocksPerSuperblock = i * z.blocksPerSuperblock + z.blocksPerSuperblock by ring]
      exact g5

theorem buildTables_eq (b : BitArray) (z : SizeParams) : buildTables b z = superblocksUpTo b z z.superblockCount := rfl

/-- What the pass leaves in the two tables (42_rank.md R137), with what the invariants need of their storage. -/
theorem buildTables_spec {b : BitArray} (h2 : 2 ≤ b.len) :
    TablesCount b (sizeParams b.len) (buildTables b (sizeParams b.len)).sbt
        (buildTables b (sizeParams b.len)).blt ∧
      (buildTables b (sizeParams b.len)).sbt.WellFormed ∧ (buildTables b (sizeParams b.len)).blt.WellFormed := by
  have hz := sizesGood h2 b.bitCount.isLt
  obtain ⟨h1, h2, h3, h4, h5⟩ := superblocksUpTo_spec hz (Nat.le_refl (sizeParams b.len).superblockCount)
  rw [buildTables_eq]
  refine ⟨⟨h1, h2, fun i hi => h4.entries i hi, fun i j hi hj => ?_⟩, ⟨h4.wf, fun i hi => h4.rest i ?_⟩,
    ⟨h5.wf, fun i hi => h5.rest i ?_⟩⟩
  · rw [h5.entries _ ?_, blockEntry_at b _ i hj]
    calc i * (sizeParams b.len).blocksPerSuperblock + j
        < (i + 1) * (sizeParams b.len).blocksPerSuperblock := by rw [Nat.add_mul, Nat.one_mul]; omega
      _ ≤ _ := Nat.mul_le_mul_right _ hi
  · rw [h1] at hi; exact hi
  · rw [h2] at hi; exact hi

/-! The dictionary's scalars, each as latched. -/

theorem RankDict.sizes_ofSizes {n : Nat} (h2 : 2 ≤ n) (h : n < 2 ^ 64) :
    (RankDict.ofSizes n (sizeParams n)).sizes = sizeParams n ∧ (RankDict.ofSizes n (sizeParams n)).n.toNat = n := by
  have hz := sizesGood h2 h
  have e : ∀ x : Nat, x < 2 ^ 64 → (BitVec.ofNat 64 x).toNat = x := fun x hx => by
    rw [BitVec.toNat_ofNat, Nat.mod_eq_of_lt hx]
  refine ⟨?_, e n h⟩
  have h1 := hz.slMax
  have h2 := hz.swMax
  have h3 := hz.scMax
  have h4 := hz.blMax
  have h5 := hz.bwMax
  have h6 := hz.bpsMax
  simp only [RankDict.sizes, RankDict.ofSizes]
  rw [e _ (by omega), e _ (by omega), e _ (by omega), e _ (by omega), e _ (by omega), e _ (by omega)]

/-! A slot that holds a dictionary. -/

theorem HasDict.tables {s : State} {k : Nat} {b : BitArray} (h : HasDict s k b) :
    (s.slot k).partitionBits = some b ∧
      (s.slot k).rankDict = some (RankDict.ofSizes b.len (sizeParams b.len)) ∧
      (s.slot k).superblockTable = some (buildTables b (sizeParams b.len)).sbt ∧
      (s.slot k).blockTable = some (buildTables b (sizeParams b.len)).blt := by
  refine ⟨h.1, ?_, ?_, ?_⟩ <;> rw [h.2.2] <;> rfl

/-- `Rank1` over a built dictionary counts the 1 bits up to and with `idx` (42_rank.md R142, R144 (a)). -/
theorem rank1_withDict {sl : Slot} {b : BitArray} (hp : sl.partitionBits = some b) (h2 : 2 ≤ b.len) {idx : Nat}
    (hi : idx < b.len) :
    rank1 (sl.withDict b) (RankDict.ofSizes b.len (sizeParams b.len)) idx = b.count 1 0 (idx + 1) := by
  have hz := sizesGood h2 b.bitCount.isLt
  obtain ⟨ht, -, -⟩ := buildTables_spec h2
  have hP : (sl.withDict b).array .P = b := Slot.array_of_arr (r := .P) hp
  have hS : (sl.withDict b).array .SBT = (buildTables b (sizeParams b.len)).sbt := Slot.array_of_arr (r := .SBT) rfl
  have hB : (sl.withDict b).array .BLT = (buildTables b (sizeParams b.len)).blt := Slot.array_of_arr (r := .BLT) rfl
  simp only [rank1, hP, hS, hB, (RankDict.sizes_ofSizes h2 b.bitCount.isLt).1, popcount_getInt]
  obtain ⟨hsb, hblk⟩ := hz.position hi
  generalize sizeParams b.len = z at hz ht hsb hblk ⊢
  have hsl : 0 < z.superblockLen := lt_of_lt_of_le hz.blPos hz.blLe
  have hm := Nat.div_add_mod idx z.superblockLen
  have hml := Nat.mod_lt idx hsl
  have hm' := Nat.div_add_mod (idx % z.superblockLen) z.blockLen
  have hml' := Nat.mod_lt (idx % z.superblockLen) hz.blPos
  rw [ht.superblocks _ hsb, ht.blocks _ _ hsb hblk]
  generalize hq : idx / z.superblockLen = sb at *
  generalize hr : idx % z.superblockLen = off at *
  generalize hq' : off / z.blockLen = blk at *
  have e1 : (sb + 1) * z.superblockLen = z.superblockLen * sb + z.superblockLen := by ring
  have e2 : sb * z.superblockLen = z.superblockLen * sb := Nat.mul_comm _ _
  have e3 : blk * z.blockLen = z.blockLen * blk := Nat.mul_comm _ _
  have hin : idx - (sb * z.superblockLen + blk * z.blockLen) + 1
      = min (idx + 1) b.len - (sb * z.superblockLen + blk * z.blockLen) := by omega
  rw [hin, BitArray.ones_eq_count, Nat.min_eq_left (by omega), ← b.count_add 1 (Nat.zero_le _) (by omega),
    ← b.count_add 1 (Nat.zero_le _) (by omega)]

theorem rank1_of_hasDict {s : State} {k : Nat} {b : BitArray} (h : HasDict s k b) {idx : Nat} (hi : idx < b.len) :
    rank1 (s.slot k) (RankDict.ofSizes b.len (sizeParams b.len)) idx = b.count 1 0 (idx + 1) := by
  rw [h.2.2]; exact rank1_withDict h.1 h.2.1 hi

theorem rank0_of_hasDict {s : State} {k : Nat} {b : BitArray} (h : HasDict s k b) {idx : Nat} (hi : idx < b.len) :
    rank0 (s.slot k) (RankDict.ofSizes b.len (sizeParams b.len)) idx = b.count 0 0 (idx + 1) := by
  have := b.count_zero_add_one (Nat.zero_le (idx + 1)) hi
  rw [rank0, rank1_of_hasDict h hi]
  omega

/-- `Rank0` and `Rank1` by the bit they count. -/
theorem rankOf_of_hasDict {s : State} {k : Nat} {b : BitArray} (h : HasDict s k b) {v idx : Nat} (hv : v < 2)
    (hi : idx < b.len) :
    rankOf v (s.slot k) (RankDict.ofSizes b.len (sizeParams b.len)) idx = b.count v 0 (idx + 1) := by
  unfold rankOf
  split
  · next h1 => subst h1; exact rank1_of_hasDict h hi
  · next h1 =>
    obtain rfl : v = 0 := by omega
    exact rank0_of_hasDict h hi

end Sys2Proof.Machine
end

