-- ==== Sys2Proof/Laws/Select.lean ====
section
/-!
SUPPORT. Laws/Select.lean: what the binary search answers over a non-decreasing function, and what the select function
answers over a slot that holds a dictionary.
-/

namespace Sys2Proof.Machine

theorem bitLen_half {v : Nat} : bitLen (v / 2) = bitLen v - 1 := by
  rcases Nat.lt_or_ge v 2 with h | h
  · have : v = 0 ∨ v = 1 := by omega
    rcases this with rfl | rfl <;> decide
  · unfold bitLen
    rw [if_neg (by omega), if_neg (by omega), Nat.add_sub_cancel]
    rw [Nat.log2_def v, if_pos h]

/-- What the loop keeps (43_select.md R160): no match below `low`; nothing below `r` above `high`; the candidate is the
match just above `high`, or there is no match above `high`. -/
structure SearchInv (fn : Nat → Nat) (r n none low high cand : Nat) : Prop where
  below : ∀ i, i < low → fn i < r
  cases : (cand = none ∧ ∀ i, high < i → i < n → r < fn i) ∨
    (cand = high + 1 ∧ cand < n ∧ fn cand = r)
  top : high < n

/-- The search returns the least match, or `none` if there is no match. -/
theorem searchLeftmost_spec {fn : Nat → Nat} {r n none : Nat}
    (hm : ∀ i j, i ≤ j → j < n → fn i ≤ fn j) (fuel : Nat) {low high cand : Nat}
    (hf : bitLen (high + 1 - low) ≤ fuel) (h : SearchInv fn r n none low high cand) :
    let v := searchLeftmost fn r fuel low high cand
    (v < n ∧ fn v = r ∧ ∀ i, i < v → fn i < r) ∨ (v = none ∧ ∀ i, i < n → fn i ≠ r) := by
  induction fuel generalizing low high cand with
  | zero =>
    have hlow : high + 1 - low = 0 := by
      by_contra hc
      have := bitLen_pos (Nat.pos_of_ne_zero hc)
      omega
    simp only [searchLeftmost]
    rcases h.cases with ⟨hc, ha⟩ | ⟨h1, h2, h3⟩
    · refine Or.inr ⟨hc, fun i hi => ?_⟩
      rcases Nat.lt_or_ge i low with hl | hl
      · exact Nat.ne_of_lt (h.below i hl)
      · exact (Nat.ne_of_lt (ha i (by omega) hi)).symm
    · exact Or.inl ⟨h2, h3, fun i hi => h.below i (by omega)⟩
  | succ fuel ih =>
    have htop := h.top
    rw [searchLeftmost]
    by_cases hlh : low ≤ high
    · rw [if_pos hlh]
      have hhalf : ∀ x, x ≤ (high + 1 - low) / 2 → bitLen x ≤ fuel := fun x hx => by
        have h1 := bitLen_mono hx
        rw [bitLen_half] at h1
        omega
      have hmid : low ≤ (low + high) / 2 ∧ (low + high) / 2 ≤ high := by omega
      generalize hM : (low + high) / 2 = mid at hmid
      have hlenL : high + 1 - (mid + 1) ≤ (high + 1 - low) / 2 := by omega
      have hlenH : mid ≠ 0 → mid - 1 + 1 - low ≤ (high + 1 - low) / 2 := by omega
      simp only
      by_cases h1 : fn mid < r
      · rw [if_pos h1]
        exact ih (hhalf _ hlenL) ⟨fun i hi => lt_of_le_of_lt (hm i mid (by omega) (by omega)) h1, h.cases, htop⟩
      · rw [if_neg h1]
        by_cases h2 : r < fn mid
        · rw [if_pos h2]
          have hcand : cand = none ∧ ∀ i, high < i → i < n → r < fn i := by
            rcases h.cases with hc | ⟨c1, c2, c3⟩
            · exact hc
            · have := hm mid cand (by omega) c2
              omega
          have habove : ∀ i, mid ≤ i → i < n → r < fn i := fun i hi hin =>
            lt_of_lt_of_le h2 (hm mid i hi hin)
          by_cases h0 : mid = 0
          · rw [if_pos h0]
            exact Or.inr ⟨hcand.1, fun i hi => (Nat.ne_of_lt (habove i (by omega) hi)).symm⟩
          · rw [if_neg h0]
            exact ih (hhalf _ (hlenH h0))
              ⟨h.below, Or.inl ⟨hcand.1, fun i hi hin => habove i (by omega) hin⟩, by omega⟩
        · rw [if_neg h2]
          have heq : fn mid = r := by omega
          by_cases h0 : mid = 0
          · rw [if_pos h0]
            exact Or.inl ⟨by omega, heq, fun i hi => by omega⟩
          · rw [if_neg h0]
            exact ih (hhalf _ (hlenH h0)) ⟨h.below, Or.inr ⟨by omega, by omega, heq⟩, by omega⟩
    · rw [if_neg hlh]
      rcases h.cases with ⟨hc, ha⟩ | ⟨h1, h2, h3⟩
      · refine Or.inr ⟨hc, fun i hi => ?_⟩
        rcases Nat.lt_or_ge i low with hl | hl
        · exact Nat.ne_of_lt (h.below i hl)
        · exact (Nat.ne_of_lt (ha i (by omega) hi)).symm
      · exact Or.inl ⟨h2, h3, fun i hi => h.below i (by omega)⟩

/-- A count that reaches `r` passes through it at a position that holds the bit counted. -/
theorem BitArray.exists_count_eq (b : BitArray) (v : Nat) {r : Nat} (h1 : 1 ≤ r) (h2 : r ≤ b.count v 0 b.len) :
    ∃ i, i < b.len ∧ b.bit i = v ∧ b.count v 0 (i + 1) = r := by
  have key : ∀ m, r ≤ b.count v 0 m → ∃ i, i < m ∧ i < b.len ∧ b.bit i = v ∧ b.count v 0 (i + 1) = r := by
    intro m
    induction m with
    | zero => intro h; rw [b.count_self] at h; omega
    | succ m ih =>
      intro h
      by_cases hm : r ≤ b.count v 0 m
      · obtain ⟨i, hi, hrest⟩ := ih hm
        exact ⟨i, by omega, hrest⟩
      · have hs := b.count_succ v 0 m
        by_cases hc : 0 ≤ m ∧ m < b.len ∧ b.bit m = v
        · rw [if_pos hc] at hs
          exact ⟨m, Nat.lt_succ_self m, hc.2.1, hc.2.2, by omega⟩
        · rw [if_neg hc] at hs
          omega
  obtain ⟨i, -, hrest⟩ := key _ h2
  exact ⟨i, hrest⟩

/-- What `Select` answers over a built dictionary (43_select.md R160 to R162, R164). -/
theorem select_of_hasDict {s : State} {k : Nat} {b : BitArray} (h : HasDict s k b) {v : Nat} (hv : v < 2) (r : Nat) :
    SelectAnswer b v r (select (s.slot k) (RankDict.ofSizes b.len (sizeParams b.len)) v r) := by
  have hn := (RankDict.sizes_ofSizes h.2.1 b.bitCount.isLt).2
  have h2 := h.2.1
  have hcle := b.count_le v 0 b.len
  rw [select]
  simp only [hn]
  by_cases hr : r = 0 ∨ b.len < r
  · rw [if_pos hr]
    exact Or.inr ⟨by omega, rfl⟩
  · rw [if_neg hr]
    have hfn : ∀ i, i < b.len → rankOf v (s.slot k) (RankDict.ofSizes b.len (sizeParams b.len)) i
        = b.count v 0 (i + 1) := fun i hi => rankOf_of_hasDict h hv hi
    have hspec := searchLeftmost_spec (r := r) (n := b.len) (none := sentinelNat)
      (fn := rankOf v (s.slot k) (RankDict.ofSizes b.len (sizeParams b.len)))
      (fun i j hij hj => by
        rw [hfn i (by omega), hfn j hj]; exact b.count_mono v 0 (by omega))
      (bitLen b.len) (low := 0) (high := b.len - 1) (cand := sentinelNat)
      (by rw [show b.len - 1 + 1 - 0 = b.len by omega])
      ⟨fun i hi => absurd hi (Nat.not_lt_zero i), Or.inl ⟨rfl, fun i h1 h2 => by omega⟩, by omega⟩
    rcases hspec with ⟨hlt, heq, hmin⟩ | ⟨hnone, hno⟩
    · rw [hfn _ hlt] at heq
      refine Or.inl ⟨by omega, hlt, ?_, heq⟩
      generalize searchLeftmost _ _ _ _ _ _ = p at hlt heq hmin
      by_contra hb
      have hs := b.count_succ v 0 p
      rw [if_neg (by tauto)] at hs
      cases p with
      | zero => rw [b.count_self] at hs; omega
      | succ p =>
        have := hmin p (Nat.lt_succ_self p)
        rw [hfn p (by omega)] at this
        omega
    · refine Or.inr ⟨Or.inr ?_, hnone⟩
      by_contra hc
      obtain ⟨i, hi, -, hci⟩ := b.exists_count_eq v (r := r) (by omega) (by omega)
      exact hno i hi (by rw [hfn i hi]; exact hci)

/-- A select's answer is the same whoever finds it. -/
theorem SelectAnswer.unique {b : BitArray} {bit r v v' : Nat} (h : SelectAnswer b bit r v)
    (h' : SelectAnswer b bit r v') : v = v' := by
  have grow : ∀ x y, x < y → b.bit y = bit → y < b.len → b.count bit 0 (x + 1) < b.count bit 0 (y + 1) := by
    intro x y hxy hb hy
    have h1 := b.count_mono bit 0 (show x + 1 ≤ y by omega)
    have h2 := b.count_succ bit 0 y
    rw [if_pos ⟨Nat.zero_le _, hy, hb⟩] at h2
    omega
  have top : ∀ x, x < b.len → b.count bit 0 (x + 1) ≤ b.count bit 0 b.len := fun x hx => b.count_mono bit 0 hx
  rcases h with ⟨h1, h2, h3, h4⟩ | ⟨h1, h2⟩ <;> rcases h' with ⟨g1, g2, g3, g4⟩ | ⟨g1, g2⟩
  · rcases Nat.lt_trichotomy v v' with hlt | heq | hgt
    · have := grow v v' hlt g3 g2; omega
    · exact heq
    · have := grow v' v hgt h3 h2; omega
  · have := top v h2; omega
  · have := top v' g2; omega
  · rw [h2, g2]

end Sys2Proof.Machine
end

