-- ==== Sys2Proof/Laws/Tree.lean ====
section
/-!
SUPPORT. Laws/Tree.lean: the plan of a tree (its slots, ranges and sequences), what a build leaves in one slot, and what
the two walks answer over a tree that stands as built.
-/

namespace Sys2Proof.Machine

/-! Sequences split by a side. -/

theorem filter_take_eq {α : Type} (p : α → Bool) (l : List α) (n : Nat) :
    (l.filter p).take ((l.take n).countP p) = (l.take n).filter p := by
  conv_lhs => rw [← List.take_append_drop n l, List.filter_append]
  rw [List.take_append_of_le_length (by rw [List.countP_eq_length_filter, List.take_append_drop]), List.take_of_length_le
    (by rw [List.countP_eq_length_filter, List.take_append_drop])]

theorem countP_take_succ {α : Type} (p : α → Bool) (l : List α) {i : Nat} (h : i < l.length) :
    (l.take (i + 1)).countP p = (l.take i).countP p + if p l[i] then 1 else 0 := by
  rw [List.take_succ_eq_append_getElem h, List.countP_append, List.countP_singleton]

/-- An element that satisfies `p` stands in the filtered list just behind those before it. -/
theorem getElem_filter_of {α : Type} (p : α → Bool) (l : List α) {i : Nat} (h : i < l.length) (hp : p l[i] = true) :
    ∃ hq : (l.take i).countP p < (l.filter p).length, (l.filter p)[(l.take i).countP p] = l[i] := by
  have hf : (l.take (i + 1)).filter p = (l.take i).filter p ++ [l[i]] := by
    rw [List.take_succ_eq_append_getElem h, List.filter_append]
    simp [hp]
  have hl : ((l.take i).filter p).length = (l.take i).countP p := List.countP_eq_length_filter.symm
  have ht := filter_take_eq p l (i + 1)
  rw [hf, countP_take_succ p l h, if_pos hp] at ht
  have hlen : (l.take i).countP p < (l.filter p).length := by
    have := congrArg List.length ht
    rw [List.length_take, List.length_append, List.length_singleton, hl] at this
    omega
  refine ⟨hlen, ?_⟩
  have hg : ((l.filter p).take ((l.take i).countP p + 1))[(l.take i).countP p]'(by
      rw [List.length_take]; omega) = l[i] := by
    simp only [ht]
    rw [List.getElem_append_right (by omega)]
    simp
  rwa [List.getElem_take] at hg

/-- Dropping what does not satisfy `p` loses no `c` that does. -/
theorem count_filter_take {p : Nat → Bool} {c : Nat} (hc : p c = true) (l : List Nat) (n : Nat) :
    ((l.filter p).take ((l.take n).countP p)).count c = (l.take n).count c := by
  rw [filter_take_eq, List.count_filter hc]

/-! The plan (44_wavelet.md R172, R174). -/

/-- Slots of the subtree over `[lo, hi]`. -/
def spanOf (lo hi : Nat) : Nat := 2 * (hi - lo + 1) - 1

/-- The node that a node's left half becomes. -/
def PlanNode.leftChild (pn : PlanNode) : PlanNode :=
  { slot := pn.slot + 1, lo := pn.lo, hi := midOf pn.lo pn.hi, len := (leftSeq pn.lo pn.hi pn.seq).length
    seq := leftSeq pn.lo pn.hi pn.seq, isRoot := false }

/-- The node that a node's right half becomes. -/
def PlanNode.rightChild (pn : PlanNode) : PlanNode :=
  { slot := rightSlot pn.slot pn.lo pn.hi, lo := midOf pn.lo pn.hi + 1, hi := pn.hi
    len := (rightSeq pn.lo pn.hi pn.seq).length, seq := rightSeq pn.lo pn.hi pn.seq, isRoot := false }

/-- What holds of every node of a subtree's plan. -/
structure PlanNode.Good (plan : List PlanNode) (j lo hi : Nat) (seq : List Nat) (root : Bool) (pn : PlanNode) :
    Prop where
  slotLo : j ≤ pn.slot
  slotHi : pn.slot + spanOf pn.lo pn.hi ≤ j + spanOf lo hi
  rangeLo : lo ≤ pn.lo
  range : pn.lo ≤ pn.hi
  rangeHi : pn.hi ≤ hi
  len : pn.len = pn.seq.length
  seq : pn.seq = seq.filter fun c => decide (pn.lo ≤ c) && decide (c ≤ pn.hi)
  isRoot : pn.isRoot = (root && decide (pn.slot = j))
  leftMem : pn.lo < pn.hi → pn.leftChild ∈ plan
  rightMem : pn.lo < pn.hi → pn.rightChild ∈ plan

theorem planTree_good {fuel j lo hi : Nat} {seq : List Nat} (root : Bool) (hf : hi - lo < fuel) (hle : lo ≤ hi)
    (hs : ∀ c ∈ seq, lo ≤ c ∧ c ≤ hi) :
    let plan := planTree fuel j lo hi seq.length seq root
    (∀ pn ∈ plan, pn.Good plan j lo hi seq root) ∧ (plan.map PlanNode.slot).Nodup ∧
      (∀ x, j ≤ x → x < j + spanOf lo hi → ∃ pn ∈ plan, pn.slot = x) ∧
      { slot := j, lo := lo, hi := hi, len := seq.length, seq := seq, isRoot := root } ∈ plan := by
  induction fuel generalizing j lo hi seq root with
  | zero => omega
  | succ fuel ih =>
    have hself : seq = seq.filter fun c => decide (lo ≤ c) && decide (c ≤ hi) := by
      symm
      rw [List.filter_eq_self]
      intro c hc
      simpa using hs c hc
    by_cases hlt : lo < hi
    · have hmid : lo ≤ midOf lo hi ∧ midOf lo hi < hi := by unfold midOf; omega
      have hls : ∀ c ∈ leftSeq lo hi seq, lo ≤ c ∧ c ≤ midOf lo hi := by
        intro c hc
        have := List.mem_filter.mp hc
        exact ⟨(hs c this.1).1, by simpa using this.2⟩
      have hrs : ∀ c ∈ rightSeq lo hi seq, midOf lo hi + 1 ≤ c ∧ c ≤ hi := by
        intro c hc
        have := List.mem_filter.mp hc
        exact ⟨by simpa using this.2, (hs c this.1).2⟩
      obtain ⟨a1, a2, a3, a4⟩ := ih (j := j + 1) (lo := lo) (hi := midOf lo hi) false (by omega) hmid.1 hls
      obtain ⟨b1, b2, b3, b4⟩ := ih (j := rightSlot j lo hi) (lo := midOf lo hi + 1) (hi := hi) false
        (by omega) (by omega) hrs
      have hplan : planTree (fuel + 1) j lo hi seq.length seq root =
          { slot := j, lo := lo, hi := hi, len := seq.length, seq := seq, isRoot := root } ::
            (planTree fuel (j + 1) lo (midOf lo hi) (leftSeq lo hi seq).length (leftSeq lo hi seq) false
              ++ planTree fuel (rightSlot j lo hi) (midOf lo hi + 1) hi (rightSeq lo hi seq).length
                (rightSeq lo hi seq) false) := by
        rw [planTree, if_pos hlt]
      have hspanL : spanOf lo (midOf lo hi) = 2 * (midOf lo hi - lo + 1) - 1 := rfl
      have hspanR : spanOf (midOf lo hi + 1) hi = 2 * (hi - (midOf lo hi + 1) + 1) - 1 := rfl
      have hspan : spanOf lo hi = 2 * (hi - lo + 1) - 1 := rfl
      have hrsl : rightSlot j lo hi = j + 2 * (midOf lo hi - lo + 1) := rfl
      have posSpan : ∀ x y, 1 ≤ spanOf x y := fun x y => by unfold spanOf; omega
      have hall : ∀ pn ∈ planTree (fuel + 1) j lo hi seq.length seq root,
          pn.Good (planTree (fuel + 1) j lo hi seq.length seq root) j lo hi seq root := by
        intro pn hpn
        rw [hplan] at hpn
        rcases List.mem_cons.mp hpn with rfl | hin
        · refine ⟨Nat.le_refl _, Nat.le_refl _, Nat.le_refl _, hle, Nat.le_refl _, rfl, hself, by simp, ?_, ?_⟩
          · intro _
            rw [hplan]
            exact List.mem_cons_of_mem _ (List.mem_append_left _ a4)
          · intro _
            rw [hplan]
            exact List.mem_cons_of_mem _ (List.mem_append_right _ b4)
        · rcases List.mem_append.mp hin with hL | hR
          · have g := a1 pn hL
            have g1 := g.slotLo
            have g2 := g.slotHi
            have g3 := g.rangeHi
            have g4 := g.rangeLo
            refine ⟨by omega, by omega, g4, g.range, by omega, g.len, ?_, ?_, ?_, ?_⟩
            · refine g.seq.trans ?_
              rw [leftSeq, List.filter_filter]
              refine List.filter_congr fun c hc => ?_
              by_cases h1 : pn.lo ≤ c <;> by_cases h2 : c ≤ pn.hi <;>
                simp only [h1, h2, decide_true, decide_false, Bool.true_and, Bool.false_and, Bool.and_false,
                  Bool.and_true, decide_eq_true_eq]
              omega
            · rw [g.isRoot]
              simp; omega
            · intro h; rw [hplan]; exact List.mem_cons_of_mem _ (List.mem_append_left _ (g.leftMem h))
            · intro h; rw [hplan]; exact List.mem_cons_of_mem _ (List.mem_append_left _ (g.rightMem h))
          · have g := b1 pn hR
            have g1 := g.slotLo
            have g2 := g.slotHi
            have g3 := g.rangeHi
            have g4 := g.rangeLo
            refine ⟨by omega, by omega, by omega, g.range, g3, g.len, ?_, ?_, ?_, ?_⟩
            · refine g.seq.trans ?_
              rw [rightSeq, List.filter_filter]
              refine List.filter_congr fun c hc => ?_
              by_cases h1 : pn.lo ≤ c <;> by_cases h2 : c ≤ pn.hi <;>
                simp only [h1, h2, decide_true, decide_false, Bool.true_and, Bool.false_and, Bool.and_false,
                  Bool.and_true, decide_eq_true_eq]
              omega
            · rw [g.isRoot]
              simp; omega
            · intro h; rw [hplan]; exact List.mem_cons_of_mem _ (List.mem_append_right _ (g.leftMem h))
            · intro h; rw [hplan]; exact List.mem_cons_of_mem _ (List.mem_append_right _ (g.rightMem h))
      refine ⟨hall, ?_, ?_, ?_⟩
      · rw [hplan, List.map_cons, List.map_append, List.nodup_cons]
        refine ⟨?_, List.nodup_append'.mpr ⟨a2, b2, ?_⟩⟩
        · rw [List.mem_append]
          rintro (h | h) <;> obtain ⟨q, hq, he⟩ := List.mem_map.mp h
          · have := (a1 q hq).slotLo; simp only at he; omega
          · have := (b1 q hq).slotLo; simp only at he; omega
        · intro x hx hy
          obtain ⟨p, hp, rfl⟩ := List.mem_map.mp hx
          obtain ⟨q, hq, he⟩ := List.mem_map.mp hy
          have h1 := (a1 p hp).slotHi
          have h2 := (b1 q hq).slotLo
          have := posSpan p.lo p.hi
          omega
      · intro x hx1 hx2
        rw [hplan]
        rcases Nat.eq_or_lt_of_le hx1 with rfl | hx1
        · exact ⟨_, List.mem_cons_self .., rfl⟩
        · rcases Nat.lt_or_ge x (rightSlot j lo hi) with hL | hR
          · obtain ⟨p, hp, he⟩ := a3 x hx1 (by omega)
            exact ⟨p, List.mem_cons_of_mem _ (List.mem_append_left _ hp), he⟩
          · obtain ⟨p, hp, he⟩ := b3 x hR (by omega)
            exact ⟨p, List.mem_cons_of_mem _ (List.mem_append_right _ hp), he⟩
      · rw [hplan]; exact List.mem_cons_self ..
    · obtain rfl : lo = hi := by omega
      have hplan : planTree (fuel + 1) j lo lo seq.length seq root =
          [{ slot := j, lo := lo, hi := lo, len := seq.length, seq := seq, isRoot := root }] := by
        rw [planTree, if_neg hlt]
      have hspan : spanOf lo lo = 1 := by unfold spanOf; omega
      simp only [hplan]
      refine ⟨fun pn hpn => ?_, by simp, fun x h1 h2 => ?_, List.mem_singleton_self _⟩
      · rcases List.mem_singleton.mp hpn with rfl
        exact ⟨Nat.le_refl _, Nat.le_refl _, Nat.le_refl _, Nat.le_refl _, Nat.le_refl _, rfl, hself, by simp,
          fun h => absurd h hlt, fun h => absurd h hlt⟩
      · exact ⟨_, List.mem_singleton_self _, show j = x by omega⟩

/-- What holds of the plan of a whole tree over ids below `a`. -/
structure PlanGood (k a : Nat) (seq : List Nat) (plan : List PlanNode) : Prop where
  nodes : ∀ pn ∈ plan, pn.Good plan k 0 (a - 1) seq true
  nodup : (plan.map PlanNode.slot).Nodup
  cover : ∀ x, k ≤ x → x < k + runLength a → ∃ pn ∈ plan, pn.slot = x
  root : { slot := k, lo := 0, hi := a - 1, len := seq.length, seq := seq, isRoot := true } ∈ plan

theorem spanOf_run {a : Nat} (h : 1 ≤ a) : spanOf 0 (a - 1) = runLength a := by unfold spanOf runLength; omega

theorem treePlan_good (k : Nat) {a : Nat} {seq : List Nat} (ha : 1 ≤ a) (hs : idsInRange a seq = true) :
    PlanGood k a seq (treePlan k a seq.length seq) := by
  have hs' : ∀ c ∈ seq, 0 ≤ c ∧ c ≤ a - 1 := by
    intro c hc
    have := List.all_eq_true.mp hs c hc
    simp only [decide_eq_true_eq] at this
    omega
  obtain ⟨h1, h2, h3, h4⟩ := planTree_good (fuel := a) (j := k) true (by omega) (Nat.zero_le (a - 1)) hs'
  rw [spanOf_run ha] at h3
  exact ⟨h1, h2, h3, h4⟩

theorem PlanGood.slot_lt {k a : Nat} {seq : List Nat} {plan : List PlanNode} (h : PlanGood k a seq plan) (ha : 1 ≤ a)
    {pn : PlanNode} (hpn : pn ∈ plan) : k ≤ pn.slot ∧ pn.slot < k + runLength a := by
  have g := h.nodes pn hpn
  have g2 := g.slotHi
  have : 1 ≤ spanOf pn.lo pn.hi := by unfold spanOf; omega
  rw [spanOf_run ha] at g2
  exact ⟨g.slotLo, by omega⟩

/-- Every internal node of a tree over an input where every id occurs has two elements or more (44_wavelet.md R173). -/
theorem PlanGood.two_le {k a : Nat} {seq : List Nat} {plan : List PlanNode} (h : PlanGood k a seq plan) (ha : 1 ≤ a)
    (hocc : idsAllOccur a seq = true) {pn : PlanNode} (hpn : pn ∈ plan) (hlt : pn.lo < pn.hi) :
    2 ≤ pn.seq.length := by
  have g := h.nodes pn hpn
  have gh := g.rangeHi
  have hmem : ∀ c, c < a → c ∈ seq := fun c hc => by
    have := List.all_eq_true.mp hocc c (List.mem_range.mpr hc)
    simpa using this
  have hlo : pn.lo ∈ pn.seq := by
    rw [g.seq, List.mem_filter]
    exact ⟨hmem _ (by omega), by simp; omega⟩
  have hhi : pn.hi ∈ pn.seq := by
    rw [g.seq, List.mem_filter]
    exact ⟨hmem _ (by omega), by simp; omega⟩
  rcases hq : pn.seq with _ | ⟨x, _ | ⟨y, rest⟩⟩
  · rw [hq] at hlo; cases hlo
  · rw [hq] at hlo hhi
    have h1 := List.mem_singleton.mp hlo
    have h2 := List.mem_singleton.mp hhi
    omega
  · simp

/-! One node's slot after a build (44_wavelet.md R174). -/

/-- The elements of a sequence that go to the side of a bit. -/
def sideOf (lo hi v c : Nat) : Bool := if v = 1 then decide (midOf lo hi < c) else decide (c ≤ midOf lo hi)

theorem PlanNode.bits_of_lt {pn : PlanNode} (h : pn.lo < pn.hi) :
    pn.bits = BitArray.pack 1 (pn.seq.map fun c => if midOf pn.lo pn.hi < c then 1 else 0) := by
  rw [PlanNode.bits, if_pos h]

theorem PlanNode.bits_len {pn : PlanNode} (h : pn.lo < pn.hi) (hl : pn.seq.length < 2 ^ 64) :
    pn.bits.len = pn.seq.length := by
  rw [bits_of_lt h, BitArray.pack_len] <;> rw [List.length_map, Nat.mul_one]
  exact hl

theorem PlanNode.bits_bit {pn : PlanNode} (h : pn.lo < pn.hi) {i : Nat} (hi : i < pn.seq.length) :
    pn.bits.bit i = if midOf pn.lo pn.hi < pn.seq[i] then 1 else 0 := by
  have hp := BitArray.getInt_pack (w := 1) (vals := pn.seq.map fun c => if midOf pn.lo pn.hi < c then 1 else 0)
    (i := i) (by rw [List.length_map]; exact hi)
  rw [bits_of_lt h]
  simp only [BitArray.getInt, Nat.mul_one, Nat.add_zero, Nat.pow_zero, Nat.zero_add, List.getElem_map] at hp
  rw [hp]
  split <;> rfl

theorem PlanNode.bits_side {pn : PlanNode} (h : pn.lo < pn.hi) {i v : Nat} (hi : i < pn.seq.length) (hv : v < 2) :
    pn.bits.bit i = v ↔ sideOf pn.lo pn.hi v pn.seq[i] = true := by
  rw [bits_bit h hi]
  unfold sideOf
  have : v = 0 ∨ v = 1 := by omega
  rcases this with rfl | rfl
  · simp
  · simp

/-- Counting a node's bits counts the elements that go to that side. -/
theorem PlanNode.bits_count {pn : PlanNode} (h : pn.lo < pn.hi) (hl : pn.seq.length < 2 ^ 64) {v : Nat} (hv : v < 2)
    {n : Nat} (hn : n ≤ pn.seq.length) :
    pn.bits.count v 0 n = (pn.seq.take n).countP (sideOf pn.lo pn.hi v) := by
  induction n with
  | zero => rw [BitArray.count_self]; simp
  | succ n ih =>
    have hlt : n < pn.seq.length := hn
    rw [BitArray.count_succ, ih (by omega), countP_take_succ _ _ hlt]
    congr 1
    by_cases hb : pn.bits.bit n = v
    · rw [if_pos ⟨Nat.zero_le _, by rw [bits_len h hl]; exact hlt, hb⟩, if_pos ((bits_side h hlt hv).mp hb)]
    · rw [if_neg (by tauto), if_neg (by rw [← bits_side h hlt hv]; exact hb)]

/-- The child on the side of a bit, with its sequence. -/
def PlanNode.childOn (pn : PlanNode) (v : Nat) : PlanNode := if v = 1 then pn.rightChild else pn.leftChild

theorem PlanNode.childOn_seq (pn : PlanNode) (v : Nat) :
    (pn.childOn v).seq = pn.seq.filter (sideOf pn.lo pn.hi v) := by
  unfold PlanNode.childOn sideOf
  split
  · rfl
  · rfl

theorem PlanNode.childOn_len (pn : PlanNode) (v : Nat) : (pn.childOn v).len = (pn.childOn v).seq.length := by
  unfold PlanNode.childOn; split <;> rfl

/-- A tree of slots that stand as built: what the two walks rely on. -/
structure Stands (s : State) (w k a : Nat) (seq : List Nat) (plan : List PlanNode) : Prop where
  good : PlanGood k a seq plan
  occur : idsAllOccur a seq = true
  alphabetPos : 1 ≤ a
  alphabetMax : a ≤ 256
  fits : k + runLength a ≤ 1024
  length : seq.length < 2 ^ 64
  built : ∀ pn ∈ plan, s.slot pn.slot = pn.build w (s.slot pn.slot)

theorem treeIds_length (input : BitArray) (a m : Nat) : (treeIds input a m).length = m := by
  simp [treeIds, inputIds]

theorem TreeOver.stands {s : State} {k a m : Nat} {input : BitArray} (h : TreeOver s k a m input)
    (hc : s.config.ok = true) :
    Stands s (symbolWidth a) k a (treeIds input a m) (treePlan k a m (treeIds input a m)) := by
  have hg := treePlan_good k h.alphabetPos h.inRange
  rw [treeIds_length] at hg
  have hn : s.config.nslot ≤ 1024 := by
    simp only [Config.ok, Bool.and_eq_true, decide_eq_true_eq] at hc
    exact hc.1.2
  exact ⟨hg, h.allOccur, h.alphabetPos, h.alphabetMax, h.fits.trans hn, by rw [treeIds_length]; exact h.lengthMax,
    h.built⟩

theorem symbolWidth_le {a : Nat} (h : a ≤ 256) : symbolWidth a ≤ 8 := bitLen_le_of_lt (by omega)

section Node

variable {s : State} {w k a : Nat} {seq : List Nat} {plan : List PlanNode} {pn : PlanNode}

theorem Stands.seq_length (h : Stands s w k a seq plan) (hpn : pn ∈ plan) : pn.seq.length < 2 ^ 64 := by
  rw [(h.good.nodes pn hpn).seq]
  exact lt_of_le_of_lt (List.length_filter_le _ _) h.length

theorem Stands.node (h : Stands s w k a seq plan) (hpn : pn ∈ plan) :
    (s.slot pn.slot).node = some (pn.descriptor w) := by
  rw [h.built pn hpn, PlanNode.build]
  split <;> rfl

theorem Stands.partitionBits (h : Stands s w k a seq plan) (hpn : pn ∈ plan) :
    (s.slot pn.slot).partitionBits = some pn.bits := by
  rw [h.built pn hpn, PlanNode.build]
  split <;> rfl

theorem Stands.hasDict (h : Stands s w k a seq plan) (hpn : pn ∈ plan) (hlt : pn.lo < pn.hi) :
    HasDict s pn.slot pn.bits := by
  refine ⟨h.partitionBits hpn, ?_, ?_⟩
  · rw [PlanNode.bits_len hlt (h.seq_length hpn)]
    exact h.good.two_le h.alphabetPos h.occur hpn hlt
  · have hb := h.built pn hpn
    rw [PlanNode.build, if_pos hlt] at hb
    rw [hb, Slot.withDict_withDict]

/-- The scalars of a node, as numbers. -/
theorem Stands.descriptor (h : Stands s w k a seq plan) (hpn : pn ∈ plan) :
    (pn.descriptor w).seqLen.toNat = pn.seq.length ∧ (pn.descriptor w).alphabetLow.toNat = pn.lo ∧
      (pn.descriptor w).alphabetHigh.toNat = pn.hi ∧ (pn.descriptor w).mid = midOf pn.lo pn.hi ∧
      ((pn.descriptor w).isLeaf = decide (pn.lo = pn.hi)) := by
  have g := h.good.nodes pn hpn
  have ha := h.alphabetMax
  have g1 := g.range
  have g2 := g.rangeHi
  have hlo : (BitVec.ofNat 8 pn.lo).toNat = pn.lo := by rw [BitVec.toNat_ofNat, Nat.mod_eq_of_lt (by omega)]
  have hhi : (BitVec.ofNat 8 pn.hi).toNat = pn.hi := by rw [BitVec.toNat_ofNat, Nat.mod_eq_of_lt (by omega)]
  refine ⟨?_, hlo, hhi, ?_, ?_⟩
  · show (BitVec.ofNat 64 pn.len).toNat = _
    rw [BitVec.toNat_ofNat, g.len, Nat.mod_eq_of_lt (h.seq_length hpn)]
  · show midOf (BitVec.ofNat 8 pn.lo).toNat (BitVec.ofNat 8 pn.hi).toNat = _
    rw [hlo, hhi]
  · show (BitVec.ofNat 8 pn.lo == BitVec.ofNat 8 pn.hi) = _
    by_cases he : pn.lo = pn.hi
    · simp [he]
    · have : BitVec.ofNat 8 pn.lo ≠ BitVec.ofNat 8 pn.hi := fun hc => he (by rw [← hlo, ← hhi, hc])
      simp [he, this]

/-- The link on the side of a bit leads to the child of the plan. -/
theorem Stands.child (h : Stands s w k a seq plan) (hpn : pn ∈ plan) (hlt : pn.lo < pn.hi) {v : Nat} (hv : v < 2) :
    ∃ c : SlotNum, (pn.descriptor w).child v = some c ∧ c.toNat = (pn.childOn v).slot ∧ pn.childOn v ∈ plan := by
  have g := h.good.nodes pn hpn
  have hfit := h.fits
  have hrun := fun {p} => h.good.slot_lt h.alphabetPos (pn := p)
  have hv' : v = 0 ∨ v = 1 := by omega
  rcases hv' with rfl | rfl
  · have hm := g.leftMem hlt
    have hlt' := (hrun hm).2
    refine ⟨BitVec.ofNat 10 (pn.slot + 1), ?_, ?_, hm⟩
    · simp [Node.child, PlanNode.descriptor, hlt]
    · change pn.slot + 1 < _ at hlt'
      rw [BitVec.toNat_ofNat, Nat.mod_eq_of_lt (by omega)]
      rfl
  · have hm := g.rightMem hlt
    have hlt' := (hrun hm).2
    refine ⟨BitVec.ofNat 10 (rightSlot pn.slot pn.lo pn.hi), ?_, ?_, hm⟩
    · simp [Node.child, PlanNode.descriptor, hlt]
    · change rightSlot pn.slot pn.lo pn.hi < _ at hlt'
      rw [BitVec.toNat_ofNat, Nat.mod_eq_of_lt (by omega)]
      rfl

/-- Each split shortens the path. -/
theorem childOn_depth {v : Nat} (hlt : pn.lo < pn.hi) :
    bitLen ((pn.childOn v).hi - (pn.childOn v).lo) + 1 ≤ bitLen (pn.hi - pn.lo) := by
  have hp := bitLen_pos (show 0 < pn.hi - pn.lo by omega)
  have hh : (pn.childOn v).hi - (pn.childOn v).lo ≤ (pn.hi - pn.lo) / 2 := by
    unfold PlanNode.childOn
    split
    · show pn.hi - (midOf pn.lo pn.hi + 1) ≤ _
      unfold midOf; omega
    · show midOf pn.lo pn.hi - pn.lo ≤ _
      unfold midOf; omega
  have := bitLen_mono hh
  rw [bitLen_half] at this
  omega

/-- Every element of a leaf is its symbol. -/
theorem Stands.leaf_seq (h : Stands s w k a seq plan) (hpn : pn ∈ plan) (he : pn.lo = pn.hi) :
    ∀ c ∈ pn.seq, c = pn.lo := by
  intro c hc
  rw [(h.good.nodes pn hpn).seq, List.mem_filter] at hc
  have := hc.2
  simp at this
  omega

/-- What the rank walk answers: past the node's sequence the sentinel, else how often the symbol at `idx` has occurred
up to and with `idx` (44_wavelet.md R176, R184 (b)). -/
theorem wtRank_stands (h : Stands s w k a seq plan) (fuel : Nat) (hpn : pn ∈ plan)
    (hf : bitLen (pn.hi - pn.lo) < fuel) (idx : Nat) :
    (pn.seq.length ≤ idx → wtRank s fuel pn.slot idx = sentinelNat) ∧
      ∀ hi : idx < pn.seq.length, wtRank s fuel pn.slot idx = (pn.seq.take (idx + 1)).count pn.seq[idx] := by
  induction fuel generalizing pn idx with
  | zero => omega
  | succ fuel ih =>
    obtain ⟨d1, d2, d3, d4, d5⟩ := h.descriptor hpn
    rw [wtRank, h.node hpn]
    simp only [d1, d5]
    refine ⟨fun hge => by rw [if_pos hge], fun hi => ?_⟩
    rw [if_neg (by omega)]
    by_cases he : pn.lo = pn.hi
    · rw [if_pos (by simpa using he)]
      have hall := h.leaf_seq hpn he
      have hidx := hall _ (List.getElem_mem hi)
      rw [List.count_eq_length.mpr]
      · rw [List.length_take]; omega
      · intro c hc
        rw [hidx]
        exact (hall c (List.mem_of_mem_take hc)).symm
    · have hlt : pn.lo < pn.hi := by have := (h.good.nodes pn hpn).range; omega
      rw [if_neg (by simpa using he)]
      have hd := h.hasDict hpn hlt
      have hP : (s.slot pn.slot).array .P = pn.bits := Slot.array_of_arr (r := .P) (h.partitionBits hpn)
      rw [hP, hd.tables.2.1]
      obtain ⟨v, hvd⟩ : ∃ v, pn.bits.bit idx = v := ⟨_, rfl⟩
      have hv : v < 2 := hvd ▸ pn.bits.bit_lt_two idx
      rw [hvd]
      obtain ⟨c, hc1, hc2, hc3⟩ := h.child hpn hlt hv
      rw [hc1]
      simp only
      have hside := (PlanNode.bits_side hlt hi hv).mp hvd
      have hblen := PlanNode.bits_len hlt (h.seq_length hpn)
      rw [rankOf_of_hasDict hd hv (by rw [hblen]; exact hi), PlanNode.bits_count hlt (h.seq_length hpn) hv hi,
        countP_take_succ _ _ hi, if_pos hside, Nat.add_sub_cancel, hc2]
      obtain ⟨hq, hqe⟩ := getElem_filter_of (sideOf pn.lo pn.hi v) pn.seq hi hside
      have hdep := childOn_depth (v := v) hlt
      have hrec := (ih hc3 (by omega) ((pn.seq.take idx).countP (sideOf pn.lo pn.hi v))).2
      rw [hrec (by rw [PlanNode.childOn_seq]; exact hq)]
      have hcs := pn.childOn_seq v
      simp only [hcs, hqe]
      have hct := count_filter_take (p := sideOf pn.lo pn.hi v) hside pn.seq (idx + 1)
      rwa [countP_take_succ _ _ hi, if_pos hside] at hct

/-- What a select of the `occ`-th `c` in a sequence may answer (44_wavelet.md R178, R184 (c)). -/
def SeqSelect (seq : List Nat) (c occ v : Nat) : Prop :=
  (∃ h : v < seq.length, seq[v] = c ∧ (seq.take (v + 1)).count c = occ) ∨
    ((occ = 0 ∨ seq.count c < occ) ∧ v = sentinelNat)

/-- What the select walk answers for a symbol of the node's range (44_wavelet.md R178, R184 (c)). -/
theorem wtSelect_stands (h : Stands s w k a seq plan) (fuel : Nat) (hpn : pn ∈ plan)
    (hf : bitLen (pn.hi - pn.lo) < fuel) {c : Nat} (hlo : pn.lo ≤ c) (hhi : c ≤ pn.hi) (occ : Nat) :
    SeqSelect pn.seq c occ (wtSelect s fuel pn.slot c occ) := by
  induction fuel generalizing pn with
  | zero => omega
  | succ fuel ih =>
    obtain ⟨d1, d2, d3, d4, d5⟩ := h.descriptor hpn
    have hslen := h.seq_length hpn
    rw [wtSelect, h.node hpn]
    simp only [d1, d4, d5]
    by_cases he : pn.lo = pn.hi
    · rw [if_pos (by simpa using he)]
      have hall := h.leaf_seq hpn he
      have hcount : ∀ n, n ≤ pn.seq.length → (pn.seq.take n).count c = n := by
        intro n hn
        rw [List.count_eq_length.mpr]
        · rw [List.length_take]; omega
        · intro x hx
          have := hall x (List.mem_of_mem_take hx)
          omega
      by_cases ho : occ = 0 ∨ pn.seq.length < occ
      · rw [if_pos ho]
        refine Or.inr ⟨?_, rfl⟩
        have := hcount pn.seq.length (Nat.le_refl _)
        rw [List.take_length] at this
        omega
      · rw [if_neg ho]
        refine Or.inl ⟨by omega, ?_, ?_⟩
        · have := hall _ (List.getElem_mem (show occ - 1 < pn.seq.length by omega))
          omega
        · rw [show occ - 1 + 1 = occ by omega]
          exact hcount occ (by omega)
    · have hlt : pn.lo < pn.hi := by have := (h.good.nodes pn hpn).range; omega
      rw [if_neg (by simpa using he)]
      have hd := h.hasDict hpn hlt
      rw [hd.tables.2.1]
      obtain ⟨v, hvd⟩ : ∃ v, (if c ≤ midOf pn.lo pn.hi then 0 else 1) = v := ⟨_, rfl⟩
      rw [hvd]
      have hv : v < 2 := by rw [← hvd]; split <;> omega
      have hside : sideOf pn.lo pn.hi v c = true := by
        unfold sideOf
        by_cases hm : c ≤ midOf pn.lo pn.hi
        · rw [if_pos hm] at hvd; subst hvd; simpa using hm
        · rw [if_neg hm] at hvd; subst hvd; simpa using hm
      obtain ⟨ch, hc1, hc2, hc3⟩ := h.child hpn hlt hv
      rw [hc1]
      simp only [hc2]
      have hdep := childOn_depth (v := v) hlt
      have hclo : (pn.childOn v).lo ≤ c ∧ c ≤ (pn.childOn v).hi := by
        unfold PlanNode.childOn
        by_cases hm : c ≤ midOf pn.lo pn.hi
        · rw [if_pos hm] at hvd; subst hvd; exact ⟨hlo, hm⟩
        · rw [if_neg hm] at hvd; subst hvd; exact ⟨by show midOf pn.lo pn.hi + 1 ≤ c; omega, hhi⟩
      have hrec := ih hc3 (by omega) hclo.1 hclo.2
      generalize wtSelect s fuel (pn.childOn v).slot c occ = ci at hrec
      have hcs := pn.childOn_seq v
      unfold SeqSelect at hrec
      simp only [hcs] at hrec
      have hblen := PlanNode.bits_len hlt hslen
      have hfl := List.length_filter_le (sideOf pn.lo pn.hi v) pn.seq
      have hsel := select_of_hasDict hd hv ((ci + 1) % 2 ^ 64)
      generalize select _ _ _ _ = p at hsel
      have hctot : pn.bits.count v 0 pn.bits.len = (pn.seq.filter (sideOf pn.lo pn.hi v)).length := by
        rw [hblen, PlanNode.bits_count hlt hslen hv (Nat.le_refl _), List.take_length,
          List.countP_eq_length_filter]
      rcases hrec with ⟨hci, hcie, hcic⟩ | ⟨hno, hci⟩
      · have hmod : (ci + 1) % 2 ^ 64 = ci + 1 := Nat.mod_eq_of_lt (by omega)
        rw [hmod] at hsel
        rcases hsel with ⟨s1, s2, s3, s4⟩ | ⟨s1, s2⟩
        · rw [hblen] at s2
          rw [PlanNode.bits_count hlt hslen hv s2] at s4
          have hps := (PlanNode.bits_side hlt s2 hv).mp s3
          obtain ⟨hq, hqe⟩ := getElem_filter_of (sideOf pn.lo pn.hi v) pn.seq s2 hps
          have hs4 := s4
          rw [countP_take_succ _ _ s2, if_pos hps] at hs4
          have hci' : (pn.seq.take p).countP (sideOf pn.lo pn.hi v) = ci := by omega
          simp only [hci'] at hqe
          refine Or.inl ⟨s2, by rw [← hqe]; exact hcie, ?_⟩
          rw [← count_filter_take hside pn.seq (p + 1), s4]
          exact hcic
        · rw [hctot] at s1
          omega
      · have hmod : (ci + 1) % 2 ^ 64 = 0 := by rw [hci]; decide
        rw [hmod] at hsel
        rcases hsel with ⟨s1, -⟩ | ⟨-, s2⟩
        · omega
        · refine Or.inr ⟨?_, s2⟩
          rwa [List.count_filter hside] at hno

end Node

/-- The depth of a whole tree's path (44_wavelet.md R172). -/
theorem Stands.depth {s : State} {w k a : Nat} {seq : List Nat} {plan : List PlanNode} {pn : PlanNode}
    (h : Stands s w k a seq plan) (hpn : pn ∈ plan) : bitLen (pn.hi - pn.lo) < maxPath := by
  have g := (h.good.nodes pn hpn).rangeHi
  have := h.alphabetMax
  have hb : bitLen (pn.hi - pn.lo) ≤ 8 := bitLen_le_of_lt (by omega)
  unfold maxPath
  omega

end Sys2Proof.Machine
end

