-- ==== Sys2Proof/Laws/Build.lean ====
section
/-!
SUPPORT. Laws/Build.lean: what the checks and the build of WT.BUILD come to, that the array operations keep an array
well-formed, and how many bytes a build creates.
-/

namespace Sys2Proof.Machine

/-! The checks (44_wavelet.md R175). -/

theorem Slot.vacantButSymbols_iff (sl : Slot) :
    sl.vacantButSymbols = true ↔ sl = { Slot.empty with symbols := sl.symbols } := by
  obtain ⟨p, y, sb, bl, rd, nd⟩ := sl
  simp only [Slot.vacantButSymbols, Slot.empty, Bool.and_eq_true, Option.isNone_iff_eq_none, Slot.mk.injEq]
  tauto

theorem Slot.empty_iff (sl : Slot) : (sl.vacantButSymbols = true ∧ sl.symbols.isNone = true) ↔ sl = Slot.empty := by
  obtain ⟨p, y, sb, bl, rd, nd⟩ := sl
  simp only [Slot.vacantButSymbols, Slot.empty, Bool.and_eq_true, Option.isNone_iff_eq_none, Slot.mk.injEq]
  tauto

/-- Check 5: every slot of the run is empty, but for the input. -/
theorem State.runVacant_iff (s : State) (k : Nat) {a : Nat} (ha : 1 ≤ a) :
    s.runVacant k a = true ↔
      s.slot k = { Slot.empty with symbols := (s.slot k).symbols } ∧
        ∀ t, t < 2 * a - 1 → t ≠ 0 → s.slot (k + t) = Slot.empty := by
  rw [State.runVacant, List.all_eq_true]
  constructor
  · intro h
    refine ⟨?_, fun t ht h0 => ?_⟩
    · have := h 0 (List.mem_range.mpr (by unfold runLength; omega))
      simp only [Bool.and_eq_true] at this
      exact (Slot.vacantButSymbols_iff _).mp this.1
    · have := h t (List.mem_range.mpr ht)
      simp only [Bool.and_eq_true, Bool.or_eq_true, decide_eq_true_eq] at this
      exact (Slot.empty_iff _).mp ⟨this.1, this.2.resolve_left h0⟩
  · rintro ⟨h1, h2⟩ t ht
    have ht := List.mem_range.mp ht
    simp only [Bool.and_eq_true, Bool.or_eq_true, decide_eq_true_eq]
    by_cases h0 : t = 0
    · subst h0
      exact ⟨(Slot.vacantButSymbols_iff _).mpr h1, Or.inl rfl⟩
    · have := (Slot.empty_iff _).mpr (h2 t ht h0)
      exact ⟨this.1, Or.inr this.2⟩

theorem treeIds_one (input : BitArray) (m : Nat) : treeIds input 1 m = List.replicate m 0 := by
  rw [treeIds, inputIds, show symbolWidth 1 = 0 from rfl]
  exact List.map_const' .. |>.trans (by rw [List.length_range])

/-- Checks 8 and 9 on the list the model works on are the checks on the input's elements. -/
theorem buildIdsOk_buildIds (input : BitArray) (a : Nat) {m : Nat} (hm : 1 ≤ m) :
    buildIdsOk a (buildIds input m a)
      = (idsInRange a (treeIds input a m) && idsAllOccur a (treeIds input a m)) := by
  by_cases ha : a = 1
  · subst ha
    have h1 : idsInRange 1 (List.replicate m 0) = true :=
      List.all_eq_true.mpr fun c hc => by rw [List.eq_of_mem_replicate hc]; rfl
    have h2 : idsAllOccur 1 (List.replicate m 0) = true := by
      refine List.all_eq_true.mpr fun c hc => ?_
      obtain rfl : c = 0 := by have := List.mem_range.mp hc; omega
      exact List.elem_eq_true_of_mem (List.mem_replicate.mpr ⟨by omega, rfl⟩)
    rw [treeIds_one, h1, h2]
    rfl
  · rw [buildIdsOk, buildIds, if_neg ha, decide_eq_false ha, Bool.false_or]
    rfl

/-- A lone leaf's slot does not depend on the list (44_wavelet.md R171). -/
theorem buildPlan_buildIds (s : State) (w k a m : Nat) (input : BitArray) :
    s.buildPlan w (treePlan k a m (buildIds input m a)) = s.buildPlan w (treePlan k a m (treeIds input a m)) := by
  by_cases ha : a = 1
  · subst ha; rfl
  · rw [buildIds, if_neg ha]; rfl

theorem planNeed_buildIds (w k a m : Nat) (input : BitArray) :
    planNeed w (treePlan k a m (buildIds input m a)) = planNeed w (treePlan k a m (treeIds input a m)) := by
  by_cases ha : a = 1
  · subst ha; rfl
  · rw [buildIds, if_neg ha]; rfl

/-! Well-formed arrays (10_state.md R25). -/

theorem BitArray.zeros_wellFormed (n : Nat) : (BitArray.zeros n).WellFormed :=
  ⟨rfl, fun _ _ => BitArray.zeros_bit _ _⟩

theorem BitArray.WellFormed.setBit {a : BitArray} (h : a.WellFormed) {i : Nat} (hi : i < a.len) :
    (a.setBit i).WellFormed := by
  refine ⟨Memory.wf_write h.1 _ _, fun j hj => ?_⟩
  rw [BitArray.setBit_len] at hj
  rw [BitArray.bit_setBit, if_neg (by omega), h.2 j hj]

theorem BitArray.WellFormed.clearBit {a : BitArray} (h : a.WellFormed) (i : Nat) : (a.clearBit i).WellFormed := by
  refine ⟨Memory.wf_write h.1 _ _, fun j hj => ?_⟩
  rw [BitArray.clearBit_len] at hj
  rw [BitArray.bit_clearBit, h.2 j hj]
  split <;> rfl

theorem BitArray.WellFormed.setInt {a : BitArray} (h : a.WellFormed) {off w : Nat} (v : Nat) (hi : off + w ≤ a.len) :
    (a.setInt off w v).WellFormed := by
  refine ⟨BitArray.wf_setInt h.1 _ _ _, fun j hj => ?_⟩
  rw [BitArray.setInt_len] at hj
  rw [BitArray.bit_setInt, if_neg (by omega), h.2 j hj]

theorem BitArray.pack_wellFormed {w : Nat} {vals : List Nat} (h : vals.length * w < 2 ^ 64) :
    (BitArray.pack w vals).WellFormed := by
  refine ⟨BitArray.wf_pack _ _, fun j hj => ?_⟩
  rw [BitArray.pack_len h] at hj
  exact BitArray.bit_pack_above hj

theorem PlanNode.bits_wellFormed (pn : PlanNode) (h : pn.seq.length < 2 ^ 64) : pn.bits.WellFormed := by
  unfold PlanNode.bits
  split
  · exact BitArray.pack_wellFormed (by rw [List.length_map, Nat.mul_one]; exact h)
  · exact BitArray.zeros_wellFormed 0

/-! Bytes (10_state.md R28). -/

theorem arrBytes_some (a : BitArray) : arrBytes (some a) = bytesFor a.len := rfl

theorem Slot.withDict_bytes (sl : Slot) {b : BitArray} (h2 : 2 ≤ b.len) :
    (sl.withDict b).bytes
      = arrBytes sl.partitionBits + arrBytes sl.symbols + (sizeParams b.len).tableBytes := by
  obtain ⟨ht, -, -⟩ := buildTables_spec h2
  have hS : arrBytes (sl.withDict b).superblockTable = bytesFor (sizeParams b.len).sbtBits := by
    rw [Slot.withDict_superblockTable, arrBytes_some, ht.sbtLen]; rfl
  have hB : arrBytes (sl.withDict b).blockTable = bytesFor (sizeParams b.len).bltBits := by
    rw [Slot.withDict_blockTable, arrBytes_some, ht.bltLen]; rfl
  rw [Slot.bytes, hS, hB, Slot.withDict_partitionBits, Slot.withDict_symbols, SizeParams.tableBytes]
  omega

/-- What a node's build adds to what its slot held: the input if it is the root, nothing if not. -/
theorem PlanNode.build_bytes {w : Nat} {old : Slot} {pn : PlanNode} (hlen : pn.len = pn.seq.length)
    (h2 : pn.lo < pn.hi → 2 ≤ pn.seq.length) (hs : pn.seq.length < 2 ^ 64)
    (hw : pn.isRoot = false → pn.seq.length * w < 2 ^ 64) :
    (pn.build w old).bytes = pn.need w + if pn.isRoot then arrBytes old.symbols else 0 := by
  have hsym : arrBytes (if pn.isRoot then old.symbols else some (BitArray.pack w pn.seq))
      = (if pn.isRoot then 0 else bytesFor (pn.len * w)) + if pn.isRoot then arrBytes old.symbols else 0 := by
    rcases Bool.eq_false_or_eq_true pn.isRoot with hr | hr
    · simp only [hr, if_true, Nat.zero_add]
    · simp only [hr, Bool.false_eq_true, if_false, Nat.add_zero, arrBytes_some, BitArray.pack_len (hw hr), hlen]
  by_cases hlt : pn.lo < pn.hi
  · have hb := PlanNode.bits_len hlt hs
    rw [PlanNode.build, if_pos hlt, Slot.withDict_bytes _ (by rw [hb]; exact h2 hlt), PlanNode.need, if_pos hlt]
    simp only [hsym, arrBytes_some, hb, hlen]
    omega
  · have hb : pn.bits = BitArray.zeros 0 := by rw [PlanNode.bits, if_neg hlt]
    rw [PlanNode.build, if_neg hlt, PlanNode.need, if_neg hlt]
    have h0 : arrBytes (some (BitArray.zeros 0)) = 0 := rfl
    have hn : arrBytes none = 0 := rfl
    simp only [Slot.bytes, hsym, hb, h0, hn]
    omega

/-- Building a plan whose slots are distinct adds what each node adds. -/
theorem State.usedSum_buildPlan {s : State} (h : sparseWf Slot.empty 0 s.slots = true) (w : Nat)
    {plan : List PlanNode} (hd : (plan.map PlanNode.slot).Nodup)
    (hb : ∀ pn ∈ plan, (pn.build w (s.slot pn.slot)).bytes = pn.need w + (s.slot pn.slot).bytes) :
    (s.buildPlan w plan).usedSum = s.usedSum + planNeed w plan := by
  induction plan generalizing s with
  | nil => rfl
  | cons pn plan ih =>
    rw [List.map_cons, List.nodup_cons] at hd
    have h1 := State.usedSum_setSlot h pn.slot (pn.build w (s.slot pn.slot))
    have h2 := hb pn (List.mem_cons_self ..)
    have h3 := ih (s := s.setSlot pn.slot (pn.build w (s.slot pn.slot))) (State.setSlot_wf h _ _) hd.2 fun q hq => by
      have hne : q.slot ≠ pn.slot := fun he => hd.1 (List.mem_map.mpr ⟨q, hq, he⟩)
      rw [State.slot_setSlot_ne _ _ _ hne]
      exact hb q (List.mem_cons_of_mem _ hq)
    rw [State.buildPlan, h3]
    have h4 : planNeed w (pn :: plan) = pn.need w + planNeed w plan := by
      simp only [planNeed, List.map_cons, List.sum_cons]
    omega

theorem PlanNode.build_symbols (w : Nat) (old : Slot) (pn : PlanNode) :
    (pn.build w old).symbols = if pn.isRoot then old.symbols else some (BitArray.pack w pn.seq) := by
  by_cases hlt : pn.lo < pn.hi
  · rw [PlanNode.build, if_pos hlt]; rfl
  · rw [PlanNode.build, if_neg hlt]

/-- Building a node again over what its build left changes nothing. -/
theorem PlanNode.build_build (w : Nat) (old : Slot) (pn : PlanNode) :
    pn.build w (pn.build w old) = pn.build w old := by
  have hs : (if pn.isRoot then (pn.build w old).symbols else some (BitArray.pack w pn.seq))
      = if pn.isRoot then old.symbols else some (BitArray.pack w pn.seq) := by
    rw [PlanNode.build_symbols]
    split <;> rfl
  conv_lhs => rw [PlanNode.build]
  simp only [hs]
  rfl

/-- The whole of a successful WT.BUILD's effect on the slots: the run stands as built, all else stays. -/
theorem State.buildPlan_tree {s : State} {w k a : Nat} {seq : List Nat} {plan : List PlanNode}
    (h : PlanGood k a seq plan) (ha : 1 ≤ a) :
    (∀ pn ∈ plan, (s.buildPlan w plan).slot pn.slot = pn.build w (s.slot pn.slot)) ∧
      (∀ pn ∈ plan, (s.buildPlan w plan).slot pn.slot
        = pn.build w ((s.buildPlan w plan).slot pn.slot)) ∧
      ∀ j, j < k ∨ k + runLength a ≤ j → (s.buildPlan w plan).slot j = s.slot j := by
  have h1 : ∀ pn ∈ plan, (s.buildPlan w plan).slot pn.slot = pn.build w (s.slot pn.slot) := fun pn hpn =>
    State.buildPlan_slot_of_mem s w h.nodup hpn
  refine ⟨h1, fun pn hpn => ?_, fun j hj => ?_⟩
  · rw [h1 pn hpn, PlanNode.build_build]
  · refine State.buildPlan_slot_of_not_mem s w plan j fun pn hpn he => ?_
    have := h.slot_lt ha hpn
    omega

/-! A built tree, node by node. -/

/-- Every node of a tree that stands as built holds what 44_wavelet.md R174 says. -/
theorem TreeOver.nodeStands {s : State} {k a m : Nat} {input : BitArray} (hc : s.config.ok = true)
    (ht : TreeOver s k a m input) {pn : PlanNode} (hpn : pn ∈ treePlan k a m (treeIds input a m)) : NodeStands s (symbolWidth a) pn := by
  have st := ht.stands hc
  have g := st.good.nodes pn hpn
  have hsl := st.good.slot_lt ht.alphabetPos hpn
  obtain ⟨d1, d2, d3, d4, d5⟩ := st.descriptor hpn
  have hw := symbolWidth_le ht.alphabetMax
  have hlen := st.seq_length hpn
  have hf := st.fits
  have hil := input.bitCount.isLt
  have hinl := ht.inputLen
  refine ⟨⟨_, st.node hpn, rfl, d2, d3, ?_, d1, ?_, ?_⟩, ?_, fun he => ?_, fun hlt =>
    ⟨_, st.hasDict hpn hlt, PlanNode.bits_len hlt hlen, fun i h => PlanNode.bits_bit hlt h⟩⟩
  · show (BitVec.ofNat 8 _).toNat = _
    rw [BitVec.toNat_ofNat, Nat.mod_eq_of_lt (by omega)]
  · simp only [PlanNode.descriptor]
    split
    · next h =>
      have := (st.good.slot_lt ht.alphabetPos (g.leftMem h)).2
      change pn.slot + 1 < _ at this
      show (BitVec.ofNat 10 _).toNat = _
      rw [BitVec.toNat_ofNat, Nat.mod_eq_of_lt (by omega)]
    · rfl
  · simp only [PlanNode.descriptor]
    split
    · next h =>
      have := (st.good.slot_lt ht.alphabetPos (g.rightMem h)).2
      change rightSlot _ _ _ < _ at this
      show (BitVec.ofNat 10 _).toNat = _
      rw [BitVec.toNat_ofNat, Nat.mod_eq_of_lt (by omega)]; rfl
    · rfl
  · have hb := ht.built pn hpn
    have hsym : (s.slot pn.slot).symbols = _ := (congrArg Slot.symbols hb).trans (PlanNode.build_symbols _ _ _)
    rcases Bool.eq_false_or_eq_true pn.isRoot with hr | hr
    · have hs : pn.slot = k := by rw [g.isRoot] at hr; simpa using hr
      have hpe := List.inj_on_of_nodup_map st.good.nodup hpn st.good.root hs
      have hseq : pn.seq = treeIds input a m := by rw [hpe]
      refine ⟨input, by rw [hs]; exact ht.symbols, by rw [hseq, treeIds_length]; exact ht.inputLen, ?_⟩
      intro i h
      simp only [hseq]
      simp [treeIds, inputIds]
    · rw [hr] at hsym
      simp only [Bool.false_eq_true, if_false] at hsym
      have hle : pn.seq.length ≤ m := by
        rw [g.seq]
        refine (List.length_filter_le _ _).trans ?_
        rw [treeIds_length]
      have hprod : pn.seq.length * symbolWidth a < 2 ^ 64 := by
        have := Nat.mul_le_mul_right (symbolWidth a) hle
        have : input.len = input.bitCount.toNat := rfl
        omega
      refine ⟨_, hsym, BitArray.pack_len hprod, fun i h => ?_⟩
      rw [BitArray.getInt_pack h, Nat.mod_eq_of_lt]
      have hmem : ∀ x ∈ pn.seq, x < a := by
        intro x hx
        rw [g.seq, List.mem_filter] at hx
        have := List.all_eq_true.mp ht.inRange _ hx.1
        simpa using this
      have := hmem _ (List.getElem_mem h)
      have hb := lt_two_pow_bitLen (a - 1)
      unfold symbolWidth
      omega
  · refine ⟨_, st.partitionBits hpn, ?_, ?_, ?_, ?_⟩
    · rw [PlanNode.bits, if_neg (by omega)]; rfl
    all_goals rw [ht.built pn hpn, PlanNode.build, if_neg (by omega)]

end Sys2Proof.Machine
end

