-- ==== Sys2Proof/Laws/PerInstr.lean ====
section
/-!
SUPPORT. Laws/PerInstr.lean: per command: its opcode is assigned and its field numbers fit the fields of the command
word (30_encoding.md R81, R86), so that no field runs into its neighbour.
-/

namespace Sys2Proof.Laws

theorem role_num_lt (r : Role) : r.num < 4 := by cases r <;> decide

/-- The opcode is one of the map's and fits 8 bits, the slot number 10, the role 2, the immediate 9. -/
def FieldsFit.Statement (i : Instr) : Prop :=
  (opcodeForm i.opcode).isSome = true ∧ i.opcode < 2 ^ 8 ∧ i.slotNum < 2 ^ 10 ∧ i.roleNum < 2 ^ 2 ∧
    i.immNum < 2 ^ 9

theorem FieldsFit.sysNop : FieldsFit.Statement .sysNop :=
  ⟨rfl, of_decide_eq_true rfl, of_decide_eq_true rfl, of_decide_eq_true rfl, of_decide_eq_true rfl⟩

theorem FieldsFit.sysReset : FieldsFit.Statement .sysReset :=
  ⟨rfl, of_decide_eq_true rfl, of_decide_eq_true rfl, of_decide_eq_true rfl, of_decide_eq_true rfl⟩

theorem FieldsFit.sysClrerr : FieldsFit.Statement .sysClrerr :=
  ⟨rfl, of_decide_eq_true rfl, of_decide_eq_true rfl, of_decide_eq_true rfl, of_decide_eq_true rfl⟩

theorem FieldsFit.baNew (k : SlotNum) (r : Role) : FieldsFit.Statement (.baNew k r) :=
  ⟨rfl, of_decide_eq_true rfl, k.isLt, role_num_lt r, of_decide_eq_true rfl⟩

theorem FieldsFit.baResize (k : SlotNum) (r : Role) : FieldsFit.Statement (.baResize k r) :=
  ⟨rfl, of_decide_eq_true rfl, k.isLt, role_num_lt r, of_decide_eq_true rfl⟩

theorem FieldsFit.baFree (k : SlotNum) (r : Role) : FieldsFit.Statement (.baFree k r) :=
  ⟨rfl, of_decide_eq_true rfl, k.isLt, role_num_lt r, of_decide_eq_true rfl⟩

theorem FieldsFit.baLen (k : SlotNum) (r : Role) : FieldsFit.Statement (.baLen k r) :=
  ⟨rfl, of_decide_eq_true rfl, k.isLt, role_num_lt r, of_decide_eq_true rfl⟩

theorem FieldsFit.baGetbit (k : SlotNum) (r : Role) : FieldsFit.Statement (.baGetbit k r) :=
  ⟨rfl, of_decide_eq_true rfl, k.isLt, role_num_lt r, of_decide_eq_true rfl⟩

theorem FieldsFit.baSetbit (k : SlotNum) (r : Role) : FieldsFit.Statement (.baSetbit k r) :=
  ⟨rfl, of_decide_eq_true rfl, k.isLt, role_num_lt r, of_decide_eq_true rfl⟩

theorem FieldsFit.baClrbit (k : SlotNum) (r : Role) : FieldsFit.Statement (.baClrbit k r) :=
  ⟨rfl, of_decide_eq_true rfl, k.isLt, role_num_lt r, of_decide_eq_true rfl⟩

theorem FieldsFit.baGetint (k : SlotNum) (r : Role) (w : Imm9) : FieldsFit.Statement (.baGetint k r w) :=
  ⟨rfl, of_decide_eq_true rfl, k.isLt, role_num_lt r, w.isLt⟩

theorem FieldsFit.baSetint (k : SlotNum) (r : Role) (w : Imm9) : FieldsFit.Statement (.baSetint k r w) :=
  ⟨rfl, of_decide_eq_true rfl, k.isLt, role_num_lt r, w.isLt⟩

theorem FieldsFit.rdBuild (k : SlotNum) : FieldsFit.Statement (.rdBuild k) :=
  ⟨rfl, of_decide_eq_true rfl, k.isLt, of_decide_eq_true rfl, of_decide_eq_true rfl⟩

theorem FieldsFit.rdFree (k : SlotNum) : FieldsFit.Statement (.rdFree k) :=
  ⟨rfl, of_decide_eq_true rfl, k.isLt, of_decide_eq_true rfl, of_decide_eq_true rfl⟩

theorem FieldsFit.rdRank1 (k : SlotNum) : FieldsFit.Statement (.rdRank1 k) :=
  ⟨rfl, of_decide_eq_true rfl, k.isLt, of_decide_eq_true rfl, of_decide_eq_true rfl⟩

theorem FieldsFit.rdRank0 (k : SlotNum) : FieldsFit.Statement (.rdRank0 k) :=
  ⟨rfl, of_decide_eq_true rfl, k.isLt, of_decide_eq_true rfl, of_decide_eq_true rfl⟩

theorem FieldsFit.rdOvh (k : SlotNum) : FieldsFit.Statement (.rdOvh k) :=
  ⟨rfl, of_decide_eq_true rfl, k.isLt, of_decide_eq_true rfl, of_decide_eq_true rfl⟩

theorem FieldsFit.rdParam (k : SlotNum) (sel : Imm9) : FieldsFit.Statement (.rdParam k sel) :=
  ⟨rfl, of_decide_eq_true rfl, k.isLt, of_decide_eq_true rfl, sel.isLt⟩

theorem FieldsFit.selSelect1 (k : SlotNum) : FieldsFit.Statement (.selSelect1 k) :=
  ⟨rfl, of_decide_eq_true rfl, k.isLt, of_decide_eq_true rfl, of_decide_eq_true rfl⟩

theorem FieldsFit.selSelect0 (k : SlotNum) : FieldsFit.Statement (.selSelect0 k) :=
  ⟨rfl, of_decide_eq_true rfl, k.isLt, of_decide_eq_true rfl, of_decide_eq_true rfl⟩

theorem FieldsFit.selOvh (k : SlotNum) : FieldsFit.Statement (.selOvh k) :=
  ⟨rfl, of_decide_eq_true rfl, k.isLt, of_decide_eq_true rfl, of_decide_eq_true rfl⟩

theorem FieldsFit.wtBuild (k : SlotNum) (a : Imm9) : FieldsFit.Statement (.wtBuild k a) :=
  ⟨rfl, of_decide_eq_true rfl, k.isLt, of_decide_eq_true rfl, a.isLt⟩

theorem FieldsFit.wtFree (k : SlotNum) : FieldsFit.Statement (.wtFree k) :=
  ⟨rfl, of_decide_eq_true rfl, k.isLt, of_decide_eq_true rfl, of_decide_eq_true rfl⟩

theorem FieldsFit.wtRank (k : SlotNum) : FieldsFit.Statement (.wtRank k) :=
  ⟨rfl, of_decide_eq_true rfl, k.isLt, of_decide_eq_true rfl, of_decide_eq_true rfl⟩

theorem FieldsFit.wtSelect (k : SlotNum) (c : Imm9) : FieldsFit.Statement (.wtSelect k c) :=
  ⟨rfl, of_decide_eq_true rfl, k.isLt, of_decide_eq_true rfl, c.isLt⟩

theorem FieldsFit.wtField (k : SlotNum) (sel : Imm9) : FieldsFit.Statement (.wtField k sel) :=
  ⟨rfl, of_decide_eq_true rfl, k.isLt, of_decide_eq_true rfl, sel.isLt⟩

end Sys2Proof.Laws
end

