-- ==== Sys2Proof/Laws/Step.lean ====
section
/-!
SUPPORT. Laws/Step.lean: what a step does with each kind of host action, what a CMD write comes to, and STAT as a
number.
-/

namespace Sys2Proof.Machine

/-- With nothing pending. -/
theorem step_idle {s : State} (h : s.hostQueue = []) : step s = .next s := by
  unfold step; rw [h]

/-- A CMD write issues its data on the state whose queue has moved on. -/
theorem step_write_cmd {s : State} {data : Word} {rest : List HostAction}
    (h : s.hostQueue = .write .cmd data :: rest) : step s = issue data { s with hostQueue := rest } := by
  unfold step; rw [h]; rfl

/-- Any other action is applied to that state. -/
theorem step_hostAct {s : State} {a : HostAction} {rest : List HostAction} (h : s.hostQueue = a :: rest)
    (ha : commandData a = none) : step s = .next (({ s with hostQueue := rest } : State).hostAct a) := by
  unfold step act; rw [h]; simp only [ha]

theorem issue_of_command {data : Word} {i : Instr} (h : decode data = .command i) (s : State) :
    issue data s = exec i (s.latchCmd data) := by
  unfold issue; rw [h]

theorem issue_of_illegal {data : Word} {why : DecodeError} (h : decode data = .illegal why) (s : State) :
    issue data s = .next ((s.latchCmd data).fail .eIllegal) := by
  unfold issue; rw [h]

theorem Status.num_le (c : Status) : c.num ≤ 8 := by cases c <;> decide

/-- `STAT` as a number: CODE and STICKY (10_state.md R30). -/
theorem State.stat_toNat (s : State) : s.stat.toNat = s.code.num + if s.sticky then 256 else 0 := by
  have := s.code.num_le
  rw [State.stat, BitVec.toNat_ofNat]
  split <;> omega

end Sys2Proof.Machine
end

