-- ==== Sys2Proof/Laws/Thresholds.lean ====
section
/-!
SUPPORT. Laws/Thresholds.lean: the listed thresholds are the ones 42_rank.md R132 defines, T(s) = floor(2^sqrt(2s)) over
the reals: log2(T(s))^2 <= 2s < log2(T(s) + 1)^2. The kernel checks each number by certified binary digits of its
logarithm: a number is squared again and again, cut to 80 fractional bits, below for a lower bound and above for an
upper one. The two searches are written on Nat.rec and the plain Nat operations, which the kernel computes fast.
-/

namespace Sys2Proof.Machine

/-- `k` more binary digits of a logarithm, from below: `m / 2^80` is the rest, `p` the digits so far. -/
def logLow (k : Nat) : Nat → Nat → Nat :=
  Nat.rec (fun m p => bif Nat.ble 1208925819614629174706176 m then p else 0)
    (fun _ digits m p =>
      bif Nat.ble 2923003274661805836407369665432566039311865085952 (Nat.mul m m) then
        digits (Nat.shiftRight (Nat.mul m m) 81) (Nat.succ (Nat.mul 2 p))
      else digits (Nat.shiftRight (Nat.mul m m) 80) (Nat.mul 2 p)) k

/-- The same from above. -/
def logHigh (k : Nat) : Nat → Nat → Nat :=
  Nat.rec (fun m p => bif Nat.ble m 2417851639229258349412352 then Nat.succ p else Nat.add p m)
    (fun _ digits m p =>
      bif Nat.ble 2923003274661805836407369665432566039311865085952 (Nat.mul m m) then
        digits (Nat.succ (Nat.shiftRight (Nat.mul m m) 81)) (Nat.succ (Nat.mul 2 p))
      else digits (Nat.succ (Nat.shiftRight (Nat.mul m m) 80)) (Nat.mul 2 p)) k

theorem logLow_spec {y : Nat} (hy : 0 < y) (k m p N : Nat) (h : m * 2 ^ p ≤ y ^ N * 2 ^ 80) :
    2 ^ logLow k m p ≤ y ^ (N * 2 ^ k) := by
  induction k generalizing m p N with
  | zero =>
    change 2 ^ (bif Nat.ble 1208925819614629174706176 m then p else 0) ≤ _
    rcases hb : Nat.ble 1208925819614629174706176 m with _ | _
    · exact Nat.pow_pos hy
    · have hm : 2 ^ 80 ≤ m := Nat.le_of_ble_eq_true hb
      rw [pow_zero, mul_one]
      exact Nat.le_of_mul_le_mul_left (by
        calc 2 ^ 80 * 2 ^ p ≤ m * 2 ^ p := Nat.mul_le_mul_right _ hm
          _ ≤ 2 ^ 80 * y ^ N := by rw [mul_comm (2 ^ 80)]; exact h) (Nat.two_pow_pos 80)
  | succ k ih =>
    have hsq : (m * m) * 2 ^ (2 * p) ≤ y ^ (N * 2) * 2 ^ 160 := by
      have := Nat.mul_le_mul h h
      calc (m * m) * 2 ^ (2 * p) = m * 2 ^ p * (m * 2 ^ p) := by ring
        _ ≤ y ^ N * 2 ^ 80 * (y ^ N * 2 ^ 80) := this
        _ = _ := by rw [pow_mul]; ring
    have hN : N * 2 ^ (k + 1) = N * 2 * 2 ^ k := by ring
    change 2 ^ (bif Nat.ble _ (m * m) then logLow k ((m * m) >>> 81) (2 * p + 1)
      else logLow k ((m * m) >>> 80) (2 * p)) ≤ _
    rw [hN]
    cases Nat.ble _ (m * m)
    · refine ih _ _ _ (Nat.le_of_mul_le_mul_right ?_ (Nat.two_pow_pos 80))
      rw [Nat.shiftRight_eq_div_pow]
      calc m * m / 2 ^ 80 * 2 ^ (2 * p) * 2 ^ 80 = m * m / 2 ^ 80 * 2 ^ 80 * 2 ^ (2 * p) := by ring
        _ ≤ m * m * 2 ^ (2 * p) := Nat.mul_le_mul_right _ (Nat.div_mul_le_self _ _)
        _ ≤ _ := hsq
        _ = _ := by ring
    · refine ih _ _ _ (Nat.le_of_mul_le_mul_right ?_ (Nat.two_pow_pos 80))
      rw [Nat.shiftRight_eq_div_pow]
      calc m * m / 2 ^ 81 * 2 ^ (2 * p + 1) * 2 ^ 80 = m * m / 2 ^ 81 * 2 ^ 81 * 2 ^ (2 * p) := by ring
        _ ≤ m * m * 2 ^ (2 * p) := Nat.mul_le_mul_right _ (Nat.div_mul_le_self _ _)
        _ ≤ _ := hsq
        _ = _ := by ring

theorem le_shiftRight_succ_mul (q t : Nat) : q ≤ (q >>> t + 1) * 2 ^ t := by
  rw [Nat.shiftRight_eq_div_pow, add_mul, one_mul, mul_comm]
  have h1 := Nat.div_add_mod q (2 ^ t)
  have h2 := Nat.mod_lt q (Nat.two_pow_pos t)
  omega

theorem logHigh_spec {y : Nat} (k m p N : Nat) (h : y ^ N * 2 ^ 80 ≤ m * 2 ^ p) :
    y ^ (N * 2 ^ k) ≤ 2 ^ logHigh k m p := by
  induction k generalizing m p N with
  | zero =>
    change _ ≤ 2 ^ (bif Nat.ble m 2417851639229258349412352 then p + 1 else p + m)
    rw [pow_zero, mul_one]
    rcases hb : Nat.ble m 2417851639229258349412352 with _ | _
    · calc y ^ N ≤ y ^ N * 2 ^ 80 := Nat.le_mul_of_pos_right _ (Nat.two_pow_pos 80)
        _ ≤ m * 2 ^ p := h
        _ ≤ 2 ^ m * 2 ^ p := Nat.mul_le_mul_right _ Nat.lt_two_pow_self.le
        _ = _ := by rw [mul_comm, ← pow_add]; rfl
    · have hm : m ≤ 2 ^ 81 := Nat.le_of_ble_eq_true hb
      refine Nat.le_of_mul_le_mul_right (h.trans ?_) (Nat.two_pow_pos 80)
      calc m * 2 ^ p ≤ 2 ^ 81 * 2 ^ p := Nat.mul_le_mul_right _ hm
        _ = 2 ^ (p + 1) * 2 ^ 80 := by ring
  | succ k ih =>
    have hsq : y ^ (N * 2) * 2 ^ 160 ≤ (m * m) * 2 ^ (2 * p) := by
      have := Nat.mul_le_mul h h
      calc y ^ (N * 2) * 2 ^ 160 = y ^ N * 2 ^ 80 * (y ^ N * 2 ^ 80) := by rw [pow_mul]; ring
        _ ≤ m * 2 ^ p * (m * 2 ^ p) := this
        _ = _ := by ring
    have hN : N * 2 ^ (k + 1) = N * 2 * 2 ^ k := by ring
    change _ ≤ 2 ^ (bif Nat.ble _ (m * m) then logHigh k ((m * m) >>> 81 + 1) (2 * p + 1)
      else logHigh k ((m * m) >>> 80 + 1) (2 * p))
    rw [hN]
    cases Nat.ble _ (m * m)
    · refine ih _ _ _ (Nat.le_of_mul_le_mul_right ?_ (Nat.two_pow_pos 80))
      calc y ^ (N * 2) * 2 ^ 80 * 2 ^ 80 = y ^ (N * 2) * 2 ^ 160 := by ring
        _ ≤ m * m * 2 ^ (2 * p) := hsq
        _ ≤ ((m * m) >>> 80 + 1) * 2 ^ 80 * 2 ^ (2 * p) := Nat.mul_le_mul_right _ (le_shiftRight_succ_mul _ _)
        _ = _ := by ring
    · refine ih _ _ _ (Nat.le_of_mul_le_mul_right ?_ (Nat.two_pow_pos 80))
      calc y ^ (N * 2) * 2 ^ 80 * 2 ^ 80 = y ^ (N * 2) * 2 ^ 160 := by ring
        _ ≤ m * m * 2 ^ (2 * p) := hsq
        _ ≤ ((m * m) >>> 81 + 1) * 2 ^ 81 * 2 ^ (2 * p) := Nat.mul_le_mul_right _ (le_shiftRight_succ_mul _ _)
        _ = _ := by ring

/-- Does `t`, of `l + 1` bits, pass as `T(s)`: `2s` lies above the square of the upper bound of `log2 t` (or `t` is an
exact power with `log2(t)^2 = 2s`) and below the square of the lower bound of `log2 (t + 1)`. -/
def isThreshold (l s t : Nat) : Bool :=
  Nat.ble l 80
    && Nat.blt (Nat.mul (Nat.mul 2 s) (Nat.pow 4 (Nat.add l 12)))
      (Nat.pow (logLow (Nat.add l 12) (Nat.mul (Nat.succ t) (Nat.pow 2 (Nat.sub 80 l))) l) 2)
    && (Nat.beq t (Nat.pow 2 l) && Nat.beq (Nat.mul l l) (Nat.mul 2 s)
      || Nat.ble (Nat.pow (logHigh (Nat.add l 12) (Nat.mul t (Nat.pow 2 (Nat.sub 80 l))) l) 2)
        (Nat.mul (Nat.mul 2 s) (Nat.pow 4 (Nat.add l 12))))

/-- The listed numbers pass as `T(s)`, `T(s+1)`, ..; `l` follows their bit length. -/
def isThresholdsFrom : Nat → Nat → List Nat → Bool
  | _, _, [] => true
  | l, s, t :: ts =>
    bif Nat.ble (Nat.pow 2 (Nat.succ l)) t then
      bif isThreshold (Nat.succ l) s t then isThresholdsFrom (Nat.succ l) (Nat.succ s) ts else false
    else bif isThreshold l s t then isThresholdsFrom l (Nat.succ s) ts else false

set_option Elab.async false in
theorem thresholds_checked : isThresholdsFrom 1 1 thresholds = true := by decide +kernel

theorem isThreshold_of_from {l s : Nat} {ts : List Nat} (h : isThresholdsFrom l s ts = true) {i : Nat}
    (hi : i < ts.length) : ∃ l', isThreshold l' (s + i) ts[i] = true := by
  induction ts generalizing l s i with
  | nil => exact absurd hi (Nat.not_lt_zero i)
  | cons t ts ih =>
    obtain ⟨l', h1, h2⟩ : ∃ l', isThreshold l' s t = true ∧ isThresholdsFrom l' (s + 1) ts = true := by
      rw [isThresholdsFrom] at h
      cases hb : Nat.ble (Nat.pow 2 (Nat.succ l)) t <;> rw [hb] at h <;> simp only [cond_false, cond_true] at h
      · cases hc : isThreshold l s t <;> rw [hc] at h
        · cases h
        · exact ⟨_, hc, h⟩
      · cases hc : isThreshold (Nat.succ l) s t <;> rw [hc] at h
        · cases h
        · exact ⟨_, hc, h⟩
    cases i with
    | zero => exact ⟨l', h1⟩
    | succ i =>
      obtain ⟨l'', h3⟩ := ih h2 (i := i) (by simpa using hi)
      exact ⟨l'', by rw [show s + (i + 1) = s + 1 + i by omega]; exact h3⟩

theorem logb_pow_two (y k : Nat) : Real.logb 2 ((y : ℝ) ^ (1 * 2 ^ k)) = 2 ^ k * Real.logb 2 y := by
  rw [one_mul, Real.logb_pow]; push_cast; rfl

theorem logb_two_pow (p : Nat) : Real.logb 2 ((2 : ℝ) ^ p) = p := by
  rw [Real.logb_pow, Real.logb_self_eq_one (by norm_num), mul_one]

/-- A number that passes is the floor of `2^sqrt(2s)`, said through its logarithm. -/
theorem isThreshold_spec {l s t : Nat} (h : isThreshold l s t = true) (ht : 1 ≤ t) :
    Real.logb 2 t ^ 2 ≤ 2 * s ∧ 2 * s < Real.logb 2 (t + 1 : ℕ) ^ 2 := by
  rw [isThreshold, Bool.and_eq_true, Bool.and_eq_true, Bool.or_eq_true, Bool.and_eq_true] at h
  obtain ⟨⟨hl, hlow⟩, hup⟩ := h
  have hl : l ≤ 80 := Nat.le_of_ble_eq_true hl
  have hlow : 2 * s * 4 ^ (l + 12) < logLow (l + 12) ((t + 1) * 2 ^ (80 - l)) l ^ 2 :=
    Nat.le_of_ble_eq_true hlow
  have h80 : ∀ y : Nat, y * 2 ^ (80 - l) * 2 ^ l = y ^ 1 * 2 ^ 80 := fun y => by
    rw [mul_assoc, ← pow_add, Nat.sub_add_cancel hl, pow_one]
  have hpow : ((4 : ℝ) ^ (l + 12)) = (2 ^ (l + 12)) ^ 2 := by rw [← pow_mul, mul_comm _ 2, pow_mul]; norm_num
  have hpos : (0 : ℝ) < (2 ^ (l + 12)) ^ 2 := by positivity
  have hlog : ∀ y : Nat, 1 ≤ y → 0 ≤ Real.logb 2 y := fun y hy =>
    Real.logb_nonneg (by norm_num) (by exact_mod_cast hy)
  constructor
  · rcases hup with ⟨h1, h2⟩ | hup
    · have h1 : t = 2 ^ l := Nat.eq_of_beq_eq_true h1
      have h2 : l * l = 2 * s := Nat.eq_of_beq_eq_true h2
      rw [h1, Nat.cast_pow, Nat.cast_ofNat, logb_two_pow, pow_two]
      exact_mod_cast h2.le
    · have hup : logHigh (l + 12) (t * 2 ^ (80 - l)) l ^ 2 ≤ 2 * s * 4 ^ (l + 12) := Nat.le_of_ble_eq_true hup
      have hb := logHigh_spec (y := t) (l + 12) (t * 2 ^ (80 - l)) l 1 (h80 t).ge
      generalize logHigh (l + 12) (t * 2 ^ (80 - l)) l = p at hup hb
      have hb' : (t : ℝ) ^ (1 * 2 ^ (l + 12)) ≤ 2 ^ p := by exact_mod_cast hb
      have ht' : (0 : ℝ) < t := by exact_mod_cast ht
      have hle := Real.logb_le_logb_of_le (b := 2) (by norm_num) (by positivity) hb'
      rw [logb_pow_two, logb_two_pow] at hle
      have hsq := pow_le_pow_left₀ (mul_nonneg (by positivity) (hlog t ht)) hle 2
      have hup' : ((p : ℝ)) ^ 2 ≤ 2 * s * 4 ^ (l + 12) := by exact_mod_cast hup
      rw [mul_pow] at hsq
      rw [hpow] at hup'
      exact le_of_mul_le_mul_left (by linarith) hpos
  · have hb := logLow_spec (y := t + 1) (Nat.succ_pos t) (l + 12) ((t + 1) * 2 ^ (80 - l)) l 1 (h80 (t + 1)).le
    generalize logLow (l + 12) ((t + 1) * 2 ^ (80 - l)) l = p at hlow hb
    have hb' : (2 : ℝ) ^ p ≤ ((t + 1 : ℕ) : ℝ) ^ (1 * 2 ^ (l + 12)) := by exact_mod_cast hb
    have hle := Real.logb_le_logb_of_le (b := 2) (by norm_num) (by positivity) hb'
    rw [logb_pow_two, logb_two_pow] at hle
    have hsq := pow_le_pow_left₀ (Nat.cast_nonneg p) hle 2
    have hlow' : 2 * s * 4 ^ (l + 12) < ((p : ℝ)) ^ 2 := by exact_mod_cast hlow
    rw [mul_pow] at hsq
    rw [hpow] at hlow'
    exact lt_of_mul_lt_mul_left (by linarith) hpos.le

/-- The list is the thresholds of 42_rank.md R132: entry `i` is `T(i + 1) = floor(2^sqrt(2(i + 1)))`. -/
theorem thresholds_spec {i : Nat} (h : i < thresholds.length) :
    Real.logb 2 thresholds[i] ^ 2 ≤ 2 * (i + 1 : ℕ) ∧ 2 * (i + 1 : ℕ) < Real.logb 2 (thresholds[i] + 1 : ℕ) ^ 2 := by
  obtain ⟨l, hl⟩ := isThreshold_of_from thresholds_checked h
  rw [Nat.add_comm 1 i] at hl
  refine isThreshold_spec hl ?_
  have := lt_getElem_of_risingFrom thresholds_rising h
  omega

/-- What the list says of one value of `superblock_len`, for every `n`. -/
theorem exists_threshold {s : Nat} (hs : s < 2048) :
    ∃ t : Nat, (∀ n, superblockLen n ≤ s + 1 ↔ n ≤ t) ∧ Real.logb 2 t ^ 2 ≤ 2 * (s + 1 : ℕ) ∧
      2 * (s + 1 : ℕ) < Real.logb 2 (t + 1 : ℕ) ^ 2 :=
  ⟨_, fun n => superblockLen_le_iff n hs, thresholds_spec (thresholds_length.symm ▸ hs)⟩

/-- `superblock_len` against the real formula: `n <= T(s)` exactly when `log2(n)^2 / 2 <= s` (42_rank.md R132). -/
theorem superblockLen_le_iff_logb {n s : Nat} (h : 1 ≤ n) (hs : s < 2048) :
    superblockLen n ≤ s + 1 ↔ Real.logb 2 n ^ 2 / 2 ≤ (s + 1 : ℕ) := by
  obtain ⟨t, ht, t1, t2⟩ := exists_threshold hs
  have hpos : 0 ≤ Real.logb 2 n := Real.logb_nonneg (by norm_num) (by exact_mod_cast h)
  have hn : (0 : ℝ) < n := by exact_mod_cast h
  rw [ht n]
  constructor
  · intro hle
    have h3 : Real.logb 2 n ≤ Real.logb 2 t := Real.logb_le_logb_of_le (by norm_num) hn (by exact_mod_cast hle)
    have := pow_le_pow_left₀ hpos h3 2
    linarith
  · intro hle
    by_contra hc
    have h4 : t + 1 ≤ n := by omega
    have h3 : Real.logb 2 (t + 1 : ℕ) ≤ Real.logb 2 n :=
      Real.logb_le_logb_of_le (by norm_num) (by positivity) (by exact_mod_cast h4)
    have h5 : 0 ≤ Real.logb 2 (t + 1 : ℕ) := Real.logb_nonneg (by norm_num) (by exact_mod_cast (by omega : 1 ≤ t + 1))
    have := pow_le_pow_left₀ h5 h3 2
    linarith

end Sys2Proof.Machine
end

