-- ==== Sys2Proof/WellFormed.lean ====
section
/-!
DEFINITION. WellFormed.lean: the field values the spec calls legal: the slot number must be below NSLOT
(30_encoding.md R81) and the immediate in its command's legal range (30_encoding.md R82). An ill-formed command still
has a meaning: it completes with E_SLOT or E_PARAM (60_exceptions.md R200), so step never consults this file.
-/

namespace Sys2Proof

/-- `slot` must be `< NSLOT`, for the commands that use it (30_encoding.md R81, R84). -/
def Instr.slotLegal (c : Config) (i : Instr) : Bool :=
  match i.slot? with
  | none => true
  | some k => decide (k.toNat < c.nslot)

/-- The legal values of `imm9` (30_encoding.md R82); a command that does not use it has no such field. -/
def Instr.immLegal : Instr → Bool
  | .baGetint _ _ w => decide (w.toNat ≤ 64)
  | .baSetint _ _ w => decide (w.toNat ≤ 64)
  | .rdParam _ sel => decide (sel.toNat ≤ 6)
  | .wtBuild _ a => decide (1 ≤ a.toNat) && decide (a.toNat ≤ 256)
  | .wtSelect _ c => decide (c.toNat ≤ 255)
  | .wtField _ sel => decide (sel.toNat ≤ 8)
  | .sysNop => true
  | .sysReset => true
  | .sysClrerr => true
  | .baNew _ _ => true
  | .baResize _ _ => true
  | .baFree _ _ => true
  | .baLen _ _ => true
  | .baGetbit _ _ => true
  | .baSetbit _ _ => true
  | .baClrbit _ _ => true
  | .rdBuild _ => true
  | .rdFree _ => true
  | .rdRank1 _ => true
  | .rdRank0 _ => true
  | .rdOvh _ => true
  | .selSelect1 _ => true
  | .selSelect0 _ => true
  | .selOvh _ => true
  | .wtFree _ => true
  | .wtRank _ => true

/-- Both checks: every field of the command is one the spec calls legal. -/
def Instr.wellFormed (c : Config) (i : Instr) : Bool := i.slotLegal c && i.immLegal

end Sys2Proof
end

