-- ==== Sys2Proof/Tests/Slice0.lean ====
section
/-!
SUPPORT. Tests/Slice0.lean: the session's own tests: ill-formed terms, every command's decoding from a word written out
from the spec's field table, one step of every command with a result the spec prints, and a witness for the hypotheses
of every statement. Expected values are the spec's, with their rule or table (95_test_vectors.md) in the comment.
-/

namespace Sys2Proof.Tests

set_option Elab.async false

open Sys2Proof Sys2Proof.Machine

/-! Well-formedness: an ill-formed term for each check, and its nearest well-formed neighbour (30_encoding.md R81, R82). -/

theorem test_slotLegal_refuses : Instr.slotLegal Config.default (.rdFree 512#10) = false := by decide
theorem test_slotLegal_last : Instr.slotLegal Config.default (.rdFree 511#10) = true := by decide
theorem test_immLegal_getint : Instr.immLegal (.baGetint 0#10 .P 65#9) = false := by decide
theorem test_immLegal_setint : Instr.immLegal (.baSetint 0#10 .P 65#9) = false := by decide
theorem test_immLegal_param : Instr.immLegal (.rdParam 0#10 7#9) = false := by decide
theorem test_immLegal_build_zero : Instr.immLegal (.wtBuild 0#10 0#9) = false := by decide
theorem test_immLegal_build_large : Instr.immLegal (.wtBuild 0#10 257#9) = false := by decide
theorem test_immLegal_select : Instr.immLegal (.wtSelect 0#10 256#9) = false := by decide
theorem test_immLegal_field : Instr.immLegal (.wtField 0#10 9#9) = false := by decide
theorem test_wellFormed_refuses : Instr.wellFormed Config.default (.wtField 512#10 0#9) = false := by decide
theorem test_wellFormed_accepts : Instr.wellFormed Config.default (.wtBuild 511#10 256#9) = true := by decide

/-! Decoding: reserved[31:29] imm9[28:20] role[19:18] slot[17:8] opc[7:0] (30_encoding.md R81, R86), written out. -/

theorem test_decode_sysNop : decode 0b000_000000000_00_0000000000_00000000#64 = .command .sysNop := by decide
theorem test_decode_sysReset : decode 0b000_000000000_00_0000000000_00000001#64 = .command .sysReset := by decide
theorem test_decode_sysClrerr : decode 0b000_000000000_00_0000000000_00000010#64 = .command .sysClrerr := by decide
theorem test_decode_baNew : decode 0b000_000000000_01_0000000001_00010000#64 = .command (.baNew 1#10 .S) := by decide
theorem test_decode_baResize :
    decode 0b000_000000000_00_0000000010_00010001#64 = .command (.baResize 2#10 .P) := by decide
theorem test_decode_baFree : decode 0b000_000000000_01_1000000000_00010010#64 = .command (.baFree 512#10 .S) := by decide
theorem test_decode_baLen : decode 0b000_000000000_10_0000000011_00010011#64 = .command (.baLen 3#10 .SBT) := by decide
theorem test_decode_baGetbit :
    decode 0b000_000000000_11_0000000100_00010100#64 = .command (.baGetbit 4#10 .BLT) := by decide
theorem test_decode_baSetbit :
    decode 0b000_000000000_00_0000000101_00010101#64 = .command (.baSetbit 5#10 .P) := by decide
theorem test_decode_baClrbit :
    decode 0b000_000000000_01_1111111111_00010110#64 = .command (.baClrbit 1023#10 .S) := by decide
theorem test_decode_baGetint :
    decode 0b000_001000000_11_0000000001_00010111#64 = .command (.baGetint 1#10 .BLT 64#9) := by decide
/-- The word 0x00540318 of 30_encoding.md R81. -/
theorem test_decode_baSetint :
    decode 0b000_000000101_01_0000000011_00011000#64 = .command (.baSetint 3#10 .S 5#9) := by decide
theorem test_decode_rdBuild : decode 0b000_000000000_00_0000000001_00100000#64 = .command (.rdBuild 1#10) := by decide
theorem test_decode_rdFree : decode 0b000_000000000_00_0000000010_00100001#64 = .command (.rdFree 2#10) := by decide
theorem test_decode_rdRank1 : decode 0b000_000000000_00_0000000011_00100010#64 = .command (.rdRank1 3#10) := by decide
theorem test_decode_rdRank0 : decode 0b000_000000000_00_0000000100_00100011#64 = .command (.rdRank0 4#10) := by decide
theorem test_decode_rdOvh : decode 0b000_000000000_00_0000000101_00100100#64 = .command (.rdOvh 5#10) := by decide
theorem test_decode_rdParam :
    decode 0b000_000000110_00_0000000101_00100101#64 = .command (.rdParam 5#10 6#9) := by decide
theorem test_decode_selSelect1 :
    decode 0b000_000000000_00_0000000001_00110000#64 = .command (.selSelect1 1#10) := by decide
theorem test_decode_selSelect0 :
    decode 0b000_000000000_00_0000000010_00110001#64 = .command (.selSelect0 2#10) := by decide
theorem test_decode_selOvh : decode 0b000_000000000_00_0000000011_00110010#64 = .command (.selOvh 3#10) := by decide
theorem test_decode_wtBuild :
    decode 0b000_100000000_00_0000000001_01000000#64 = .command (.wtBuild 1#10 256#9) := by decide
theorem test_decode_wtFree : decode 0b000_000000000_00_0000000010_01000001#64 = .command (.wtFree 2#10) := by decide
theorem test_decode_wtRank : decode 0b000_000000000_00_0000000011_01000010#64 = .command (.wtRank 3#10) := by decide
theorem test_decode_wtSelect :
    decode 0b000_011111111_00_0000000100_01000011#64 = .command (.wtSelect 4#10 255#9) := by decide
theorem test_decode_wtField :
    decode 0b000_000001000_00_0000000101_01000100#64 = .command (.wtField 5#10 8#9) := by decide
/-- The tests of 30_encoding.md R85 in their order, each on data that fail it and every later one it can. -/
theorem test_decode_order :
    decode 0x0000000120000103#64 = .illegal .upperBits ∧ decode 0x20000103#64 = .illegal .reservedBits ∧
      decode 0x00040103#64 = .illegal .unassignedOpcode ∧ decode 0x00140100#64 = .illegal .unusedSlot ∧
      decode 0x00140020#64 = .illegal .unusedRole ∧ decode 0x00100020#64 = .illegal .unusedImm := by decide
theorem test_encode_baSetint : encode (.baSetint 3#10 .S 5#9) = 0x00540318#32 := by decide

/-! Small states. -/

/-- The reset state of a small SPU: 8 slots, 64 bytes. -/
def small : State := State.resetWith ⟨8, 64⟩

/-- `s` with the operand registers written. -/
def operands (a b : Nat) (s : State) : State := { s with op0 := BitVec.ofNat 64 a, op1 := BitVec.ofNat 64 b }

/-- A small state with one array. -/
def withArray (k : Nat) (r : Role) (n : Nat) (bytes : Memory) : State :=
  { small with
    used := BitVec.ofNat 64 ((n + 7) / 8)
    slots := [(k, Slot.empty.setArr r (some ⟨BitVec.ofNat 64 n, bytes⟩))] }

/-- The state a command leaves. -/
def after (i : Instr) (s : State) : State :=
  match exec i s with
  | .next t => t
  | .fault _ => s
  | .refused _ => s

/-- Code, result and USED after a command. -/
def answer (i : Instr) (s : State) : Status × Nat × Nat :=
  ((after i s).code, (after i s).res.toNat, (after i s).used.toNat)

/-- The bits 1011 of 95_test_vectors.md table L1a in A(0,P). -/
def bits1011 : State := withArray 0 .P 4 [(0, 0x0D#8)]

/-- The dictionary of table L1a. -/
def dict1011 : State := after (.rdBuild 0#10) bits1011

/-- The input of table L1b, "banana" as 1 0 2 0 2 0 in 2 bits each, in A(0,S). -/
def bananaInput : State := operands 6 0 (withArray 0 .S 12 [(0, 0x21#8), (1, 0x02#8)])

/-- The tree of table L1b. -/
def banana : State := after (.wtBuild 0#10 3#9) bananaInput

/-- A slot holding a tree of one leaf over one symbol: with an alphabet of one, symbols have 0 bits. -/
def leafSlot : Slot :=
  { Slot.empty with
    partitionBits := some ⟨0#64, []⟩
    symbols := some ⟨0#64, []⟩
    node := some ⟨true, 0#8, 0#8, 0#8, 1#64, none, none⟩ }

/-- Two such trees, in slots 0 and 1. -/
def twoLeaves : State := { small with slots := [(0, leafSlot), (1, leafSlot)] }

/-! One step of every command. -/

/-- 40_sys.md R100. -/
theorem test_sysNop : answer .sysNop { small with res := 7, code := .eRange, sticky := true } = (.ok, 0, 0)
    ∧ (after .sysNop { small with sticky := true }).sticky = true := by decide +kernel
/-- 40_sys.md R101. -/
theorem test_sysReset : after .sysReset (operands 3 4 bananaInput) = small := by decide +kernel
/-- 40_sys.md R102. -/
theorem test_sysClrerr : (after .sysClrerr { small with sticky := true }).stat = 0 := by decide +kernel
/-- 41_bitarray.md R110. -/
theorem test_baNew : answer (.baNew 0#10 .P) (operands 4 0 small) = (.ok, 0, 1) := by decide +kernel
theorem test_baNew_exists : answer (.baNew 0#10 .P) bits1011 = (.eExists, 2 ^ 64 - 1, 1) := by decide +kernel
/-- 41_bitarray.md R111: the bits are zeroed. -/
theorem test_baResize : answer (.baResize 0#10 .P) (operands 12 0 bits1011) = (.ok, 0, 2) ∧
    ((after (.baResize 0#10 .P) (operands 12 0 bits1011)).slot 0).partitionBits = some ⟨12#64, []⟩ := by
  decide +kernel
/-- 41_bitarray.md R112. -/
theorem test_baFree : answer (.baFree 1#10 .S) (withArray 1 .S 9 []) = (.ok, 0, 0) := by decide +kernel
theorem test_baFree_invalid : answer (.baFree 1#10 .S) small = (.eInvalid, 2 ^ 64 - 1, 0) := by decide +kernel
/-- 41_bitarray.md R113. -/
theorem test_baLen : answer (.baLen 0#10 .P) bits1011 = (.ok, 4, 1) := by decide +kernel
/-- 41_bitarray.md R114. -/
theorem test_baGetbit : answer (.baGetbit 0#10 .P) (operands 1 0 bits1011) = (.ok, 0, 1) ∧
    answer (.baGetbit 0#10 .P) (operands 3 0 bits1011) = (.ok, 1, 1) := by decide +kernel
theorem test_baGetbit_range : answer (.baGetbit 0#10 .P) (operands 4 0 bits1011) = (.eRange, 2 ^ 64 - 1, 1) := by
  decide +kernel
/-- 41_bitarray.md R115: 0x09 is 0x0D without bit 2. -/
theorem test_baSetbit : ((after (.baSetbit 0#10 .P) (operands 2 0 (withArray 0 .P 4 [(0, 0x09#8)]))).slot 0).partitionBits
    = some ⟨4#64, [(0, 0x0D#8)]⟩ := by decide +kernel
theorem test_baSetbit_locked : answer (.baSetbit 0#10 .P) (operands 1 0 dict1011) = (.eLocked, 2 ^ 64 - 1, 3) := by
  decide +kernel
/-- 41_bitarray.md R116. -/
theorem test_baClrbit : ((after (.baClrbit 0#10 .P) (operands 2 0 bits1011)).slot 0).partitionBits
    = some ⟨4#64, [(0, 0x09#8)]⟩ := by decide +kernel
/-- 41_bitarray.md R117. -/
theorem test_baGetint : answer (.baGetint 0#10 .P 4#9) bits1011 = (.ok, 13, 1) ∧
    answer (.baGetint 0#10 .P 3#9) (operands 1 0 bits1011) = (.ok, 6, 1) := by decide +kernel
/-- 20_memory.md R52: 4 bits across a byte boundary. -/
theorem test_baGetint_spans : answer (.baGetint 0#10 .P 4#9) (operands 6 0
    (withArray 0 .P 16 [(0, 0xB4#8), (1, 0x03#8)])) = (.ok, 14, 2) := by decide +kernel
/-- 41_bitarray.md R118. -/
theorem test_baSetint : ((after (.baSetint 2#10 .S 4#9) (operands 6 0xFE (withArray 2 .S 16 []))).slot 2).symbols
    = some ⟨16#64, [(0, 0x80#8), (1, 0x03#8)]⟩ := by decide +kernel
theorem test_baSetint_param : answer (.baSetint 2#10 .S 65#9) (withArray 2 .S 16 []) = (.eParam, 2 ^ 64 - 1, 2) := by
  decide +kernel
/-- 42_rank.md R140. -/
theorem test_rdBuild : (dict1011.slot 0).superblockTable = some ⟨4#64, [(0, 0x04#8)]⟩ ∧
    (dict1011.slot 0).blockTable = some ⟨4#64, [(0, 0x0A#8)]⟩ ∧ dict1011.used = 3 := by decide +kernel
theorem test_rdBuild_short : answer (.rdBuild 0#10) (withArray 0 .P 1 []) = (.eParam, 2 ^ 64 - 1, 1) := by
  decide +kernel
/-- 42_rank.md R141. -/
theorem test_rdFree : answer (.rdFree 0#10) dict1011 = (.ok, 0, 1) := by decide +kernel
/-- 42_rank.md R142, table L1a. -/
theorem test_rdRank1 : answer (.rdRank1 0#10) (operands 3 0 dict1011) = (.ok, 3, 3) := by decide +kernel
theorem test_rdRank1_range : answer (.rdRank1 0#10) (operands 4 0 dict1011) = (.eRange, 2 ^ 64 - 1, 3) := by
  decide +kernel
/-- 42_rank.md R143, table L1a. -/
theorem test_rdRank0 : answer (.rdRank0 0#10) (operands 3 0 dict1011) = (.ok, 1, 3) := by decide +kernel
/-- 42_rank.md R145. -/
theorem test_rdOvh : answer (.rdOvh 0#10) dict1011 = (.ok, 8, 3) := by decide +kernel
/-- 42_rank.md R146. -/
theorem test_rdParam : answer (.rdParam 0#10 1#9) dict1011 = (.ok, 2, 3) ∧
    answer (.rdParam 0#10 5#9) dict1011 = (.ok, 1, 3) := by decide +kernel
theorem test_rdParam_param : answer (.rdParam 0#10 7#9) dict1011 = (.eParam, 2 ^ 64 - 1, 3) := by decide +kernel
/-- 43_select.md R161, table L1a. -/
theorem test_selSelect1 : answer (.selSelect1 0#10) (operands 2 0 dict1011) = (.ok, 2, 3) := by decide +kernel
theorem test_selSelect1_none : answer (.selSelect1 0#10) (operands 4 0 dict1011) = (.ok, 2 ^ 64 - 1, 3) := by
  decide +kernel
/-- 43_select.md R162. -/
theorem test_selSelect0 : answer (.selSelect0 0#10) (operands 1 0 dict1011) = (.ok, 1, 3) := by decide +kernel
/-- 43_select.md R163. -/
theorem test_selOvh : answer (.selOvh 0#10) dict1011 = (.ok, 0, 3) := by decide +kernel
/-- 44_wavelet.md R175, R183. -/
theorem test_wtBuild : answer (.wtBuild 0#10 3#9) bananaInput = (.ok, 0, 12) := by decide +kernel
/-- 44_wavelet.md R175, check 9: with an alphabet of 4, id 3 never occurs. -/
theorem test_wtBuild_param : answer (.wtBuild 0#10 4#9) bananaInput = (.eParam, 2 ^ 64 - 1, 2) := by decide +kernel
/-- 44_wavelet.md R180. -/
theorem test_wtFree : answer (.wtFree 0#10) banana = (.ok, 0, 0) := by decide +kernel
theorem test_wtFree_locked : answer (.wtFree 1#10) banana = (.eLocked, 2 ^ 64 - 1, 12) := by decide +kernel
/-- 44_wavelet.md R177. -/
theorem test_wtRank : answer (.wtRank 0#10) (operands 5 0 banana) = (.ok, 3, 12) ∧
    answer (.wtRank 1#10) (operands 2 0 banana) = (.ok, 2, 12) := by decide +kernel
theorem test_wtRank_none : answer (.wtRank 0#10) banana = (.ok, 2 ^ 64 - 1, 12) := by decide +kernel
/-- 44_wavelet.md R179. -/
theorem test_wtSelect : answer (.wtSelect 0#10 0#9) (operands 2 0 banana) = (.ok, 3, 12) ∧
    answer (.wtSelect 0#10 1#9) (operands 2 0 banana) = (.ok, 2 ^ 64 - 1, 12) := by decide +kernel
theorem test_wtSelect_range : answer (.wtSelect 0#10 3#9) banana = (.eRange, 2 ^ 64 - 1, 12) := by decide +kernel
/-- 44_wavelet.md R182. -/
theorem test_wtField : answer (.wtField 0#10 5#9) banana = (.ok, 4, 12) ∧
    answer (.wtField 2#10 4#9) banana = (.ok, 2 ^ 64 - 1, 12) := by decide +kernel
/-- 30_encoding.md R85: a slot at NSLOT. -/
theorem test_slot_check : answer (.baLen 8#10 .P) small = (.eSlot, 2 ^ 64 - 1, 0) := by decide +kernel
/-- The numbers of 60_exceptions.md R200. -/
theorem test_status_numbers :
    [Status.ok, .eIllegal, .eSlot, .eInvalid, .eExists, .eLocked, .eParam, .eRange, .eNomem].map Status.num
      = [0, 1, 2, 3, 4, 5, 6, 7, 8] := by decide
/-- 40_sys.md R102: STAT after a failed BA.LEN. -/
theorem test_stat : (after (.baLen 0#10 .P) small).stat = 0x103#64 := by decide +kernel
/-- 10_state.md R29 with the default parameters. -/
theorem test_idr : State.reset.readReg .idr = 0x10200#64 := by decide +kernel

/-! Witnesses: for each statement with hypotheses, concrete values that meet them all, at a boundary where it has one. -/

/-- The bitvector of `dict1011`. -/
def vector1011 : BitArray := ⟨4#64, [(0, 0x0D#8)]⟩

/-- The input array of `banana`. -/
def bananaArray : BitArray := ⟨12#64, [(0, 0x21#8), (1, 0x02#8)]⟩

/-- The symbols array of `leafSlot`. -/
def noBits : BitArray := ⟨0#64, []⟩

/-- A 9-byte array in the last slot, and OP0 at the last offset where 64 bits still fit. -/
def wide : State := operands 8 5 (withArray 7 .P 72 [(8, 0xFF#8)])

/-- The scalars of the dictionary of `dict1011`. -/
def dictValues : RankDict := ⟨4#64, 2#64, 2#64, 2#64, 1#64, 1#64, 2#64⟩

theorem witness_DecodedDataAreTheWord : decode 0x1FFFFF18#64 = .command (.baSetint 1023#10 .BLT 511#9) := by decide

theorem witness_OpcodeMapSelectsByMask :
    ((0x00000043, 0xE00C00FF) ∈ opcodeMap ∧ 0x1FF3FF43#32 &&& 0xE00C00FF#32 = 0x00000043#32) ∧
      ∀ row ∈ opcodeMap, 0x00000003#32 &&& BitVec.ofNat 32 row.2 ≠ BitVec.ofNat 32 row.1 := by decide

theorem witness_OtherDataAreIllegal (i : Instr) : 0x0000000100000000#64 ≠ (encode i).setWidth 64 := by
  intro h
  have h1 := congrArg BitVec.toNat h
  have h2 := (encode i).isLt
  rw [BitVec.toNat_setWidth, Nat.mod_eq_of_lt (by omega)] at h1
  simp only [BitVec.toNat_ofNat] at h1
  omega

/-- The queue of the step's clause. -/
theorem witness_OtherDataAreIllegal_step :
    ({ small with hostQueue := [.write .cmd 0x0000000100000000#64] } : State).hostQueue
      = .write .cmd 0x0000000100000000#64 :: [] := rfl

theorem witness_StepRunsTheDecodedCommand :
    ({ small with hostQueue := [.write .cmd 0x10#64] } : State).hostQueue = .write .cmd 0x10#64 :: [] ∧
      decode 0x10#64 = .command (.baNew 0#10 .P) ∧
      decodeTableWord 32 0x00540318 = some (.baSetint 3#10 .S 5#9) := by decide

theorem witness_HostWritesReachOperandsOnly : ∀ r ∈ [HostReg.op0, .op1, .res, .idr],
    ({ small with hostQueue := [.write r 1#64] } : State).hostQueue = .write r 1#64 :: [] ∧ r ≠ .cmd := by decide

theorem witness_HostReadsReturnRegisters : ∀ r ∈ [HostReg.op0, .op1, .cmd, .res, .stat, .cap, .used, .idr],
    ({ small with hostQueue := [.read r] } : State).config.ok = true ∧
      ({ small with hostQueue := [.read r] } : State).hostQueue = .read r :: [] := by decide

theorem witness_ResetLeavesTheResetValues :
    ({ bits1011 with hostQueue := [.hardReset] } : State).config.ok = true ∧
      ({ bits1011 with hostQueue := [.hardReset] } : State).hostQueue = .hardReset :: [] := by decide

theorem witness_HardResetKeepsTheHostSide :
    ({ bits1011 with hostQueue := [.hardReset, .read .res] } : State).hostQueue = .hardReset :: [.read .res] := by decide

theorem witness_IdleStepChangesNothing : small.hostQueue = [] := by decide

/-- The last slot, and exactly as many bytes as there are. -/
theorem witness_BaNewCreatesZeroedArray :
    (operands 512 0 small).config.ok = true ∧ (7#10).toNat < (operands 512 0 small).config.nslot ∧
      ((operands 512 0 small).slot 7).locked .S = false ∧ ((operands 512 0 small).slot 7).arr .S = none ∧
      (operands 512 0 small).used.toNat + ((operands 512 0 small).op0.toNat + 7) / 8
        ≤ (operands 512 0 small).config.memBytes := by decide +kernel

theorem witness_BaResizeRezeroesArray :
    (operands 512 0 bits1011).config.ok = true ∧ (0#10).toNat < (operands 512 0 bits1011).config.nslot ∧
      ((operands 512 0 bits1011).slot 0).locked .P = false ∧
      ((operands 512 0 bits1011).slot 0).arr .P = some vector1011 ∧
      (operands 512 0 bits1011).used.toNat - (vector1011.len + 7) / 8 + ((operands 512 0 bits1011).op0.toNat + 7) / 8
        ≤ (operands 512 0 bits1011).config.memBytes := by decide +kernel

theorem witness_BaFreeRemovesArray :
    (0#10).toNat < bits1011.config.nslot ∧ (bits1011.slot 0).locked .P = false ∧
      (bits1011.slot 0).arr .P = some vector1011 := by decide +kernel

/-- The last bit of a locked array. -/
theorem witness_BaLenAndGetbitRead :
    (0#10).toNat < (operands 3 0 dict1011).config.nslot ∧ ((operands 3 0 dict1011).slot 0).arr .P = some vector1011 ∧
      (operands 3 0 dict1011).op0.toNat < vector1011.bitCount.toNat := by decide +kernel

theorem witness_BaSetbitClrbitChangeOneBit :
    (0#10).toNat < (operands 3 0 bits1011).config.nslot ∧ ((operands 3 0 bits1011).slot 0).locked .P = false ∧
      ((operands 3 0 bits1011).slot 0).arr .P = some vector1011 ∧ (operands 3 0 bits1011).op0.toNat < vector1011.len := by
  decide +kernel

/-- The widest integer at the last offset where it fits, and no width at all at the end. -/
theorem witness_BaGetintSumsBits : ∀ w ∈ [0#9, 64#9],
    (7#10).toNat < wide.config.nslot ∧ w.toNat ≤ 64 ∧ (wide.slot 7).arr .P = some ⟨72#64, [(8, 0xFF#8)]⟩ ∧
      wide.op0.toNat + w.toNat ≤ (⟨72#64, [(8, 0xFF#8)]⟩ : BitArray).len := by decide +kernel

theorem witness_BaSetintWritesBits : ∀ w ∈ [0#9, 64#9],
    (7#10).toNat < wide.config.nslot ∧ w.toNat ≤ 64 ∧ (wide.slot 7).locked .P = false ∧
      (wide.slot 7).arr .P = some ⟨72#64, [(8, 0xFF#8)]⟩ ∧
      wide.op0.toNat + w.toNat ≤ (⟨72#64, [(8, 0xFF#8)]⟩ : BitArray).len := by decide +kernel

/-- Each clause: tables anywhere, P under a dictionary, S under a node, and a node that is no root. -/
theorem witness_LocksRefuseHostWrites :
    (0#10).toNat < dict1011.config.nslot ∧ (Role.P = .P ∧ (dict1011.slot 0).rankDict.isSome = true) ∧
      (1#10).toNat < banana.config.nslot ∧ (64#9).toNat ≤ 64 ∧
      (banana.slot 1).node = some ⟨false, 0#8, 1#8, 2#8, 4#64, some 2#10, some 3#10⟩ := by decide +kernel

theorem witness_SizesFollowRealLogarithms : ∀ n ∈ [2, 2 ^ 64 - 1], 2 ≤ n ∧ n < 2 ^ 64 := by decide

theorem witness_WorkedSizesTable : (600, 43, 10, 14, 5, 6, 9, 140, 756, 896) ∈
    [(600, 43, 10, 14, 5, 6, 9, 140, 756, 896)] := by decide

theorem witness_SizingConsequences : ∀ n ∈ [2, 3, 2 ^ 64 - 1], 2 ≤ n ∧ n < 2 ^ 64 ∧ sizeParams n = sizeParams n := by
  decide +kernel

theorem witness_SuperblockLenBounds : (∀ n ∈ [2, 2 ^ 64 - 1], 2 ≤ n ∧ n < 2 ^ 64) ∧ ∀ l ∈ [1, 63], 1 ≤ l ∧ l < 64 := by
  decide

/-- Two bits, the shortest bitvector that a dictionary can have, and four. -/
theorem witness_RdBuildFillsBothTables :
    (∀ s ∈ [bits1011, withArray 0 .P 2 []], s.config.ok = true ∧ (0#10).toNat < s.config.nslot ∧
      (s.slot 0).node = none ∧ (s.slot 0).rankDict = none) ∧
      ((withArray 0 .P 2 []).slot 0).partitionBits = some ⟨2#64, []⟩ ∧ 2 ≤ (⟨2#64, []⟩ : BitArray).len ∧
      (withArray 0 .P 2 []).used.toNat + (((sizeParams 2).sbtBits + 7) / 8 + ((sizeParams 2).bltBits + 7) / 8)
        ≤ (withArray 0 .P 2 []).config.memBytes := by decide +kernel

theorem witness_RdFreeRemovesTables :
    (0#10).toNat < dict1011.config.nslot ∧ (dict1011.slot 0).node = none ∧
      (dict1011.slot 0).rankDict.isSome = true := by decide +kernel

theorem witness_hasDict : HasDict dict1011 0 vector1011 ∧ (dict1011.slot 0).rankDict = some dictValues := by
  refine ⟨⟨?_, ?_, ?_⟩, ?_⟩ <;> decide +kernel

/-- The last position. -/
theorem witness_RankCountsBits :
    (0#10).toNat < (operands 3 0 dict1011).config.nslot ∧ HasDict (operands 3 0 dict1011) 0 vector1011 ∧
      (operands 3 0 dict1011).op0.toNat < vector1011.len :=
  ⟨by decide +kernel, witness_hasDict.1, by decide +kernel⟩

theorem witness_RankProperties : HasDict dict1011 0 vector1011 ∧ (dict1011.slot 0).rankDict = some dictValues ∧
    3 < vector1011.len ∧ 2 + 1 < vector1011.len :=
  ⟨witness_hasDict.1, witness_hasDict.2, by decide, by decide⟩

theorem witness_RdOvhAndParamRead : (0#10).toNat < dict1011.config.nslot ∧ HasDict dict1011 0 vector1011 ∧
    (6#9).toNat ≤ 6 := ⟨by decide +kernel, witness_hasDict.1, by decide⟩

theorem witness_SelectFindsThePosition : (0#10).toNat < dict1011.config.nslot ∧ HasDict dict1011 0 vector1011 :=
  ⟨by decide +kernel, witness_hasDict.1⟩

/-- Each clause: the last rank there is, a position of each kind (with a rank and without), no rank, one too many. -/
theorem witness_SelectInvertsRank : HasDict dict1011 0 vector1011 ∧ (dict1011.slot 0).rankDict = some dictValues ∧
    (3 ≤ vector1011.count 1 0 vector1011.len ∧ vector1011.count 1 0 vector1011.len < 4) ∧
    (vector1011.bit 3 = 1 ∧ vector1011.bit 1 ≠ 1 ∧ 1 ≤ rankOf 1 (dict1011.slot 0) dictValues 1) ∧
    (vector1011.bit 1 = 0 ∧ rankOf 0 (dict1011.slot 0) dictValues 0 = 0) ∧
    (4 ≤ vector1011.len ∧ bitLen vector1011.len ≤ 3) :=
  ⟨witness_hasDict.1, witness_hasDict.2, by decide +kernel, by decide +kernel, by decide +kernel, by decide +kernel⟩

theorem witness_SelOvhIsZero : (0#10).toNat < dict1011.config.nslot ∧ (dict1011.slot 0).rankDict.isSome = true := by
  decide +kernel

theorem witness_TreeSlotNumbering :
    (1 ≤ 1 ∧ ∀ c ∈ [0, 0], c < 1) ∧ (1 ≤ 256 ∧ ∀ c ∈ [0, 255], c < 256) ∧
      ∃ pn ∈ treePlan 0 3 6 [1, 0, 2, 0, 2, 0], pn.lo < pn.hi := by decide +kernel

/-- The input of 44_wavelet.md R183. -/
theorem witness_WtBuildBuildsTheTree :
    bananaInput.config.ok = true ∧ 1 ≤ (3#9).toNat ∧ (3#9).toNat ≤ 256 ∧ 1 ≤ bananaInput.op0.toNat ∧
      (0#10).toNat + 2 * (3#9).toNat - 2 < bananaInput.config.nslot ∧
      bananaInput.slot 0 = { Slot.empty with symbols := some bananaArray } ∧
      (∀ j, j < 5 → 0 < j → bananaInput.slot j = Slot.empty) ∧
      bananaArray.len = bananaInput.op0.toNat * symbolWidth 3 ∧ (∀ c ∈ treeIds bananaArray 3 6, c < 3) ∧
      (∀ c, c < 3 → c ∈ treeIds bananaArray 3 6) ∧
      bananaInput.used.toNat + planNeed (symbolWidth 3) (treePlan 0 3 6 (treeIds bananaArray 3 6))
        ≤ bananaInput.config.memBytes := by decide +kernel

theorem witness_WtFreeEmptiesTheRun : (0#10).toNat < banana.config.nslot ∧
    ∃ nd, (banana.slot 0).node = some nd ∧ nd.isRoot = true ∧ nd.alphabetLow = 0 :=
  ⟨by decide +kernel, ⟨true, 0#8, 2#8, 2#8, 6#64, some 1#10, some 4#10⟩, by decide +kernel, rfl, rfl⟩

theorem witness_treeOver : TreeOver banana 0 3 6 bananaArray := by
  refine ⟨?_, ?_, ?_, ?_, ?_, ?_, ?_, ?_, ?_, ?_⟩ <;> decide +kernel

/-- An inner node, its positions and the first past its end. -/
theorem witness_WtRankCountsOccurrences : banana.config.ok = true ∧ TreeOver banana 0 3 6 bananaArray ∧
    ∃ pn ∈ treePlan 0 3 6 (treeIds bananaArray 3 6), (1#10).toNat = pn.slot ∧
      (operands 3 0 banana).op0.toNat < pn.seq.length ∧ pn.seq.length ≤ (operands 4 0 banana).op0.toNat :=
  ⟨by decide +kernel, witness_treeOver, by decide +kernel⟩

/-- Both ends of a node's range. -/
theorem witness_WtSelectFindsOccurrence : banana.config.ok = true ∧ TreeOver banana 0 3 6 bananaArray ∧
    ∃ pn ∈ treePlan 0 3 6 (treeIds bananaArray 3 6), (1#10).toNat = pn.slot ∧
      (pn.lo ≤ (0#9).toNat ∧ (0#9).toNat ≤ pn.hi) ∧ pn.lo ≤ (1#9).toNat ∧ (1#9).toNat ≤ pn.hi :=
  ⟨by decide +kernel, witness_treeOver, by decide +kernel⟩

theorem witness_WtFieldReadsScalars : (2#10).toNat < banana.config.nslot ∧
    (banana.slot 2).node = some ⟨false, 0#8, 0#8, 2#8, 3#64, none, none⟩ ∧ (8#9).toNat ≤ 8 := by decide +kernel

/-- Each clause: the root's last position, its last occurrence of symbol 0, and a leaf. -/
theorem witness_TreeRankSelectProperties : banana.config.ok = true ∧ TreeOver banana 0 3 6 bananaArray ∧
    (∃ pn ∈ treePlan 0 3 6 (treeIds bananaArray 3 6), 5 < pn.seq.length ∧ pn.lo ≤ 0 ∧ 0 ≤ pn.hi ∧
      3 ≤ pn.seq.count 0) ∧
    ∃ pn ∈ treePlan 0 3 6 (treeIds bananaArray 3 6), pn.lo = pn.hi :=
  ⟨by decide +kernel, witness_treeOver, by decide +kernel, by decide +kernel⟩

theorem witness_FailedCommandsChangeNothing :
    issue 0x102#64 small = .next ((small.latchCmd 0x102#64).fail .eIllegal) ∧
      ((small.latchCmd 0x102#64).fail .eIllegal).code ≠ .ok := ⟨rfl, by decide⟩

/-- The step's clause: data that decode to nothing, and a command that its own check fails. -/
theorem witness_FailedCommandsChangeNothing_step :
    (step { small with hostQueue := [.write .cmd 0x102#64] }
        = .next ((small.latchCmd 0x102#64).fail .eIllegal) ∧
      ((small.latchCmd 0x102#64).fail .eIllegal).code ≠ .ok) ∧
    step { small with hostQueue := [.write .cmd 0x13#64] } = .next ((small.latchCmd 0x13#64).fail .eInvalid) ∧
      ((small.latchCmd 0x13#64).fail .eInvalid).code ≠ .ok := ⟨⟨rfl, by decide⟩, rfl, by decide⟩

theorem witness_CodesOfEachCommand : exec (.baLen 0#10 .P) small = .next (small.fail .eInvalid) := rfl

/-- Each clause: a failing command, the two that clear STICKY, and one that completes OK. -/
theorem witness_StickyFollowsTheCode :
    (exec (.baLen 0#10 .P) small = .next (small.fail .eInvalid) ∧ (small.fail .eInvalid).code ≠ .ok) ∧
      exec .sysClrerr small = .next small ∧ exec .sysReset small = .next small ∧
      exec .sysNop small = .next small ∧ small.code = .ok :=
  ⟨⟨rfl, by decide⟩, rfl, rfl, rfl, rfl⟩

theorem witness_OnlySysResetChangesOperands : exec .sysNop small = .next small ∧ Instr.sysNop ≠ .sysReset :=
  ⟨rfl, by decide⟩

theorem witness_QueriesChangeNoData : isQuery (.baLen 0#10 .P) = true ∧
    exec (.baLen 0#10 .P) bits1011 = .next (bits1011.complete 4) := ⟨rfl, rfl⟩

theorem witness_BaCommandsKeepLockedObjects : isBa (.baLen 0#10 .P) = true ∧
    exec (.baLen 0#10 .P) dict1011 = .next (dict1011.complete 4) ∧ (dict1011.slot 0).locked .P = true :=
  ⟨rfl, rfl, rfl⟩

theorem witness_SlotCommandsTouchOneSlot : (Instr.selOvh 0#10).slot? = some 0#10 ∧ (Instr.selOvh 0#10).opcode < 0x40 ∧
    exec (.selOvh 0#10) dict1011 = .next (dict1011.complete 0) := ⟨rfl, by decide, rfl⟩

theorem witness_ResetMeetsTheInvariants : ∀ c ∈ [(⟨1, 0⟩ : Config), ⟨1024, 2 ^ 64 - 1⟩, Config.default], c.ok = true := by
  decide

/-! The invariants hold of a state with a dictionary, and of one with two trees. -/

theorem dict1011_slot_ge {k : Nat} (h : 1 ≤ k) : dict1011.slot k = Slot.empty := by
  have hs : dict1011.slots = [(0, dict1011.slot 0)] := by decide +kernel
  rw [State.slot, hs, sparseRead, if_neg (by omega)]; rfl

theorem twoLeaves_slot_lt {k : Nat} (h : k < 2) : twoLeaves.slot k = leafSlot := by
  obtain rfl | rfl : k = 0 ∨ k = 1 := by omega
  · rfl
  · rfl

theorem twoLeaves_slot_ge {k : Nat} (h : 2 ≤ k) : twoLeaves.slot k = Slot.empty := by
  rw [State.slot, twoLeaves, sparseRead, if_neg (by omega), sparseRead, if_neg (by omega)]; rfl

theorem noBits_wellFormed : noBits.WellFormed := BitArray.zeros_wellFormed 0

theorem witness_treeOver_first : TreeOver twoLeaves 0 1 1 noBits := by
  refine ⟨?_, ?_, ?_, ?_, ?_, ?_, ?_, ?_, ?_, ?_⟩ <;> decide +kernel

theorem witness_treeOver_second : TreeOver twoLeaves 1 1 1 noBits := by
  refine ⟨?_, ?_, ?_, ?_, ?_, ?_, ?_, ?_, ?_, ?_⟩ <;> decide +kernel

theorem witness_storageInv : StorageInv twoLeaves := by
  have hcase : ∀ k, twoLeaves.slot k = leafSlot ∨ twoLeaves.slot k = Slot.empty := fun k => by
    rcases Nat.lt_or_ge k 2 with h | h
    · exact .inl (twoLeaves_slot_lt h)
    · exact .inr (twoLeaves_slot_ge h)
  refine ⟨by decide, by decide +kernel, fun k h => twoLeaves_slot_ge (le_trans (by decide) h), fun k r a h => ?_,
    fun k => ?_, fun k => ?_, by decide +kernel, by decide +kernel⟩
  · rcases hcase k with hk | hk <;> rw [hk] at h <;> cases r <;> cases h <;> exact noBits_wellFormed
  · rcases hcase k with hk | hk <;> rw [hk] <;> rfl
  · rcases hcase k with hk | hk <;> rw [hk] <;> rfl

theorem witness_dictInv : DictInv dict1011 := by
  intro k h
  rcases Nat.eq_zero_or_pos k with rfl | hk
  · exact ⟨vector1011, witness_hasDict.1⟩
  · rw [dict1011_slot_ge hk] at h; cases h

theorem witness_treeInv : TreeInv twoLeaves := by
  refine ⟨by decide, fun k nd h _ => ?_, fun k nd h hr => ?_⟩
  · rcases Nat.lt_or_ge k 2 with hk | hk
    · obtain rfl | rfl : k = 0 ∨ k = 1 := by omega
      · exact ⟨1, 1, noBits, witness_treeOver_first⟩
      · exact ⟨1, 1, noBits, witness_treeOver_second⟩
    · rw [twoLeaves_slot_ge hk] at h; cases h
  · rcases Nat.lt_or_ge k 2 with hk | hk
    · rw [twoLeaves_slot_lt hk] at h; cases h; cases hr
    · rw [twoLeaves_slot_ge hk] at h; cases h

/-- The step that BA.NEW takes from a state that meets each invariant. -/
def pending (s : State) : State := { s with hostQueue := [.write .cmd 0x00000210#64] }

theorem witness_StepKeepsStorageInv : StorageInv (pending twoLeaves) ∧
    step (pending twoLeaves) = .next (after (.baNew 2#10 .P) (twoLeaves.latchCmd 0x210#64)) :=
  ⟨⟨witness_storageInv.1, witness_storageInv.2, witness_storageInv.3, witness_storageInv.4, witness_storageInv.5,
    witness_storageInv.6, witness_storageInv.7, witness_storageInv.8⟩, rfl⟩

theorem witness_StepKeepsDictionaries : DictInv (pending dict1011) ∧
    step (pending dict1011) = .next (after (.baNew 2#10 .P) (dict1011.latchCmd 0x210#64)) :=
  ⟨witness_dictInv, rfl⟩

theorem witness_StepKeepsTrees : TreeInv (pending twoLeaves) ∧
    step (pending twoLeaves) = .next (after (.baNew 2#10 .P) (twoLeaves.latchCmd 0x210#64)) := by
  refine ⟨⟨by decide, fun k nd h hr => ?_, fun k nd h hr => ?_⟩, rfl⟩
  · obtain ⟨a, m, input, ht⟩ := witness_treeInv.roots k nd h hr
    exact ⟨a, m, input, ht.1, ht.2, ht.3, ht.4, ht.5, ht.6, ht.7, ht.8, ht.9, ht.10⟩
  · obtain ⟨j, a, m, input, ht, hj⟩ := witness_treeInv.children k nd h hr
    exact ⟨j, a, m, input, ⟨ht.1, ht.2, ht.3, ht.4, ht.5, ht.6, ht.7, ht.8, ht.9, ht.10⟩, hj⟩

theorem witness_InvariantsGiveTheItemsOfR31 : SpuInv twoLeaves := by
  refine ⟨witness_storageInv, fun k h => ?_, witness_treeInv⟩
  rcases Nat.lt_or_ge k 2 with hk | hk
  · rw [twoLeaves_slot_lt hk] at h; cases h
  · rw [twoLeaves_slot_ge hk] at h; cases h

theorem witness_TreesDoNotOverlap : twoLeaves.config.ok = true ∧ TreeOver twoLeaves 0 1 1 noBits ∧
    TreeOver twoLeaves 1 1 1 noBits ∧ 0 ≠ 1 :=
  ⟨by decide, witness_treeOver_first, witness_treeOver_second, by decide⟩

end Sys2Proof.Tests
end

section
/-!
PROOFS. Scope of the machine (00_scope.md R7): what a CMD write runs, and that every command and every step answers a
next state.
-/

namespace Sys2Proof.Machine

/-! The command word in the decoder's bit numbering, and the step that takes it. -/

theorem decodeTableWord_eq_some {nbits w : Nat} {i : Instr} :
    decodeTableWord nbits w = some i ↔ decode (BitVec.ofNat 64 (w % 2 ^ nbits)) = .command i := by
  unfold decodeTableWord
  cases decode (BitVec.ofNat 64 (w % 2 ^ nbits)) <;> simp

@[simp] theorem State.withFetchWord_hostQueue (s : State) (nbits w : Nat) :
    (s.withFetchWord nbits w).hostQueue = .write .cmd (BitVec.ofNat 64 (w % 2 ^ nbits)) :: s.hostQueue := rfl

/-- What CMD keeps of the data that carry a 32-bit word (60_exceptions.md R203). -/
theorem setWidth_ofNat_mod_two_pow (w : Nat) : (BitVec.ofNat 64 (w % 2 ^ 32)).setWidth 32 = BitVec.ofNat 32 w := by
  apply BitVec.eq_of_toNat_eq
  simp only [BitVec.toNat_setWidth, BitVec.toNat_ofNat]
  omega

/-- A CMD write of a command's data runs the command on the state with CMD latched (60_exceptions.md R203). -/
theorem step_write_cmd_of_command {s : State} {data : Word} {rest : List HostAction} {i : Instr}
    (hq : s.hostQueue = .write .cmd data :: rest) (hi : decode data = .command i) :
    step s = exec i { s with hostQueue := rest, cmd := data.setWidth 32 } :=
  (step_write_cmd hq).trans (issue_of_command hi _)

theorem step_withFetchWord {s : State} {w : Nat} {i : Instr} (hi : decodeTableWord 32 w = some i) :
    step (s.withFetchWord 32 w) = exec i { s with cmd := BitVec.ofNat 32 w } := by
  have hstep := step_write_cmd_of_command (s.withFetchWord_hostQueue 32 w) (decodeTableWord_eq_some.mp hi)
  rw [setWidth_ofNat_mod_two_pow] at hstep
  exact hstep

/-! Every command and every step completes. -/

theorem exec_sysNop (s : State) : exec .sysNop s = .next (s.complete 0) := rfl

theorem exec_sysReset (s : State) : exec .sysReset s = .next s.resetData := rfl

theorem exec_sysClrerr (s : State) : exec .sysClrerr s = .next { s.complete 0 with sticky := false } := rfl

/-- The commands that use no slot are the SYS commands (30_encoding.md R84). -/
theorem Instr.slot?_eq_none {i : Instr} (h : i.slot? = none) : i = .sysNop ∨ i = .sysReset ∨ i = .sysClrerr := by
  cases i with
  | sysNop => exact .inl rfl
  | sysReset => exact .inr (.inl rfl)
  | sysClrerr => exact .inr (.inr rfl)
  | _ => cases h

/-- A command that uses a slot runs in the slot frame of that slot, whatever its own rule (30_encoding.md R85). -/
theorem exec_eq_inSlot {i : Instr} {k : SlotNum} (h : i.slot? = some k) (s : State) :
    ∃ rule, exec i s = inSlot k s rule := by
  cases i with
  | sysNop | sysReset | sysClrerr => cases h
  | _ =>
    cases h
    simp only [exec, execBaNew, execBaResize, execBaFree, execBaLen, execBaGetbit, execBaSetbit, execBaClrbit,
      execBaGetint, execBaSetint, execRdBuild, execRdFree, execRdRank1, execRdRank0, execRdOvh, execRdParam,
      execSelSelect1, execSelSelect0, execSelOvh, execWtBuild, execWtFree, execWtRank, execWtSelect, execWtField]
    exact ⟨_, rfl⟩

theorem exec_completes (i : Instr) (s : State) : ∃ t, exec i s = .next t := by
  cases hk : i.slot? with
  | none =>
    obtain rfl | rfl | rfl := Instr.slot?_eq_none hk
    · exact ⟨_, exec_sysNop s⟩
    · exact ⟨_, exec_sysReset s⟩
    · exact ⟨_, exec_sysClrerr s⟩
  | some k =>
    obtain ⟨rule, hrule⟩ := exec_eq_inSlot hk s
    exact ⟨_, hrule.trans (inSlot_eq k s rule)⟩

/-- A CMD write completes: with E_ILLEGAL, or as the command it selects does (30_encoding.md R85). -/
theorem issue_completes (data : Word) (s : State) : ∃ t, issue data s = .next t := by
  cases hd : decode data with
  | illegal why => exact ⟨_, issue_of_illegal hd s⟩
  | command i =>
    obtain ⟨t, ht⟩ := exec_completes i (s.latchCmd data)
    exact ⟨t, (issue_of_command hd s).trans ht⟩

theorem commandData_eq_some {a : HostAction} {data : Word} : commandData a = some data ↔ a = .write .cmd data := by
  cases a with
  | write r v => cases r <;> simp [commandData]
  | read r => simp [commandData]
  | hardReset => simp [commandData]

theorem step_completes (s : State) : ∃ t, step s = .next t := by
  cases hq : s.hostQueue with
  | nil => exact ⟨s, step_idle hq⟩
  | cons a rest =>
    cases ha : commandData a with
    | none => exact ⟨_, step_hostAct hq ha⟩
    | some data =>
      rw [commandData_eq_some.mp ha] at hq
      obtain ⟨t, ht⟩ := issue_completes data { s with hostQueue := rest }
      exact ⟨t, (step_write_cmd hq).trans ht⟩

/-- Settles O6: the step issues the data of the write, and data that decode to a command run it. -/
theorem stepRunsTheDecodedCommand : Obligations.StepRunsTheDecodedCommand := by
  unfold Obligations.StepRunsTheDecodedCommand
  exact ⟨fun _ _ _ _ hq hi => step_write_cmd_of_command hq hi, fun _ _ _ hi => step_withFetchWord hi⟩

/-- Settles O13: by the kinds of host action; a command completes either as a SYS command or in its slot's frame. -/
theorem everyStepAnswersNext : Obligations.EveryStepAnswersNext := by
  unfold Obligations.EveryStepAnswersNext
  exact step_completes

end Sys2Proof.Machine
end

section
/-!
PROOFS. What a command can do to the data (10_state.md R20): one effect per way a slot command completes, the command's
checks kept as facts, and the rule by which an invariant of the data is one of every step.
-/

namespace Sys2Proof.Machine

/-! The operations over many slots change the slot file only. -/

@[simp] theorem State.clearRun_config (s : State) (k cnt : Nat) : (s.clearRun k cnt).config = s.config := by
  rw [State.clearRun_eq]

@[simp] theorem State.clearRun_used (s : State) (k cnt : Nat) : (s.clearRun k cnt).used = s.used := by
  rw [State.clearRun_eq]

@[simp] theorem State.clearRun_sticky (s : State) (k cnt : Nat) : (s.clearRun k cnt).sticky = s.sticky := by
  rw [State.clearRun_eq]

@[simp] theorem State.buildPlan_config (s : State) (w : Nat) (plan : List PlanNode) :
    (s.buildPlan w plan).config = s.config := by
  rw [State.buildPlan_eq]

@[simp] theorem State.buildPlan_used (s : State) (w : Nat) (plan : List PlanNode) :
    (s.buildPlan w plan).used = s.used := by
  rw [State.buildPlan_eq]

@[simp] theorem State.buildPlan_sticky (s : State) (w : Nat) (plan : List PlanNode) :
    (s.buildPlan w plan).sticky = s.sticky := by
  rw [State.buildPlan_eq]

@[simp] theorem State.setArr_slots (s : State) (k : Nat) (r : Role) (a : Option BitArray) :
    (s.setArr k r a).slots = (s.setSlot k ((s.slot k).setArr r a)).slots := rfl

/-- No bytes freed and none added leave USED as it is. -/
theorem State.account_zero (s : State) : s.account 0 0 = s := by
  simp [State.account, State.setUsed]

/-! The effects, each with what the command's checks have made sure of. -/

/-- `A(k, r)` of an unlocked role becomes `new`, which frees and adds these bytes (41_bitarray.md R110 to R118). -/
structure ArrayWrite (s : State) (k : Nat) (r : Role) (new : Option BitArray) (freed added : Nat) : Prop where
  inRange : k < s.config.nslot
  unlocked : (s.slot k).locked r = false
  wellFormed : (∀ a, (s.slot k).arr r = some a → a.WellFormed) → ∀ a, new = some a → a.WellFormed
  bytes : arrBytes new + freed = arrBytes ((s.slot k).arr r) + added
  freed_le : freed ≤ arrBytes ((s.slot k).arr r)
  capacity : added = 0 ∨ s.used.toNat - freed + added ≤ s.config.memBytes

/-- A dictionary is built over `b` in a slot that has neither dictionary nor node (42_rank.md R140). -/
structure DictBuild (s : State) (k : Nat) (b : BitArray) : Prop where
  inRange : k < s.config.nslot
  node : (s.slot k).node = none
  rankDict : (s.slot k).rankDict = none
  partitionBits : (s.slot k).partitionBits = some b
  two_le : 2 ≤ b.len
  capacity : s.used.toNat + (sizeParams b.len).tableBytes ≤ s.config.memBytes

/-- A slot without its dictionary and the two tables (42_rank.md R141). -/
def Slot.withoutDict (sl : Slot) : Slot := { sl with superblockTable := none, blockTable := none, rankDict := none }

/-- The nodes of the tree over the `m` symbols of `input`, whose alphabet has `a` (44_wavelet.md R175). -/
abbrev inputPlan (k a m : Nat) (input : BitArray) : List PlanNode := treePlan k a m (treeIds input a m)

/-- A tree is built over the `m` symbols of `input` in a run that holds nothing else (44_wavelet.md R175). -/
structure TreeBuild (s : State) (k a m : Nat) (input : BitArray) : Prop where
  alphabetPos : 1 ≤ a
  alphabetMax : a ≤ 256
  lengthPos : 1 ≤ m
  lengthMax : m < 2 ^ 64
  fits : k + runLength a ≤ s.config.nslot
  root : s.slot k = { Slot.empty with symbols := some input }
  rest : ∀ j, k < j → j < k + runLength a → s.slot j = Slot.empty
  inputLen : input.len = m * symbolWidth a
  inRange : idsInRange a (treeIds input a m) = true
  allOccur : idsAllOccur a (treeIds input a m) = true
  capacity : s.used.toNat + planNeed (symbolWidth a) (inputPlan k a m input) ≤ s.config.memBytes

/-- The ways a command on slot `k` completes. -/
inductive SlotEffect (s : State) (k : Nat) : State → Prop where
  | failed (c : Status) (hc : c ≠ .ok) : SlotEffect s k (s.fail c)
  | answered (v : Nat) : SlotEffect s k (s.complete v)
  | arrayWritten (r : Role) (new : Option BitArray) (freed added : Nat) (h : ArrayWrite s k r new freed added) :
      SlotEffect s k (((s.setArr k r new).account freed added).complete 0)
  | dictBuilt (b : BitArray) (h : DictBuild s k b) :
      SlotEffect s k (((s.setSlot k ((s.slot k).withDict b)).account 0 (sizeParams b.len).tableBytes).complete 0)
  | dictFreed (hk : k < s.config.nslot) (hn : (s.slot k).node = none) :
      SlotEffect s k (((s.setSlot k (s.slot k).withoutDict).account
        (arrBytes (s.slot k).superblockTable + arrBytes (s.slot k).blockTable) 0).complete 0)
  | treeBuilt (a m : Nat) (input : BitArray) (h : TreeBuild s k a m input) :
      SlotEffect s k (((s.buildPlan (symbolWidth a) (inputPlan k a m input)).account 0
        (planNeed (symbolWidth a) (inputPlan k a m input))).complete 0)
  | treeFreed (nd : Node) (hn : (s.slot k).node = some nd) (hr : nd.isRoot = true) (cnt : Nat)
      (hcnt : cnt = runLength (nd.alphabetHigh.toNat - nd.alphabetLow.toNat + 1)) :
      SlotEffect s k (((s.clearRun k cnt).account (s.runBytes k cnt) 0).complete 0)

/-! One check of a rule: it fails, or the rule goes on. -/

section Checks

variable {s t : State} {k : Nat} {c : Status} {p : Prop} [Decidable p]

theorem SlotEffect.check (hc : c ≠ .ok) (h : ¬p → SlotEffect s k t) : SlotEffect s k (if p then s.fail c else t) := by
  split
  · exact .failed c hc
  · next hp => exact h hp

theorem SlotEffect.require (hc : c ≠ .ok) (h : p → SlotEffect s k t) : SlotEffect s k (if p then t else s.fail c) := by
  split
  · next hp => exact h hp
  · exact .failed c hc

end Checks

theorem inSlot_effect {k : SlotNum} {s t : State} {rule : Slot → State} (h : inSlot k s rule = .next t)
    (hrule : k.toNat < s.config.nslot → SlotEffect s k.toNat (rule (s.slot k.toNat))) : SlotEffect s k.toNat t := by
  rw [inSlot_eq] at h
  cases h
  exact .check (by decide) fun hk => hrule (by omega)

/-! The BA commands that write. -/

section Ba

variable {k : SlotNum} {r : Role} {s t : State}

theorem used_le_of_not_overCapacity {freed added : Nat} (h : ¬s.overCapacity freed added = true) :
    s.used.toNat - freed + added ≤ s.config.memBytes := by
  rw [State.overCapacity_iff] at h; omega

theorem arrBytes_zeros (n : Word) : arrBytes (some (BitArray.zeros n.toNat)) = bytesFor n.toNat := by
  rw [arrBytes_some, BitArray.zeros_len n.isLt]

/-- An array newly made, or made again, of OP0 zero bits. -/
theorem ArrayWrite.zeros (hk : k.toNat < s.config.nslot) (hl : ¬(s.slot k.toNat).locked r = true)
    (hcap : ¬s.overCapacity (arrBytes ((s.slot k.toNat).arr r)) (bytesFor s.operand0) = true) :
    ArrayWrite s k.toNat r (some (BitArray.zeros s.operand0)) (arrBytes ((s.slot k.toNat).arr r))
      (bytesFor s.operand0) where
  inRange := hk
  unlocked := by simpa using hl
  wellFormed := by rintro - _ ⟨⟩; exact BitArray.zeros_wellFormed _
  bytes := by rw [State.operand0, arrBytes_zeros, Nat.add_comm]
  freed_le := Nat.le_refl _
  capacity := .inr (used_le_of_not_overCapacity hcap)

/-- An array rewritten in place, its length kept. -/
theorem ArrayWrite.inPlace {a a' : BitArray} (hk : k.toNat < s.config.nslot)
    (hl : ¬(s.slot k.toNat).locked r = true) (ha : (s.slot k.toNat).arr r = some a) (hlen : a'.len = a.len)
    (hwf : a.WellFormed → a'.WellFormed) : ArrayWrite s k.toNat r (some a') 0 0 where
  inRange := hk
  unlocked := by simpa using hl
  wellFormed := by rintro h _ ⟨⟩; exact hwf (h a ha)
  bytes := by rw [ha, arrBytes_some, arrBytes_some, hlen]
  freed_le := Nat.zero_le _
  capacity := .inl rfl

theorem SlotEffect.inPlace {new : Option BitArray} (h : ArrayWrite s k.toNat r new 0 0) :
    SlotEffect s k.toNat ((s.setArr k.toNat r new).complete 0) := by
  have := SlotEffect.arrayWritten r new 0 0 h
  rwa [State.account_zero] at this

theorem execBaNew_effect (h : execBaNew k r s = .next t) : SlotEffect s k.toNat t := by
  refine inSlot_effect h fun hk => .check (by decide) fun hl => .check (by decide) fun he =>
    .check (by decide) fun hcap => ?_
  have hnone : (s.slot k.toNat).arr r = none := by simpa using he
  have hz := ArrayWrite.zeros hk hl (by rw [hnone]; exact hcap)
  rw [hnone] at hz
  exact .arrayWritten _ _ _ _ hz

theorem execBaResize_effect (h : execBaResize k r s = .next t) : SlotEffect s k.toNat t := by
  refine inSlot_effect h fun hk => .check (by decide) fun hl => ?_
  cases ha : (s.slot k.toNat).arr r with
  | none => exact .failed _ (by decide)
  | some a =>
    refine .check (by decide) fun hcap => ?_
    have hz := ArrayWrite.zeros hk hl (by rw [ha]; exact hcap)
    rw [ha] at hz
    exact .arrayWritten _ _ _ _ hz

theorem execBaFree_effect (h : execBaFree k r s = .next t) : SlotEffect s k.toNat t := by
  refine inSlot_effect h fun hk => .check (by decide) fun hl => ?_
  cases ha : (s.slot k.toNat).arr r with
  | none => exact .failed _ (by decide)
  | some a =>
    refine .arrayWritten r none a.bytes 0 ⟨hk, by simpa using hl, nofun, ?_, ?_, .inl rfl⟩
    · rw [ha, Nat.add_comm]; rfl
    · rw [ha]; exact Nat.le_refl _

theorem execBaSetbit_effect (h : execBaSetbit k r s = .next t) : SlotEffect s k.toNat t := by
  refine inSlot_effect h fun hk => .check (by decide) fun hl => ?_
  cases ha : (s.slot k.toNat).arr r with
  | none => exact .failed _ (by decide)
  | some a =>
    refine .require (by decide) fun hi => .inPlace (.inPlace hk hl ha rfl fun hwf => ?_)
    exact hwf.setBit ((BitArray.hasBit_iff _ _).mp hi)

theorem execBaClrbit_effect (h : execBaClrbit k r s = .next t) : SlotEffect s k.toNat t := by
  refine inSlot_effect h fun hk => .check (by decide) fun hl => ?_
  cases ha : (s.slot k.toNat).arr r with
  | none => exact .failed _ (by decide)
  | some a =>
    exact .require (by decide) fun _ => .inPlace (.inPlace hk hl ha rfl fun hwf => hwf.clearBit _)

theorem execBaSetint_effect {w : Imm9} (h : execBaSetint k r w s = .next t) : SlotEffect s k.toNat t := by
  refine inSlot_effect h fun hk => .check (by decide) fun _ => .check (by decide) fun hl => ?_
  cases ha : (s.slot k.toNat).arr r with
  | none => exact .failed _ (by decide)
  | some a =>
    refine .require (by decide) fun hi => .inPlace (.inPlace hk hl ha (a.setInt_len ..) fun hwf => ?_)
    exact hwf.setInt _ ((BitArray.hasInt_iff _ _ _).mp hi)

end Ba

/-! The RD and WT commands that write. -/

section RdWt

variable {k : SlotNum} {s t : State}

theorem execRdBuild_effect (h : execRdBuild k s = .next t) : SlotEffect s k.toNat t := by
  refine inSlot_effect h fun hk => .check (by decide) fun hn => .check (by decide) fun hd => ?_
  cases hb : (s.slot k.toNat).partitionBits with
  | none => exact .failed _ (by decide)
  | some b =>
    refine .check (by decide) fun h2 => .check (by decide) fun hcap => .dictBuilt b ?_
    exact ⟨hk, by simpa using hn, by simpa using hd, hb, by omega, used_le_of_not_overCapacity hcap⟩

theorem execRdFree_effect (h : execRdFree k s = .next t) : SlotEffect s k.toNat t :=
  inSlot_effect h fun hk => .check (by decide) fun hn => .check (by decide) fun _ => .dictFreed hk (by simpa using hn)

/-- The checks of WT.BUILD, on the elements of the input (44_wavelet.md R175). -/
theorem execWtBuild_effect {alphabet : Imm9} (h : execWtBuild k alphabet s = .next t) : SlotEffect s k.toNat t := by
  refine inSlot_effect h fun _ => .check (by decide) fun hp => .check (by decide) fun hslots =>
    .check (by decide) fun hvacant => ?_
  have ha : 1 ≤ alphabet.toNat := by omega
  have hm : 1 ≤ s.operand0 := by omega
  obtain ⟨hroot, hrest⟩ := (s.runVacant_iff k.toNat ha).mp (by simpa using hvacant)
  cases hin : (s.slot k.toNat).symbols with
  | none => exact .failed _ (by decide)
  | some input =>
    refine .check (by decide) fun hlen => .check (by decide) fun hids => .check (by decide) fun hcap => ?_
    rw [buildIdsOk_buildIds input _ hm, Bool.not_eq_false, Bool.and_eq_true] at hids
    rw [planNeed_buildIds] at hcap ⊢
    rw [buildPlan_buildIds]
    refine .treeBuilt _ _ input ?_
    exact {
      alphabetPos := ha
      alphabetMax := by omega
      lengthPos := hm
      lengthMax := s.op0.isLt
      fits := by unfold runLength; omega
      root := by rw [hroot, hin]
      rest := fun j hj hlt => by
        have := hrest (j - k.toNat) (by unfold runLength at hlt; omega) (by omega)
        rwa [Nat.add_sub_cancel' hj.le] at this
      inputLen := by simpa using hlen
      inRange := hids.1
      allOccur := hids.2
      capacity := used_le_of_not_overCapacity hcap }

theorem execWtFree_effect (h : execWtFree k s = .next t) : SlotEffect s k.toNat t := by
  refine inSlot_effect h fun _ => ?_
  cases hn : (s.slot k.toNat).node with
  | none => exact .failed _ (by decide)
  | some nd => exact .require (by decide) fun hr => .treeFreed nd hn hr _ rfl

end RdWt

/-- Every arm of a query's rule is a failed check or an answer. -/
theorem exec_query_effect {i : Instr} {k : SlotNum} {s t : State} (hq : isQuery i = true) (hk : i.slot? = some k)
    (h : exec i s = .next t) : SlotEffect s k.toNat t := by
  cases i with
  | sysNop | sysReset | sysClrerr => cases hk
  | baNew | baResize | baFree | baSetbit | baClrbit | baSetint | rdBuild | rdFree | wtBuild | wtFree => cases hq
  | _ =>
    cases hk
    simp only [exec, execBaLen, execBaGetbit, execBaGetint, execRdRank1, execRdRank0, execRdOvh, execRdParam,
      execSelSelect1, execSelSelect0, execSelOvh, execWtRank, execWtSelect, execWtField] at h
    refine inSlot_effect h fun _ => ?_
    repeat' split
    all_goals constructor
    all_goals decide

/-- What a slot command does, by its command (30_encoding.md R86). -/
theorem exec_effect {i : Instr} {k : SlotNum} {s t : State} (hk : i.slot? = some k) (h : exec i s = .next t) :
    SlotEffect s k.toNat t := by
  cases i with
  | sysNop | sysReset | sysClrerr => cases hk
  | baNew => cases hk; exact execBaNew_effect h
  | baResize => cases hk; exact execBaResize_effect h
  | baFree => cases hk; exact execBaFree_effect h
  | baSetbit => cases hk; exact execBaSetbit_effect h
  | baClrbit => cases hk; exact execBaClrbit_effect h
  | baSetint => cases hk; exact execBaSetint_effect h
  | rdBuild => cases hk; exact execRdBuild_effect h
  | rdFree => cases hk; exact execRdFree_effect h
  | wtBuild => cases hk; exact execWtBuild_effect h
  | wtFree => cases hk; exact execWtFree_effect h
  | _ => exact exec_query_effect rfl hk h

/-- The code a slot command completes with, and what becomes of STICKY (60_exceptions.md R203). -/
theorem SlotEffect.status {s t : State} {k : Nat} (h : SlotEffect s k t) :
    (t.code ≠ .ok ∧ t.sticky = true) ∨ (t.code = .ok ∧ t.sticky = s.sticky) := by
  cases h with
  | failed c hc => exact .inl ⟨hc, rfl⟩
  | answered | arrayWritten | dictBuilt | dictFreed => exact .inr ⟨rfl, rfl⟩
  | treeBuilt | treeFreed => exact .inr ⟨rfl, by simp [State.account, State.setUsed]⟩

/-- Two states with the same data: parameters, slots and USED. -/
structure SameData (s t : State) : Prop where
  config : t.config = s.config
  slots : t.slots = s.slots
  used : t.used = s.used

theorem SameData.slot {s t : State} (h : SameData s t) (j : Nat) : t.slot j = s.slot j := by
  rw [State.slot, State.slot, h.slots]

/-- A property of the data that reset establishes and every slot command keeps. -/
structure DataInvariant (P : State → Prop) : Prop where
  same : ∀ {s t : State}, SameData s t → P s → P t
  reset : ∀ {s : State}, P s → P s.resetData
  slot : ∀ {s t : State} {k : Nat}, SlotEffect s k t → P s → P t

namespace DataInvariant

variable {P : State → Prop} {s t : State}

theorem exec (hP : DataInvariant P) {i : Instr} (hs : P s) (h : exec i s = .next t) : P t := by
  cases hk : i.slot? with
  | none =>
    obtain rfl | rfl | rfl := Instr.slot?_eq_none hk <;> cases h
    · exact hP.same (s := s) ⟨rfl, rfl, rfl⟩ hs
    · exact hP.reset hs
    · exact hP.same (s := s) ⟨rfl, rfl, rfl⟩ hs
  | some k => exact hP.slot (exec_effect hk h) hs

theorem issue (hP : DataInvariant P) {data : Word} (hs : P s) (h : issue data s = .next t) : P t := by
  cases hd : decode data with
  | illegal why =>
    rw [issue_of_illegal hd] at h
    cases h
    exact hP.same (s := s) ⟨rfl, rfl, rfl⟩ hs
  | command i =>
    rw [issue_of_command hd] at h
    exact hP.exec (s := s.latchCmd data) (hP.same (s := s) ⟨rfl, rfl, rfl⟩ hs) h

theorem hostAct (hP : DataInvariant P) (a : HostAction) (hs : P s) : P (s.hostAct a) := by
  cases a with
  | write r v => cases r <;> exact hP.same (s := s) ⟨rfl, rfl, rfl⟩ hs
  | read r => exact hP.same (s := s) ⟨rfl, rfl, rfl⟩ hs
  | hardReset => exact hP.same (s := s.resetData) ⟨rfl, rfl, rfl⟩ (hP.reset hs)

/-- An invariant of the data is kept by every step, whatever the host does. -/
theorem step (hP : DataInvariant P) (hs : P s) (h : step s = .next t) : P t := by
  cases hq : s.hostQueue with
  | nil =>
    rw [step_idle hq] at h
    cases h
    exact hs
  | cons a rest =>
    have hs' : P { s with hostQueue := rest } := hP.same (s := s) ⟨rfl, rfl, rfl⟩ hs
    cases ha : commandData a with
    | none =>
      rw [step_hostAct hq ha] at h
      cases h
      exact hP.hostAct a hs'
    | some data =>
      rw [commandData_eq_some.mp ha] at hq
      rw [step_write_cmd hq] at h
      exact hP.issue hs' h

end DataInvariant

end Sys2Proof.Machine
end

section
/-!
PROOFS. The state the rules leave (10_state.md): what a successful WT.BUILD leaves slot by slot, and the storage
invariant (R25, R28, R31), kept by every step.
-/

namespace Sys2Proof.Machine

/-! What a build leaves, slot by slot (44_wavelet.md R174, R175). -/

namespace TreeBuild

variable {s : State} {k a m : Nat} {input : BitArray} {pn : PlanNode}

theorem good (h : TreeBuild s k a m input) : PlanGood k a (treeIds input a m) (inputPlan k a m input) := by
  have hg := treePlan_good k h.alphabetPos h.inRange
  rwa [treeIds_length] at hg

theorem seq_length_le (h : TreeBuild s k a m input) (hpn : pn ∈ inputPlan k a m input) : pn.seq.length ≤ m := by
  rw [(h.good.nodes pn hpn).seq]
  exact (List.length_filter_le _ _).trans (treeIds_length ..).le

theorem seq_length_lt (h : TreeBuild s k a m input) (hpn : pn ∈ inputPlan k a m input) : pn.seq.length < 2 ^ 64 :=
  lt_of_le_of_lt (h.seq_length_le hpn) h.lengthMax

/-- The symbols of every node fit a 64-bit length, as the input's do. -/
theorem symbols_lt (h : TreeBuild s k a m input) (hpn : pn ∈ inputPlan k a m input) :
    pn.seq.length * symbolWidth a < 2 ^ 64 := by
  have hle := Nat.mul_le_mul_right (symbolWidth a) (h.seq_length_le hpn)
  rw [← h.inputLen] at hle
  exact lt_of_le_of_lt hle input.bitCount.isLt

theorem two_le (h : TreeBuild s k a m input) (hpn : pn ∈ inputPlan k a m input) (hlt : pn.lo < pn.hi) :
    2 ≤ pn.seq.length := h.good.two_le h.alphabetPos h.allOccur hpn hlt

theorem isRoot_iff (h : TreeBuild s k a m input) (hpn : pn ∈ inputPlan k a m input) :
    pn.isRoot = true ↔ pn.slot = k := by
  rw [(h.good.nodes pn hpn).isRoot]; simp

/-- Before the build a slot of the run holds at most its symbols, and those in the root's slot only. -/
theorem vacant (h : TreeBuild s k a m input) {j : Nat} (hlo : k ≤ j) (hhi : j < k + runLength a) :
    s.slot j = { Slot.empty with symbols := if j = k then some input else none } := by
  split
  · next hj => rw [hj, h.root]
  · exact h.rest j (by omega) hhi

theorem vacant_of_mem (h : TreeBuild s k a m input) (hpn : pn ∈ inputPlan k a m input) :
    s.slot pn.slot = { Slot.empty with symbols := if pn.isRoot then some input else none } := by
  obtain ⟨hlo, hhi⟩ := h.good.slot_lt h.alphabetPos hpn
  simp only [h.vacant hlo hhi, h.isRoot_iff hpn]

/-- After the build a slot of the run is its node's, and every other slot is as before. -/
theorem slot_cases (h : TreeBuild s k a m input) (j : Nat) :
    (∃ pn ∈ inputPlan k a m input, pn.slot = j ∧
      (s.buildPlan (symbolWidth a) (inputPlan k a m input)).slot j = pn.build (symbolWidth a) (s.slot j)) ∨
    (¬(k ≤ j ∧ j < k + runLength a) ∧
      (s.buildPlan (symbolWidth a) (inputPlan k a m input)).slot j = s.slot j) := by
  obtain ⟨hin, -, hout⟩ := State.buildPlan_tree (s := s) (w := symbolWidth a) h.good h.alphabetPos
  by_cases hj : k ≤ j ∧ j < k + runLength a
  · obtain ⟨pn, hpn, rfl⟩ := h.good.cover j hj.1 hj.2
    exact .inl ⟨pn, hpn, rfl, hin pn hpn⟩
  · exact .inr ⟨hj, hout j (by omega)⟩

/-- What a node's build adds to the bytes of its slot. -/
theorem build_bytes (h : TreeBuild s k a m input) (hpn : pn ∈ inputPlan k a m input) :
    (pn.build (symbolWidth a) (s.slot pn.slot)).bytes = pn.need (symbolWidth a) + (s.slot pn.slot).bytes := by
  rw [PlanNode.build_bytes (h.good.nodes pn hpn).len (h.two_le hpn) (h.seq_length_lt hpn) fun _ => h.symbols_lt hpn,
    h.vacant_of_mem hpn]
  cases pn.isRoot <;> simp [Slot.bytes, Slot.empty, arrBytes]

/-- USED grows by the bytes of check 10 (44_wavelet.md R175). -/
theorem usedSum (h : TreeBuild s k a m input) (hwf : sparseWf Slot.empty 0 s.slots = true) :
    (s.buildPlan (symbolWidth a) (inputPlan k a m input)).usedSum
      = s.usedSum + planNeed (symbolWidth a) (inputPlan k a m input) :=
  State.usedSum_buildPlan hwf _ h.good.nodup fun _ hpn => h.build_bytes hpn

end TreeBuild

/-! One slot's share of the storage invariant. -/

/-- Every array of the slot is well-formed, and it has tables exactly where it has a dictionary (10_state.md R25, R31
item 2). -/
structure Slot.Sound (sl : Slot) : Prop where
  arrays : ∀ r a, sl.arr r = some a → a.WellFormed
  superblockTable : sl.superblockTable.isSome = sl.rankDict.isSome
  blockTable : sl.blockTable.isSome = sl.rankDict.isSome

theorem Slot.empty_sound : Slot.empty.Sound := ⟨fun r a h => by simp at h, rfl, rfl⟩

/-- An unlocked array's role is P or S (60_exceptions.md R211). -/
theorem Slot.role_of_unlocked {sl : Slot} {r : Role} (h : sl.locked r = false) : r = .P ∨ r = .S := by
  cases r with
  | P => exact .inl rfl
  | S => exact .inr rfl
  | SBT | BLT => cases h

theorem Slot.Sound.setArr {sl : Slot} (h : sl.Sound) {r : Role} (hl : sl.locked r = false) {new : Option BitArray}
    (hw : ∀ a, new = some a → a.WellFormed) : (sl.setArr r new).Sound := by
  have harrays : ∀ q a, (sl.setArr r new).arr q = some a → a.WellFormed := by
    intro q a ha
    rw [Slot.arr_setArr] at ha
    split at ha
    · exact hw a ha
    · exact h.arrays q a ha
  obtain rfl | rfl := Slot.role_of_unlocked hl <;> exact ⟨harrays, h.superblockTable, h.blockTable⟩

/-- A slot with a dictionary just built over `b` (42_rank.md R140). -/
theorem Slot.withDict_sound {sl : Slot} {b : BitArray} (h2 : 2 ≤ b.len)
    (hP : ∀ a, sl.partitionBits = some a → a.WellFormed) (hS : ∀ a, sl.symbols = some a → a.WellFormed) :
    (sl.withDict b).Sound := by
  obtain ⟨-, hsbt, hblt⟩ := buildTables_spec h2
  refine ⟨fun r a ha => ?_, rfl, rfl⟩
  cases r with
  | P => exact hP a ha
  | S => exact hS a ha
  | SBT => cases ha; exact hsbt
  | BLT => cases ha; exact hblt

theorem Slot.Sound.withoutDict {sl : Slot} (h : sl.Sound) : sl.withoutDict.Sound := by
  refine ⟨fun r a ha => ?_, rfl, rfl⟩
  cases r with
  | P => exact h.arrays .P a ha
  | S => exact h.arrays .S a ha
  | SBT | BLT => cases ha

/-- A slot that a build leaves (44_wavelet.md R174). -/
theorem PlanNode.build_sound {w : Nat} {old : Slot} {pn : PlanNode} (hold : ∀ a, old.symbols = some a → a.WellFormed)
    (hlen : pn.seq.length < 2 ^ 64) (h2 : pn.lo < pn.hi → 2 ≤ pn.seq.length) (hw : pn.seq.length * w < 2 ^ 64) :
    (pn.build w old).Sound := by
  have hP : ∀ a, some pn.bits = some a → a.WellFormed := by rintro _ ⟨⟩; exact pn.bits_wellFormed hlen
  have hS : ∀ a, (if pn.isRoot then old.symbols else some (BitArray.pack w pn.seq)) = some a → a.WellFormed := by
    split
    · exact hold
    · rintro _ ⟨⟩; exact BitArray.pack_wellFormed hw
  by_cases hlt : pn.lo < pn.hi
  · rw [PlanNode.build, if_pos hlt]
    exact Slot.withDict_sound (by rw [PlanNode.bits_len hlt hlen]; exact h2 hlt) hP hS
  · rw [PlanNode.build, if_neg hlt]
    refine ⟨fun r a ha => ?_, rfl, rfl⟩
    cases r with
    | P => exact hP a ha
    | S => exact hS a ha
    | SBT | BLT => cases ha

/-! The storage invariant. -/

namespace StorageInv

variable {s t : State} {k : Nat}

theorem sound (h : StorageInv s) (k : Nat) : (s.slot k).Sound :=
  ⟨h.arrays k, h.superblockTable k, h.blockTable k⟩

theorem memBytes_lt (h : StorageInv s) : s.config.memBytes < 2 ^ 64 := by
  have hc := h.config
  simp only [Config.ok, Bool.and_eq_true, decide_eq_true_eq] at hc
  exact hc.2

theorem of_sameData (h : StorageInv s) (hd : SameData s t) : StorageInv t := by
  have husedSum : t.usedSum = s.usedSum := by rw [State.usedSum, State.usedSum, hd.slots]
  constructor
  · rw [hd.config]; exact h.config
  · rw [hd.slots]; exact h.slotFile
  · intro k hk; rw [hd.config] at hk; rw [hd.slot]; exact h.inRange k hk
  · intro k; rw [hd.slot]; exact h.arrays k
  · intro k; rw [hd.slot]; exact h.superblockTable k
  · intro k; rw [hd.slot]; exact h.blockTable k
  · rw [hd.used, husedSum]; exact h.used
  · rw [hd.config, husedSum]; exact h.capacity

theorem of_empty {c : Config} (hc : c.ok = true) : StorageInv (State.resetWith c) where
  config := hc
  slotFile := rfl
  inRange _ _ := rfl
  arrays _ := Slot.empty_sound.arrays
  superblockTable _ := rfl
  blockTable _ := rfl
  used := rfl
  capacity := Nat.zero_le _

/-- A change of the slot file whose bytes USED accounts for, within the capacity (10_state.md R28). -/
theorem account (h : StorageInv s) {u : State} {freed added : Nat} (hconfig : u.config = s.config)
    (hu : u.used = s.used) (hwf : sparseWf Slot.empty 0 u.slots = true)
    (hrange : ∀ k, s.config.nslot ≤ k → u.slot k = Slot.empty) (hsound : ∀ k, (u.slot k).Sound)
    (hbytes : u.usedSum + freed = s.usedSum + added) (hfreed : freed ≤ s.usedSum)
    (hcap : added = 0 ∨ s.used.toNat - freed + added ≤ s.config.memBytes) :
    StorageInv ((u.account freed added).complete 0) := by
  have hused := h.used
  have hle := h.capacity
  have hmem := h.memBytes_lt
  have hsum : u.usedSum = s.used.toNat - freed + added := by omega
  have hsum_le : u.usedSum ≤ s.config.memBytes := by omega
  refine ⟨by simpa [hconfig] using h.config, hwf, fun k hk => hrange k (hconfig ▸ hk), fun k => (hsound k).arrays,
    fun k => (hsound k).superblockTable, fun k => (hsound k).blockTable, ?_, hconfig ▸ hsum_le⟩
  calc ((u.account freed added).complete 0).used.toNat
      = u.usedSum := by
        rw [State.complete_used, State.account_used, hu, ← hsum, BitVec.toNat_ofNat, Nat.mod_eq_of_lt (by omega)]
    _ = ((u.account freed added).complete 0).usedSum := rfl

/-- One slot changed. -/
theorem account_setSlot (h : StorageInv s) {sl : Slot} {freed added : Nat} (hk : k < s.config.nslot)
    (hsl : sl.Sound) (hbytes : sl.bytes + freed = (s.slot k).bytes + added) (hfreed : freed ≤ (s.slot k).bytes)
    (hcap : added = 0 ∨ s.used.toNat - freed + added ≤ s.config.memBytes) :
    StorageInv (((s.setSlot k sl).account freed added).complete 0) := by
  have hsum := State.usedSum_setSlot h.slotFile k sl
  have hle := State.slot_bytes_le_usedSum h.slotFile k
  refine h.account rfl rfl (State.setSlot_wf h.slotFile k sl) (fun j hj => ?_) (fun j => ?_) (by omega) (by omega) hcap
  · rw [State.slot_setSlot_ne _ _ _ (by omega)]; exact h.inRange j hj
  · rw [State.slot_setSlot]
    split
    · exact hsl
    · exact h.sound j

theorem arrayWritten (h : StorageInv s) {r : Role} {new : Option BitArray} {freed added : Nat}
    (hw : ArrayWrite s k r new freed added) : StorageInv (((s.setArr k r new).account freed added).complete 0) := by
  have hslot := (s.slot k).bytes_setArr r new
  have hle := (s.slot k).arrBytes_le_bytes r
  have hbytes := hw.bytes
  have hfreed := hw.freed_le
  exact h.account_setSlot hw.inRange ((h.sound k).setArr hw.unlocked (hw.wellFormed fun a => h.arrays k r a))
    (by omega) (by omega) hw.capacity

theorem dictBuilt (h : StorageInv s) {b : BitArray} (hb : DictBuild s k b) :
    StorageInv (((s.setSlot k ((s.slot k).withDict b)).account 0 (sizeParams b.len).tableBytes).complete 0) := by
  have hsbt : (s.slot k).superblockTable = none := by simpa [hb.rankDict] using h.superblockTable k
  have hblt : (s.slot k).blockTable = none := by simpa [hb.rankDict] using h.blockTable k
  refine h.account_setSlot hb.inRange (Slot.withDict_sound hb.two_le (h.arrays k .P) (h.arrays k .S)) ?_
    (Nat.zero_le _) (.inr hb.capacity)
  rw [Slot.withDict_bytes _ hb.two_le, Slot.bytes, hsbt, hblt]
  rfl

theorem dictFreed (h : StorageInv s) (hk : k < s.config.nslot) :
    StorageInv (((s.setSlot k (s.slot k).withoutDict).account
      (arrBytes (s.slot k).superblockTable + arrBytes (s.slot k).blockTable) 0).complete 0) := by
  refine h.account_setSlot hk (h.sound k).withoutDict ?_ ?_ (.inl rfl)
  · simp only [Slot.withoutDict, Slot.bytes, arrBytes]; omega
  · simp only [Slot.bytes]; omega

theorem treeBuilt (h : StorageInv s) {a m : Nat} {input : BitArray} (hb : TreeBuild s k a m input) :
    StorageInv (((s.buildPlan (symbolWidth a) (inputPlan k a m input)).account 0
      (planNeed (symbolWidth a) (inputPlan k a m input))).complete 0) := by
  refine h.account (State.buildPlan_config ..) (State.buildPlan_used ..) (State.buildPlan_wf h.slotFile _ _)
    (fun j hj => ?_) (fun j => ?_) (hb.usedSum h.slotFile) (Nat.zero_le _) (.inr hb.capacity)
  · obtain ⟨pn, hpn, rfl, -⟩ | ⟨-, hj'⟩ := hb.slot_cases j
    · have hlt := (hb.good.slot_lt hb.alphabetPos hpn).2
      have hfits := hb.fits
      omega
    · rw [hj']; exact h.inRange j hj
  · obtain ⟨pn, hpn, rfl, hpn'⟩ | ⟨-, hj'⟩ := hb.slot_cases j
    · rw [hpn']
      exact PlanNode.build_sound (h.arrays pn.slot .S) (hb.seq_length_lt hpn) (hb.two_le hpn) (hb.symbols_lt hpn)
    · rw [hj']; exact h.sound j

theorem treeFreed (h : StorageInv s) (cnt : Nat) :
    StorageInv (((s.clearRun k cnt).account (s.runBytes k cnt) 0).complete 0) := by
  have hsum := State.usedSum_clearRun h.slotFile k cnt
  refine h.account (State.clearRun_config ..) (State.clearRun_used ..) (State.clearRun_wf h.slotFile _ _)
    (fun j hj => ?_) (fun j => ?_) hsum (by omega) (.inl rfl)
  · rw [State.clearRun_slot, h.inRange j hj, ite_self]
  · rw [State.clearRun_slot]
    split
    · exact Slot.empty_sound
    · exact h.sound j

end StorageInv

theorem storageInv_dataInvariant : DataInvariant StorageInv where
  same hd h := h.of_sameData hd
  reset h := (StorageInv.of_empty h.config).of_sameData ⟨rfl, rfl, rfl⟩
  slot he h := by
    cases he with
    | failed | answered => exact h.of_sameData ⟨rfl, rfl, rfl⟩
    | arrayWritten _ _ _ _ hw => exact h.arrayWritten hw
    | dictBuilt _ hb => exact h.dictBuilt hb
    | dictFreed hk => exact h.dictFreed hk
    | treeBuilt _ _ _ hb => exact h.treeBuilt hb
    | treeFreed => exact h.treeFreed _

/-- Settles O54: the invariant is one of the data, kept by each way a command completes. -/
theorem stepKeepsStorageInv : Obligations.StepKeepsStorageInv := by
  unfold Obligations.StepKeepsStorageInv
  intro s t hs h
  exact storageInv_dataInvariant.step hs h

end Sys2Proof.Machine
end

section
/-!
PROOFS. The dictionaries and the trees of the state (10_state.md R31 items 1 and 3): each invariant kept by every step,
and the four items of R31 read off the invariants.
-/

namespace Sys2Proof.Machine

/-! Dictionaries. -/

/-- Every array of a slot with a node is locked (60_exceptions.md R211). -/
theorem Slot.node_of_unlocked {sl : Slot} {r : Role} (h : sl.locked r = false) : sl.node = none := by
  obtain rfl | rfl := Slot.role_of_unlocked h <;> simp_all [Slot.locked]

theorem HasDict.congr {s t : State} {j k : Nat} {b : BitArray} (h : HasDict s k b) (he : t.slot j = s.slot k) :
    HasDict t j b := by
  rw [HasDict, he]; exact h

/-- An internal node's slot holds the dictionary over its bitvector (44_wavelet.md R174). -/
theorem PlanNode.build_hasDict {t : State} {j w : Nat} {old : Slot} {pn : PlanNode} (hlt : pn.lo < pn.hi)
    (h2 : 2 ≤ pn.bits.len) (hj : t.slot j = pn.build w old) : HasDict t j pn.bits := by
  rw [PlanNode.build, if_pos hlt] at hj
  exact ⟨by rw [hj]; rfl, h2, by rw [hj, Slot.withDict_withDict]⟩

/-- A leaf has no dictionary. -/
theorem PlanNode.build_rankDict_of_not_lt {w : Nat} {old : Slot} {pn : PlanNode} (hlt : ¬pn.lo < pn.hi) :
    (pn.build w old).rankDict = none := by
  rw [PlanNode.build, if_neg hlt]

namespace DictInv

variable {s t : State} {k : Nat}

theorem of_sameData (h : DictInv s) (hd : SameData s t) : DictInv t := by
  intro j hj
  rw [hd.slot] at hj
  exact (h j hj).imp fun b hb => hb.congr (hd.slot j)

theorem of_empty (h : ∀ j, t.slot j = Slot.empty) : DictInv t := by
  intro j hj
  rw [h] at hj
  cases hj

/-- One slot changed, whose dictionary, if it has one, is the one over its bits. -/
theorem of_slot (h : DictInv s) (hslot : ∀ j, j ≠ k → t.slot j = s.slot j)
    (hk : (t.slot k).rankDict.isSome = true → ∃ b, HasDict t k b) : DictInv t := by
  intro j hj
  by_cases hjk : j = k
  · rw [hjk] at hj ⊢; exact hk hj
  · rw [hslot j hjk] at hj
    exact (h j hj).imp fun b hb => hb.congr (hslot j hjk)

/-- Where there is a dictionary the only unlocked array is S, of which the dictionary says nothing. -/
theorem arrayWritten (h : DictInv s) {r : Role} {new : Option BitArray} (hl : (s.slot k).locked r = false)
    (hslot : ∀ j, t.slot j = (s.setArr k r new).slot j) : DictInv t := by
  refine h.of_slot (k := k) (fun j hj => ?_) fun hd => ?_
  · rw [hslot, State.slot_setArr, if_neg hj]
  · have hk : t.slot k = (s.slot k).setArr r new := by rw [hslot, State.slot_setArr, if_pos rfl]
    rw [hk, Slot.setArr_rankDict] at hd
    obtain ⟨b, hP, h2, hb⟩ := h k hd
    obtain rfl | rfl := Slot.role_of_unlocked hl
    · simp [Slot.locked, hd] at hl
    · refine ⟨b, by rw [hk]; exact hP, h2, ?_⟩
      rw [hk]
      exact congrArg (Slot.setArr · .S new) hb

theorem dictBuilt (h : DictInv s) {b : BitArray} (hb : DictBuild s k b)
    (hslot : ∀ j, t.slot j = (s.setSlot k ((s.slot k).withDict b)).slot j) : DictInv t := by
  refine h.of_slot (k := k) (fun j hj => ?_) fun _ => ⟨b, ?_⟩
  · rw [hslot, State.slot_setSlot_ne _ _ _ hj]
  · have hk : t.slot k = (s.slot k).withDict b := by rw [hslot, State.slot_setSlot_self]
    exact ⟨by rw [hk]; exact hb.partitionBits, hb.two_le, by rw [hk, Slot.withDict_withDict]⟩

theorem dictFreed (h : DictInv s) (hslot : ∀ j, t.slot j = (s.setSlot k (s.slot k).withoutDict).slot j) :
    DictInv t := by
  refine h.of_slot (k := k) (fun j hj => ?_) fun hd => ?_
  · rw [hslot, State.slot_setSlot_ne _ _ _ hj]
  · rw [hslot, State.slot_setSlot_self] at hd
    cases hd

theorem treeBuilt (h : DictInv s) {a m : Nat} {input : BitArray} (hb : TreeBuild s k a m input)
    (hslot : ∀ j, t.slot j = (s.buildPlan (symbolWidth a) (inputPlan k a m input)).slot j) : DictInv t := by
  intro j hj
  obtain ⟨pn, hpn, rfl, hbuilt⟩ | ⟨-, hkept⟩ := hb.slot_cases j
  · rw [← hslot] at hbuilt
    by_cases hlt : pn.lo < pn.hi
    · have h2 : 2 ≤ pn.bits.len := by
        rw [PlanNode.bits_len hlt (hb.seq_length_lt hpn)]; exact hb.two_le hpn hlt
      exact ⟨_, PlanNode.build_hasDict hlt h2 hbuilt⟩
    · rw [hbuilt, PlanNode.build_rankDict_of_not_lt hlt] at hj
      cases hj
  · rw [← hslot] at hkept
    rw [hkept] at hj
    exact (h j hj).imp fun b hd => hd.congr hkept

theorem treeFreed (h : DictInv s) {cnt : Nat} (hslot : ∀ j, t.slot j = (s.clearRun k cnt).slot j) : DictInv t := by
  intro j hj
  have hjc := (hslot j).trans (State.clearRun_slot s k cnt j)
  split at hjc
  · rw [hjc] at hj; cases hj
  · rw [hjc] at hj
    exact (h j hj).imp fun b hd => hd.congr hjc

end DictInv

theorem dictInv_dataInvariant : DataInvariant DictInv where
  same hd h := h.of_sameData hd
  reset _ := .of_empty fun _ => rfl
  slot he h := by
    cases he with
    | failed | answered => exact h.of_sameData ⟨rfl, rfl, rfl⟩
    | arrayWritten _ _ _ _ hw => exact h.arrayWritten hw.unlocked fun _ => rfl
    | dictBuilt _ hb => exact h.dictBuilt hb fun _ => rfl
    | dictFreed => exact h.dictFreed fun _ => rfl
    | treeBuilt _ _ _ hb => exact h.treeBuilt hb fun _ => rfl
    | treeFreed => exact h.treeFreed fun _ => rfl

/-- Settles O55: a command leaves a dictionary's bits and tables alone, builds all three anew, or drops them. -/
theorem stepKeepsDictionaries : Obligations.StepKeepsDictionaries := by
  unfold Obligations.StepKeepsDictionaries
  intro s t hs h
  exact dictInv_dataInvariant.step hs h

/-! One tree. -/

namespace TreeOver

variable {s t : State} {k k' a a' m m' j : Nat} {input input' : BitArray}

theorem runLength_pos (h : TreeOver s k a m input) : 1 ≤ runLength a := by
  have := h.alphabetPos
  unfold runLength; omega

/-- A tree stays where its run's slots stay. -/
theorem congr (h : TreeOver s k a m input) (hc : t.config = s.config)
    (hslot : ∀ j, k ≤ j → j < k + runLength a → t.slot j = s.slot j) : TreeOver t k a m input := by
  have hg := treePlan_good k h.alphabetPos h.inRange
  rw [treeIds_length] at hg
  refine ⟨h.1, h.2, h.3, h.4, hc ▸ h.fits, ?_, h.inputLen, h.inRange, h.allOccur, fun pn hpn => ?_⟩
  · have := h.runLength_pos
    rw [hslot k (Nat.le_refl k) (by omega)]
    exact h.symbols
  · obtain ⟨hlo, hhi⟩ := hg.slot_lt h.alphabetPos hpn
    rw [hslot _ hlo hhi]
    exact h.built pn hpn

/-- Every slot of the run is one node's of the plan. -/
theorem exists_node (h : TreeOver s k a m input) (hc : s.config.ok = true) (hlo : k ≤ j)
    (hhi : j < k + runLength a) :
    ∃ pn ∈ inputPlan k a m input, pn.slot = j ∧ (s.slot j).node = some (pn.descriptor (symbolWidth a)) ∧
      pn.isRoot = decide (j = k) := by
  have st := h.stands hc
  obtain ⟨pn, hpn, rfl⟩ := st.good.cover j hlo hhi
  refine ⟨pn, hpn, rfl, st.node hpn, ?_⟩
  rw [(st.good.nodes pn hpn).isRoot, Bool.true_and]

theorem node_isSome (h : TreeOver s k a m input) (hc : s.config.ok = true) (hlo : k ≤ j)
    (hhi : j < k + runLength a) : (s.slot j).node.isSome = true := by
  obtain ⟨pn, -, -, hn, -⟩ := h.exists_node hc hlo hhi
  rw [hn]; rfl

/-- The root's scalars tell the size of the alphabet (44_wavelet.md R175). -/
theorem root_node (h : TreeOver s k a m input) (hc : s.config.ok = true) :
    ∃ nd, (s.slot k).node = some nd ∧ nd.isRoot = true ∧ nd.alphabetLow.toNat = 0 ∧ nd.alphabetHigh.toNat = a - 1 := by
  have st := h.stands hc
  obtain ⟨-, hlow, hhigh, -, -⟩ := st.descriptor st.good.root
  exact ⟨_, st.node st.good.root, rfl, hlow, hhigh⟩

/-- Inside a run the only root is at its start, so no other tree starts there. -/
theorem le_of_mem (h : TreeOver s k a m input) (h' : TreeOver s k' a' m' input') (hc : s.config.ok = true)
    (hhi : k' < k + runLength a) : k' ≤ k := by
  by_contra hlt
  obtain ⟨pn, -, -, hn, hr⟩ := h.exists_node hc (j := k') (by omega) hhi
  obtain ⟨nd, hn', hroot, -⟩ := h'.root_node hc
  obtain rfl : pn.descriptor (symbolWidth a) = nd := Option.some.inj (hn.symm.trans hn')
  have hstart : k' = k := of_decide_eq_true (hr.symm.trans hroot)
  omega

/-- Two trees that share a slot have the same run (44_wavelet.md R172). -/
theorem run_unique (h : TreeOver s k a m input) (h' : TreeOver s k' a' m' input') (hc : s.config.ok = true)
    (hj : k ≤ j ∧ j < k + runLength a) (hj' : k' ≤ j ∧ j < k' + runLength a') : k = k' ∧ a = a' := by
  obtain rfl : k = k' :=
    Nat.le_antisymm (h'.le_of_mem h hc (by omega)) (h.le_of_mem h' hc (by omega))
  obtain ⟨nd, hn, -, -, hhigh⟩ := h.root_node hc
  obtain ⟨nd', hn', -, -, hhigh'⟩ := h'.root_node hc
  obtain rfl : nd = nd' := Option.some.inj (hn.symm.trans hn')
  have := h.alphabetPos
  have := h'.alphabetPos
  exact ⟨rfl, by omega⟩

end TreeOver

/-- The tree that a successful WT.BUILD leaves (44_wavelet.md R175). -/
theorem TreeBuild.treeOver {s t : State} {k a m : Nat} {input : BitArray} (h : TreeBuild s k a m input)
    (hc : t.config = s.config)
    (hslot : ∀ j, t.slot j = (s.buildPlan (symbolWidth a) (inputPlan k a m input)).slot j) :
    TreeOver t k a m input := by
  obtain ⟨hin, hbuilt, -⟩ := State.buildPlan_tree (s := s) (w := symbolWidth a) h.good h.alphabetPos
  refine ⟨h.alphabetPos, h.alphabetMax, h.lengthPos, h.lengthMax, hc ▸ h.fits, ?_, h.inputLen, h.inRange, h.allOccur,
    fun pn hpn => ?_⟩
  · rw [hslot, hin _ h.good.root, PlanNode.build_symbols, if_pos rfl, h.root]
  · rw [hslot]; exact hbuilt pn hpn

/-! All trees. -/

/-- Slot `j` lies in the run of a tree that stands as built. -/
def InTree (s : State) (j : Nat) : Prop :=
  ∃ k a m input, TreeOver s k a m input ∧ k ≤ j ∧ j < k + runLength a

/-- The tree invariant, said of roots and children alike: every node lies in the run of a tree. -/
theorem treeInv_iff {s : State} :
    TreeInv s ↔ s.config.ok = true ∧ ∀ j, (s.slot j).node.isSome = true → InTree s j := by
  constructor
  · refine fun h => ⟨h.config, fun j hj => ?_⟩
    obtain ⟨nd, hnd⟩ := Option.isSome_iff_exists.mp hj
    cases hr : nd.isRoot with
    | true =>
      obtain ⟨a, m, input, ht⟩ := h.roots j nd hnd hr
      have := ht.runLength_pos
      exact ⟨j, a, m, input, ht, Nat.le_refl j, by omega⟩
    | false =>
      obtain ⟨k, a, m, input, ht, hlo, hhi⟩ := h.children j nd hnd hr
      exact ⟨k, a, m, input, ht, hlo.le, hhi⟩
  · rintro ⟨hc, h⟩
    -- a node is a root exactly where its run starts
    have hroot : ∀ j nd, (s.slot j).node = some nd → ∃ k a m input, TreeOver s k a m input ∧
        (k ≤ j ∧ j < k + runLength a) ∧ nd.isRoot = decide (j = k) := by
      intro j nd hnd
      obtain ⟨k, a, m, input, ht, hlo, hhi⟩ := h j (by rw [hnd]; rfl)
      obtain ⟨pn, -, -, hn, hr⟩ := ht.exists_node hc hlo hhi
      obtain rfl : nd = pn.descriptor (symbolWidth a) := Option.some.inj (hnd.symm.trans hn)
      exact ⟨k, a, m, input, ht, ⟨hlo, hhi⟩, hr⟩
    refine ⟨hc, fun j nd hnd hr => ?_, fun j nd hnd hr => ?_⟩
    · obtain ⟨k, a, m, input, ht, -, hk⟩ := hroot j nd hnd
      obtain rfl : j = k := by simpa [hr] using hk
      exact ⟨a, m, input, ht⟩
    · obtain ⟨k, a, m, input, ht, hj, hk⟩ := hroot j nd hnd
      have hne : j ≠ k := by simpa [hr] using hk
      exact ⟨k, a, m, input, ht, by omega, hj.2⟩

namespace TreeInv

variable {s t : State} {k : Nat}

theorem inTree (h : TreeInv s) {j : Nat} (hj : (s.slot j).node.isSome = true) : InTree s j :=
  (treeInv_iff.mp h).2 j hj

/-- A change that leaves every slot with a node alone and makes no node. -/
theorem of_nodes (h : TreeInv s) (hc : t.config = s.config)
    (hkept : ∀ j, (s.slot j).node.isSome = true → t.slot j = s.slot j)
    (hnew : ∀ j, (t.slot j).node.isSome = true → (s.slot j).node.isSome = true) : TreeInv t := by
  refine treeInv_iff.mpr ⟨hc ▸ h.config, fun j hj => ?_⟩
  obtain ⟨k, a, m, input, ht, hrun⟩ := h.inTree (hnew j hj)
  exact ⟨k, a, m, input, ht.congr hc fun x hlo hhi => hkept x (ht.node_isSome h.config hlo hhi), hrun⟩

theorem of_sameData (h : TreeInv s) (hd : SameData s t) : TreeInv t :=
  h.of_nodes hd.config (fun j _ => hd.slot j) fun j hj => hd.slot j ▸ hj

theorem of_empty (hc : t.config.ok = true) (h : ∀ j, t.slot j = Slot.empty) : TreeInv t :=
  treeInv_iff.mpr ⟨hc, fun j hj => by rw [h] at hj; cases hj⟩

/-- One slot without a node changed, to one without a node. -/
theorem of_slot (h : TreeInv s) (hc : t.config = s.config) (hslot : ∀ j, j ≠ k → t.slot j = s.slot j)
    (hs : (s.slot k).node = none) (ht : (t.slot k).node = none) : TreeInv t := by
  refine h.of_nodes hc (fun j hj => hslot j ?_) fun j hj => ?_
  · rintro rfl; rw [hs] at hj; cases hj
  · rw [← hslot j (by rintro rfl; rw [ht] at hj; cases hj)]; exact hj

theorem arrayWritten (h : TreeInv s) {r : Role} {new : Option BitArray} (hl : (s.slot k).locked r = false)
    (hc : t.config = s.config) (hslot : ∀ j, t.slot j = (s.setArr k r new).slot j) : TreeInv t := by
  have hn := Slot.node_of_unlocked hl
  refine h.of_slot hc (fun j hj => ?_) hn ?_
  · rw [hslot, State.slot_setArr, if_neg hj]
  · rw [hslot, State.slot_setArr, if_pos rfl, Slot.setArr_node]; exact hn

/-- A slot without a node changed to one without a node: RD.BUILD and RD.FREE (42_rank.md R140, R141). -/
theorem slotWritten (h : TreeInv s) {sl : Slot} (hs : (s.slot k).node = none) (hsl : sl.node = none)
    (hc : t.config = s.config) (hslot : ∀ j, t.slot j = (s.setSlot k sl).slot j) : TreeInv t := by
  refine h.of_slot hc (fun j hj => ?_) hs ?_
  · rw [hslot, State.slot_setSlot_ne _ _ _ hj]
  · rw [hslot, State.slot_setSlot_self]; exact hsl

/-- The new run held no node, so it cuts no tree that stood before. -/
theorem treeBuilt (h : TreeInv s) {a m : Nat} {input : BitArray} (hb : TreeBuild s k a m input)
    (hc : t.config = s.config)
    (hslot : ∀ j, t.slot j = (s.buildPlan (symbolWidth a) (inputPlan k a m input)).slot j) : TreeInv t := by
  have hout : ∀ j, ¬(k ≤ j ∧ j < k + runLength a) → t.slot j = s.slot j := by
    intro j hj
    obtain ⟨pn, hpn, rfl, -⟩ | ⟨-, hkept⟩ := hb.slot_cases j
    · exact absurd (hb.good.slot_lt hb.alphabetPos hpn) hj
    · rw [hslot, hkept]
  have hvacant : ∀ j, (s.slot j).node.isSome = true → ¬(k ≤ j ∧ j < k + runLength a) := by
    intro j hj hrun
    rw [hb.vacant hrun.1 hrun.2] at hj
    cases hj
  refine treeInv_iff.mpr ⟨hc ▸ h.config, fun j hj => ?_⟩
  by_cases hrun : k ≤ j ∧ j < k + runLength a
  · exact ⟨k, a, m, input, hb.treeOver hc hslot, hrun⟩
  · rw [hout j hrun] at hj
    obtain ⟨k', a', m', input', ht, hrun'⟩ := h.inTree hj
    exact ⟨k', a', m', input', ht.congr hc fun x hlo hhi =>
      hout x (hvacant x (ht.node_isSome h.config hlo hhi)), hrun'⟩

/-- The run freed is the whole run of the tree at `k`, and no other tree reaches into it. -/
theorem treeFreed (h : TreeInv s) {nd : Node} (hn : (s.slot k).node = some nd) (hr : nd.isRoot = true) {cnt : Nat}
    (hcnt : cnt = runLength (nd.alphabetHigh.toNat - nd.alphabetLow.toNat + 1)) (hc : t.config = s.config)
    (hslot : ∀ j, t.slot j = (s.clearRun k cnt).slot j) : TreeInv t := by
  obtain ⟨a, m, input, htree⟩ := h.roots k nd hn hr
  obtain rfl : cnt = runLength a := by
    obtain ⟨nd', hn', -, hlow, hhigh⟩ := htree.root_node h.config
    obtain rfl : nd = nd' := Option.some.inj (hn.symm.trans hn')
    have := htree.alphabetPos
    rw [hcnt, hlow, hhigh]
    congr 1
    omega
  have hcleared : ∀ j, t.slot j = if k ≤ j ∧ j < k + runLength a then Slot.empty else s.slot j := fun j => by
    rw [hslot, State.clearRun_slot]
  refine treeInv_iff.mpr ⟨hc ▸ h.config, fun j hj => ?_⟩
  have hjout : ¬(k ≤ j ∧ j < k + runLength a) := by
    intro hrun
    rw [hcleared, if_pos hrun] at hj
    cases hj
  rw [hcleared, if_neg hjout] at hj
  obtain ⟨k', a', m', input', ht, hrun'⟩ := h.inTree hj
  refine ⟨k', a', m', input', ht.congr hc fun x hlo hhi => ?_, hrun'⟩
  rw [hcleared, if_neg fun hrun => ?_]
  obtain ⟨rfl, rfl⟩ := ht.run_unique htree h.config ⟨hlo, hhi⟩ hrun
  exact hjout hrun'

end TreeInv

theorem treeInv_dataInvariant : DataInvariant TreeInv where
  same hd h := h.of_sameData hd
  reset h := .of_empty h.config fun _ => rfl
  slot he h := by
    cases he with
    | failed | answered => exact h.of_sameData ⟨rfl, rfl, rfl⟩
    | arrayWritten _ _ _ _ hw => exact h.arrayWritten hw.unlocked rfl fun _ => rfl
    | dictBuilt b hb => exact h.slotWritten (sl := Slot.withDict _ b) hb.node hb.node rfl fun _ => rfl
    | dictFreed _ hn => exact h.slotWritten (sl := Slot.withoutDict _) hn hn rfl fun _ => rfl
    | treeBuilt _ _ _ hb => exact h.treeBuilt hb (State.buildPlan_config ..) fun _ => rfl
    | treeFreed _ hn hr _ hcnt => exact h.treeFreed hn hr hcnt (State.clearRun_config ..) fun _ => rfl

/-- Settles O56: a slot with a node changes only where WT.FREE clears its whole run, and WT.BUILD makes whole runs. -/
theorem stepKeepsTrees : Obligations.StepKeepsTrees := by
  unfold Obligations.StepKeepsTrees
  intro s t hs h
  exact treeInv_dataInvariant.step hs h

/-- Settles O53: the slots are all empty, so nothing is left to hold. -/
theorem resetMeetsTheInvariants : Obligations.ResetMeetsTheInvariants := by
  unfold Obligations.ResetMeetsTheInvariants
  exact fun c hc => ⟨.of_empty hc, .of_empty fun _ => rfl, .of_empty hc fun _ => rfl⟩

/-! The items of R31. -/

/-- Item 1: what a valid dictionary stands over. -/
theorem DictInv.dictionary {s : State} (h : DictInv s) {k : Nat} {d : RankDict} (hd : (s.slot k).rankDict = some d) :
    ∃ b sbt blt, (s.slot k).partitionBits = some b ∧ (s.slot k).superblockTable = some sbt ∧
      (s.slot k).blockTable = some blt ∧ d.n = b.bitCount ∧ 2 ≤ b.len ∧ d.sizes = sizeParams b.len ∧
      TablesCount b (sizeParams b.len) sbt blt := by
  obtain ⟨b, hb⟩ := h k (by rw [hd]; rfl)
  obtain ⟨hP, hR, hS, hB⟩ := hb.tables
  obtain rfl : RankDict.ofSizes b.len (sizeParams b.len) = d := Option.some.inj (hR.symm.trans hd)
  obtain ⟨hsizes, -⟩ := RankDict.sizes_ofSizes hb.2.1 b.bitCount.isLt
  exact ⟨b, _, _, hP, hS, hB, BitVec.ofNat_toNat .., hb.2.1, hsizes, (buildTables_spec hb.2.1).1⟩

/-- Item 3: what a valid node stands with, as an internal node and as a leaf. -/
theorem TreeInv.node {s : State} (h : TreeInv s) {j : Nat} {nd : Node} (hnd : (s.slot j).node = some nd) :
    ∃ p, (s.slot j).partitionBits = some p ∧ (s.slot j).symbols.isSome = true ∧
      (nd.alphabetLow ≠ nd.alphabetHigh → (s.slot j).rankDict.isSome = true ∧ p.bitCount = nd.seqLen ∧
        ∃ l r, nd.left = some l ∧ nd.right = some r ∧ (s.slot l.toNat).node.isSome = true ∧
          (s.slot r.toNat).node.isSome = true) ∧
      (nd.alphabetLow = nd.alphabetHigh → p.bitCount = 0 ∧ (s.slot j).rankDict = none) := by
  obtain ⟨k, a, m, input, ht, hlo, hhi⟩ := h.inTree (j := j) (by rw [hnd]; rfl)
  obtain ⟨pn, hpn, rfl, hn, -⟩ := ht.exists_node h.config hlo hhi
  obtain rfl : nd = pn.descriptor (symbolWidth a) := Option.some.inj (hnd.symm.trans hn)
  have st := ht.stands h.config
  have hrange := (st.good.nodes pn hpn).range
  obtain ⟨hseq, hlow, hhigh, -, -⟩ := st.descriptor hpn
  obtain ⟨-, ⟨sa, hsa, -, -⟩, hleaf, -⟩ := ht.nodeStands h.config hpn
  refine ⟨pn.bits, st.partitionBits hpn, by rw [hsa]; rfl, fun hne => ?_, fun heq => ?_⟩
  · have hlt : pn.lo < pn.hi := lt_of_le_of_ne hrange fun he =>
      hne (BitVec.eq_of_toNat_eq (by rw [hlow, hhigh, he]))
    obtain ⟨l, hl, hls, hlm⟩ := st.child hpn hlt (v := 0) (by decide)
    obtain ⟨r, hr, hrs, hrm⟩ := st.child hpn hlt (v := 1) (by decide)
    refine ⟨by rw [(st.hasDict hpn hlt).tables.2.1]; rfl, BitVec.eq_of_toNat_eq ?_, l, r, hl, hr, ?_, ?_⟩
    · rw [hseq]; exact PlanNode.bits_len hlt (st.seq_length hpn)
    · rw [hls, st.node hlm]; rfl
    · rw [hrs, st.node hrm]; rfl
  · have he : pn.lo = pn.hi := by rw [← hlow, ← hhigh, heq]
    obtain ⟨-, -, -, hd, -, -⟩ := hleaf he
    rw [PlanNode.bits, if_neg (by omega)]
    exact ⟨rfl, hd⟩

/-- Settles O57: each item from the invariant that carries it. -/
theorem invariantsGiveTheItemsOfR31 : Obligations.InvariantsGiveTheItemsOfR31 := by
  unfold Obligations.InvariantsGiveTheItemsOfR31
  intro s h
  refine ⟨fun k d hd => h.dicts.dictionary hd, fun k => ?_, fun k nd hnd => h.trees.node hnd, ?_⟩
  · rw [h.storage.superblockTable, h.storage.blockTable]
    exact ⟨rfl, rfl⟩
  · rw [h.storage.used]
    exact h.storage.capacity

end Sys2Proof.Machine
end

section
/-!
PROOFS. The host registers (10_state.md R21, R29, R30, R36): what a host write stores and a host read returns, the reset
values, and STICKY.
-/

namespace Sys2Proof.Machine

/-! STICKY. -/

/-- Settles O48: the SYS commands one by one, and a slot command by the way it completes. -/
theorem stickyFollowsTheCode : Obligations.StickyFollowsTheCode := by
  unfold Obligations.StickyFollowsTheCode
  intro i s t h
  cases hk : i.slot? with
  | none =>
    obtain rfl | rfl | rfl := Instr.slot?_eq_none hk <;> cases h <;> simp
  | some k =>
    have hsys : i ≠ .sysClrerr ∧ i ≠ .sysReset := by constructor <;> rintro rfl <;> cases hk
    obtain ⟨hcode, hsticky⟩ | ⟨hcode, hsticky⟩ := (exec_effect hk h).status <;> simp [hcode, hsticky, hsys]

/-! Reads and writes by the host. -/

theorem State.cap_toNat {s : State} (h : s.config.ok = true) : s.cap.toNat = s.config.memBytes := by
  simp only [Config.ok, Bool.and_eq_true, decide_eq_true_eq] at h
  rw [State.cap, BitVec.toNat_ofNat, Nat.mod_eq_of_lt h.2]

theorem State.idr_toNat {s : State} (h : s.config.ok = true) : s.idr.toNat = s.config.nslot + 65536 := by
  simp only [Config.ok, Bool.and_eq_true, decide_eq_true_eq] at h
  rw [State.idr, BitVec.toNat_ofNat]
  omega

/-- Settles O7: a write to a register other than CMD is no command, and stores in OP0 and OP1 alone. -/
theorem hostWritesReachOperandsOnly : Obligations.HostWritesReachOperandsOnly := by
  unfold Obligations.HostWritesReachOperandsOnly
  intro s r v rest hq hr
  cases r with
  | cmd => exact absurd rfl hr
  | _ => exact step_hostAct hq rfl

/-- Settles O8: the value returned is the register's, and each register is read as its rule says. -/
theorem hostReadsReturnRegisters : Obligations.HostReadsReturnRegisters := by
  unfold Obligations.HostReadsReturnRegisters
  intro s r rest hc hq
  refine ⟨s.readReg r, step_hostAct hq rfl, ?_⟩
  cases r with
  | op0 | op1 | res | used => rfl
  | cmd => exact BitVec.toNat_setWidth_of_le (by decide)
  | stat =>
    show s.stat.toNat = _
    rw [State.stat_toNat, Nat.add_comm]
    cases s.code <;> rfl
  | cap => exact State.cap_toNat hc
  | idr => exact State.idr_toNat hc

/-! Reset. -/

theorem decode_sysReset : decode 0x00000001#64 = .command .sysReset := by decide

/-- Settles O9: both resets leave the registers of `State.resetData`, but for CMD. -/
theorem resetLeavesTheResetValues : Obligations.ResetLeavesTheResetValues := by
  unfold Obligations.ResetLeavesTheResetValues
  refine fun s hc => ⟨fun rest hq => ⟨_, step_hostAct hq rfl, ?_⟩, ⟨_, issue_of_command decode_sysReset s, ?_⟩⟩
  · exact ⟨rfl, rfl, rfl, rfl, rfl, rfl, rfl, rfl, State.cap_toNat hc, State.idr_toNat hc, fun _ => rfl⟩
  · exact ⟨rfl, rfl, rfl, rfl, rfl, rfl, rfl, rfl, State.cap_toNat hc, State.idr_toNat hc, fun _ => rfl⟩

/-- Settles O11: the default parameters give IDR and CAP, and every slot of the reset state is empty. -/
theorem defaultResetReadsAsTheSpecSays : Obligations.DefaultResetReadsAsTheSpecSays := by
  unfold Obligations.DefaultResetReadsAsTheSpecSays
  exact ⟨rfl, rfl, rfl, rfl, rfl, rfl, rfl, rfl, State.reset_slot⟩

end Sys2Proof.Machine
end

section
/-!
PROOFS. Reading the data (20_memory.md R56): a query answers from the parameters, OP0, OP1 and the slots alone, and its
answer leaves all of them as they were.
-/

namespace Sys2Proof.Machine

/-- The two ways a query completes, from two states alike: with the same code, or with the same value. -/
inductive AnswerAlike (s t : State) : State → State → Prop where
  | failed (c : Status) : AnswerAlike s t (s.fail c) (t.fail c)
  | answered (v : Nat) : AnswerAlike s t (s.complete v) (t.complete v)

/-- One command from two states completes with like answers. -/
def ResultsAlike (s t : State) (x y : Result) : Prop :=
  ∃ s' t', x = .next s' ∧ y = .next t' ∧ AnswerAlike s t s' t'

/-- All that a query reads is the same in both states; STAT and RES may differ. -/
structure SameReads (s t : State) : Prop extends SameData s t where
  op0 : t.op0 = s.op0
  op1 : t.op1 = s.op1

namespace AnswerAlike

variable {s t s' t' : State}

theorem res_eq (h : AnswerAlike s t s' t') : t'.res = s'.res := by cases h <;> rfl

theorem code_eq (h : AnswerAlike s t s' t') : t'.code = s'.code := by cases h <;> rfl

/-- An answer changes STAT and RES only. -/
theorem sameReads (h : AnswerAlike s t s' t') : SameReads s s' := by cases h <;> exact ⟨⟨rfl, rfl, rfl⟩, rfl, rfl⟩

/-! One check of a rule, made on data that both states share. -/

theorem check {p : Prop} [Decidable p] (c : Status) (h : AnswerAlike s t s' t') :
    AnswerAlike s t (if p then s.fail c else s') (if p then t.fail c else t') := by
  split
  · exact .failed c
  · exact h

theorem require {p : Prop} [Decidable p] (c : Status) (h : AnswerAlike s t s' t') :
    AnswerAlike s t (if p then s' else s.fail c) (if p then t' else t.fail c) := by
  split
  · exact h
  · exact .failed c

end AnswerAlike

namespace SameReads

variable {s t : State}

theorem refl (s : State) : SameReads s s := ⟨⟨rfl, rfl, rfl⟩, rfl, rfl⟩

theorem operand0_eq (h : SameReads s t) : t.operand0 = s.operand0 := congrArg BitVec.toNat h.op0

/-- The rank walk reads slots only (44_wavelet.md R176). -/
theorem wtRank_eq (h : SameReads s t) (fuel j idx : Nat) : wtRank t fuel j idx = wtRank s fuel j idx := by
  induction fuel generalizing j idx with
  | zero => rfl
  | succ fuel ih => simp only [wtRank, h.slot, ih]

/-- The select walk reads slots only (44_wavelet.md R178). -/
theorem wtSelect_eq (h : SameReads s t) (fuel j c occ : Nat) : wtSelect t fuel j c occ = wtSelect s fuel j c occ := by
  induction fuel generalizing j with
  | zero => rfl
  | succ fuel ih => simp only [wtSelect, h.slot, ih]

/-- The slot test reads NSLOT, and both rules are handed the same slot (30_encoding.md R85). -/
theorem inSlot_alike (h : SameReads s t) {k : SlotNum} {ruleS ruleT : Slot → State}
    (hrule : AnswerAlike s t (ruleS (s.slot k.toNat)) (ruleT (s.slot k.toNat))) :
    ResultsAlike s t (inSlot k s ruleS) (inSlot k t ruleT) := by
  refine ⟨_, _, inSlot_eq .., inSlot_eq .., ?_⟩
  rw [h.config, h.slot]
  exact hrule.check .eSlot

end SameReads

/-- A query's rule reads shared data only: its checks on them, then the value it returns. SYS.CLRERR answers 0 as
SYS.NOP does, and clears STICKY besides (40_sys.md R102). -/
theorem exec_query_alike {i : Instr} {s t : State} (hq : isQuery i = true) (hi : i ≠ .sysClrerr)
    (h : SameReads s t) : ResultsAlike s t (exec i s) (exec i t) := by
  cases i with
  | sysReset | baNew | baResize | baFree | baSetbit | baClrbit | baSetint | rdBuild | rdFree | wtBuild | wtFree =>
    cases hq
  | sysClrerr => exact absurd rfl hi
  | sysNop => exact ⟨_, _, exec_sysNop s, exec_sysNop t, .answered 0⟩
  | baLen | rdOvh | selSelect1 | selSelect0 | selOvh | wtRank =>
    simp only [exec, execBaLen, execRdOvh, execSelSelect1, execSelSelect0, execSelOvh, execWtRank, h.operand0_eq,
      h.wtRank_eq]
    refine h.inSlot_alike ?_
    split
    · exact .failed _
    · exact .answered _
  | baGetbit =>
    simp only [exec, execBaGetbit, h.operand0_eq]
    refine h.inSlot_alike ?_
    split
    · exact .failed _
    · exact .require _ (.answered _)
  | baGetint =>
    simp only [exec, execBaGetint, h.operand0_eq]
    refine h.inSlot_alike (.check _ ?_)
    split
    · exact .failed _
    · exact .require _ (.answered _)
  | rdRank1 | rdRank0 =>
    simp only [exec, execRdRank1, execRdRank0, h.operand0_eq]
    refine h.inSlot_alike ?_
    split
    · exact .failed _
    · exact .check _ (.answered _)
  | rdParam | wtField =>
    simp only [exec, execRdParam, execWtField]
    refine h.inSlot_alike (.check _ ?_)
    split
    · exact .failed _
    · split
      · exact .failed _
      · exact .answered _
  | wtSelect =>
    simp only [exec, execWtSelect, h.operand0_eq, h.wtSelect_eq]
    refine h.inSlot_alike (.check _ ?_)
    split
    · exact .failed _
    · exact .check _ (.answered _)

/-- Settles O50: the first answer leaves all that a query reads, so the command answers alike from there. -/
theorem queriesChangeNoData : Obligations.QueriesChangeNoData := by
  unfold Obligations.QueriesChangeNoData
  intro i s t hq h
  by_cases hi : i = .sysClrerr
  · subst hi
    cases h
    exact ⟨rfl, rfl, _, exec_sysClrerr _, rfl, rfl⟩
  · have hst : SameReads s t := by
      obtain ⟨s', _, hs', -, hans⟩ := exec_query_alike hq hi (.refl s)
      cases hs'.symm.trans h
      exact hans.sameReads
    obtain ⟨t', u, ht', hu, hans⟩ := exec_query_alike hq hi hst
    cases ht'.symm.trans h
    exact ⟨hst.slots, hst.used, u, hu, hans.res_eq, hans.code_eq⟩

end Sys2Proof.Machine
end

section
/-!
PROOFS. The command word (30_encoding.md R80 to R87): the decoder and the encoder agree field by field, a row of the
opcode map is the mask of its form, and all other data are illegal.
-/

namespace Sys2Proof

theorem slice_lt (v hi lo : Nat) : slice v hi lo < 2 ^ (hi - lo + 1) := Nat.mod_lt _ (Nat.two_pow_pos _)

/-! One form: the fields that must be 0, and the command the others make (30_encoding.md R84). -/

/-- The fields that a form does not use are 0. -/
def Form.UnusedZero : Form → Nat → Nat → Nat → Prop
  | .bare _, k, r, m => k = 0 ∧ r = 0 ∧ m = 0
  | .slot _, _, r, m => r = 0 ∧ m = 0
  | .slotRole _, _, _, m => m = 0
  | .slotImm _, _, r, _ => r = 0
  | .slotRoleImm _, _, _, _ => True

/-- The command that a form makes of the fields it uses. -/
def Form.make : Form → Nat → Nat → Nat → Instr
  | .bare i, _, _, _ => i
  | .slot mk, k, _, _ => mk (BitVec.ofNat 10 k)
  | .slotRole mk, k, r, _ => mk (BitVec.ofNat 10 k) (Role.ofNum r)
  | .slotImm mk, k, _, m => mk (BitVec.ofNat 10 k) (BitVec.ofNat 9 m)
  | .slotRoleImm mk, k, r, m => mk (BitVec.ofNat 10 k) (Role.ofNum r) (BitVec.ofNat 9 m)

/-- One test of the decoder: where it fails the data are illegal. -/
theorem decodeTest_eq_command_iff {p : Prop} [Decidable p] {why : DecodeError} {d : Decoded} {i : Instr} :
    (if p then .illegal why else d) = .command i ↔ ¬p ∧ d = .command i := by
  split <;> simp_all

theorem Form.decode_eq_command_iff {f : Form} {k r m : Nat} {i : Instr} :
    f.decode k r m = .command i ↔ f.UnusedZero k r m ∧ f.make k r m = i := by
  cases f <;>
    simp only [Form.decode, Form.UnusedZero, Form.make, decodeTest_eq_command_iff, ne_eq, not_not, and_assoc, true_and,
      Decoded.command.injEq]

/-! The decoder's tests, once (30_encoding.md R85). -/

/-- Data select a command exactly when the upper and reserved bits are 0 and the opcode's form accepts the fields. -/
theorem decode_eq_command_iff_form {data : Word} {i : Instr} :
    decode data = .command i ↔ slice data.toNat 63 32 = 0 ∧ slice data.toNat 31 29 = 0 ∧
      ∃ f, opcodeForm (slice data.toNat 7 0) = some f ∧
        f.UnusedZero (slice data.toNat 17 8) (slice data.toNat 19 18) (slice data.toNat 28 20) ∧
        f.make (slice data.toNat 17 8) (slice data.toNat 19 18) (slice data.toNat 28 20) = i := by
  simp only [decode, decodeTest_eq_command_iff, ← Form.decode_eq_command_iff, ne_eq, not_not]
  cases opcodeForm (slice data.toNat 7 0) <;> simp

/-! The opcode map, from the command's side (30_encoding.md R86). -/

/-- Which fields a command uses. -/
def Instr.form : Instr → Form
  | .sysNop => .bare .sysNop
  | .sysReset => .bare .sysReset
  | .sysClrerr => .bare .sysClrerr
  | .baNew .. => .slotRole .baNew
  | .baResize .. => .slotRole .baResize
  | .baFree .. => .slotRole .baFree
  | .baLen .. => .slotRole .baLen
  | .baGetbit .. => .slotRole .baGetbit
  | .baSetbit .. => .slotRole .baSetbit
  | .baClrbit .. => .slotRole .baClrbit
  | .baGetint .. => .slotRoleImm .baGetint
  | .baSetint .. => .slotRoleImm .baSetint
  | .rdBuild _ => .slot .rdBuild
  | .rdFree _ => .slot .rdFree
  | .rdRank1 _ => .slot .rdRank1
  | .rdRank0 _ => .slot .rdRank0
  | .rdOvh _ => .slot .rdOvh
  | .rdParam .. => .slotImm .rdParam
  | .selSelect1 _ => .slot .selSelect1
  | .selSelect0 _ => .slot .selSelect0
  | .selOvh _ => .slot .selOvh
  | .wtBuild .. => .slotImm .wtBuild
  | .wtFree _ => .slot .wtFree
  | .wtRank _ => .slot .wtRank
  | .wtSelect .. => .slotImm .wtSelect
  | .wtField .. => .slotImm .wtField

@[simp] theorem opcodeForm_opcode (i : Instr) : opcodeForm i.opcode = some i.form := by cases i <;> rfl

/-- One row of the map: the opcode is the row's, or a later row's. -/
theorem opcodeRow_cases {n opc : Nat} {row f : Form} {rest : Option Form}
    (h : (if n = opc then some row else rest) = some f) : (n = opc ∧ row = f) ∨ rest = some f := by
  split at h
  · next hn => exact .inl ⟨hn, Option.some.inj h⟩
  · exact .inr h

/-- A form makes commands of the one opcode it stands under, by the rows of the map. -/
theorem opcode_make {n : Nat} {f : Form} (hf : opcodeForm n = some f) (k r m : Nat) :
    (f.make k r m).opcode = n := by
  unfold opcodeForm at hf
  iterate 26
    obtain ⟨rfl, rfl⟩ | hf := opcodeRow_cases hf
    · rfl
  cases hf

theorem form_make {n : Nat} {f : Form} (hf : opcodeForm n = some f) (k r m : Nat) :
    (f.make k r m).form = f := by
  have hform := opcodeForm_opcode (f.make k r m)
  rw [opcode_make hf, hf] at hform
  exact (Option.some.inj hform).symm

/-! A command's fields, and the command they make. -/

@[simp] theorem Role.ofNum_num (r : Role) : Role.ofNum r.num = r := by cases r <;> rfl

theorem Role.num_ofNum {n : Nat} (h : n < 4) : (Role.ofNum n).num = n := by
  obtain rfl | rfl | rfl | rfl : n = 0 ∨ n = 1 ∨ n = 2 ∨ n = 3 := by omega
  all_goals rfl

theorem Instr.unusedZero (i : Instr) : i.form.UnusedZero i.slotNum i.roleNum i.immNum := by
  cases i <;> simp [Instr.form, Form.UnusedZero, Instr.slotNum, Instr.slot?, Instr.roleNum, Instr.immNum]

theorem Instr.make_fields (i : Instr) : i.form.make i.slotNum i.roleNum i.immNum = i := by
  cases i <;> simp [Instr.form, Form.make, Instr.slotNum, Instr.slot?, Instr.roleNum, Instr.immNum]

/-- A command made again of fields in range has these fields, where those it does not use are 0. -/
theorem Instr.fields_make_form (i : Instr) {k r m : Nat} (hk : k < 2 ^ 10) (hr : r < 2 ^ 2) (hm : m < 2 ^ 9)
    (h : i.form.UnusedZero k r m) :
    (i.form.make k r m).slotNum = k ∧ (i.form.make k r m).roleNum = r ∧ (i.form.make k r m).immNum = m := by
  have hslot : k % 1024 = k := Nat.mod_eq_of_lt hk
  have himm : m % 512 = m := Nat.mod_eq_of_lt hm
  cases i <;>
    simp_all [Instr.form, Form.UnusedZero, Form.make, Instr.slotNum, Instr.slot?, Instr.roleNum, Instr.immNum,
      Role.num_ofNum hr]

theorem fields_make {n : Nat} {f : Form} (hf : opcodeForm n = some f) {k r m : Nat} (hk : k < 2 ^ 10)
    (hr : r < 2 ^ 2) (hm : m < 2 ^ 9) (h : f.UnusedZero k r m) :
    (f.make k r m).slotNum = k ∧ (f.make k r m).roleNum = r ∧ (f.make k r m).immNum = m := by
  have hfields := (f.make k r m).fields_make_form hk hr hm
  rw [form_make hf] at hfields
  exact hfields h

theorem Instr.fieldsFit : ∀ i : Instr, Laws.FieldsFit.Statement i
  | .sysNop => Laws.FieldsFit.sysNop
  | .sysReset => Laws.FieldsFit.sysReset
  | .sysClrerr => Laws.FieldsFit.sysClrerr
  | .baNew k r => Laws.FieldsFit.baNew k r
  | .baResize k r => Laws.FieldsFit.baResize k r
  | .baFree k r => Laws.FieldsFit.baFree k r
  | .baLen k r => Laws.FieldsFit.baLen k r
  | .baGetbit k r => Laws.FieldsFit.baGetbit k r
  | .baSetbit k r => Laws.FieldsFit.baSetbit k r
  | .baClrbit k r => Laws.FieldsFit.baClrbit k r
  | .baGetint k r w => Laws.FieldsFit.baGetint k r w
  | .baSetint k r w => Laws.FieldsFit.baSetint k r w
  | .rdBuild k => Laws.FieldsFit.rdBuild k
  | .rdFree k => Laws.FieldsFit.rdFree k
  | .rdRank1 k => Laws.FieldsFit.rdRank1 k
  | .rdRank0 k => Laws.FieldsFit.rdRank0 k
  | .rdOvh k => Laws.FieldsFit.rdOvh k
  | .rdParam k sel => Laws.FieldsFit.rdParam k sel
  | .selSelect1 k => Laws.FieldsFit.selSelect1 k
  | .selSelect0 k => Laws.FieldsFit.selSelect0 k
  | .selOvh k => Laws.FieldsFit.selOvh k
  | .wtBuild k a => Laws.FieldsFit.wtBuild k a
  | .wtFree k => Laws.FieldsFit.wtFree k
  | .wtRank k => Laws.FieldsFit.wtRank k
  | .wtSelect k c => Laws.FieldsFit.wtSelect k c
  | .wtField k sel => Laws.FieldsFit.wtField k sel

/-! The word and its fields (30_encoding.md R81). -/

/-- `v` has a command's fields in their places, and 0 in every other bit. -/
structure CarriesFields (v : Nat) (i : Instr) : Prop where
  upper : slice v 63 32 = 0
  reserved : slice v 31 29 = 0
  imm : slice v 28 20 = i.immNum
  role : slice v 19 18 = i.roleNum
  slot : slice v 17 8 = i.slotNum
  opcode : slice v 7 0 = i.opcode

/-- The fields fit, so the sum of R81 is below `2^32`. -/
theorem encode_toNat (i : Instr) :
    (encode i).toNat = i.opcode + i.slotNum * 2 ^ 8 + i.roleNum * 2 ^ 18 + i.immNum * 2 ^ 20 := by
  obtain ⟨-, hopc, hslot, hrole, himm⟩ := i.fieldsFit
  rw [encode, BitVec.toNat_ofNat]
  omega

theorem toNat_setWidth_word (w : BitVec 32) : (w.setWidth 64).toNat = w.toNat :=
  BitVec.toNat_setWidth_of_le (by decide)

/-- No field runs into its neighbour, so the data that carry a command's fields are its word. -/
theorem carriesFields_iff_eq_encode {data : Word} {i : Instr} :
    CarriesFields data.toNat i ↔ data = (encode i).setWidth 64 := by
  obtain ⟨-, hopc, hslot, hrole, himm⟩ := i.fieldsFit
  have hdata := data.isLt
  rw [← BitVec.toNat_inj, toNat_setWidth_word, encode_toNat]
  constructor
  · rintro ⟨hu, hr, hi, hro, hs, ho⟩
    simp only [slice] at hu hr hi hro hs ho
    omega
  · intro h
    rw [h]
    constructor <;> simp only [slice] <;> omega

/-- The decoder reads a command off its fields, and off nothing else. -/
theorem decode_eq_command_iff_carriesFields {data : Word} {i : Instr} :
    decode data = .command i ↔ CarriesFields data.toNat i := by
  rw [decode_eq_command_iff_form]
  constructor
  · rintro ⟨hupper, hreserved, f, hf, hzero, rfl⟩
    obtain ⟨hslot, hrole, himm⟩ := fields_make hf (slice_lt ..) (slice_lt ..) (slice_lt ..) hzero
    exact ⟨hupper, hreserved, himm.symm, hrole.symm, hslot.symm, (opcode_make hf _ _ _).symm⟩
  · rintro ⟨hupper, hreserved, himm, hrole, hslot, hopcode⟩
    rw [himm, hrole, hslot, hopcode]
    exact ⟨hupper, hreserved, i.form, opcodeForm_opcode i, i.unusedZero, i.make_fields⟩

/-- The decoder and the encoder are inverse, both by the fields of the word. -/
theorem decode_eq_command_iff {data : Word} {i : Instr} :
    decode data = .command i ↔ data = (encode i).setWidth 64 :=
  decode_eq_command_iff_carriesFields.trans carriesFields_iff_eq_encode

/-! Masks, field by field (30_encoding.md R86). -/

theorem slice_and (v u hi lo : Nat) : slice (v &&& u) hi lo = slice v hi lo &&& slice u hi lo := by
  rw [slice, Nat.and_div_two_pow, Nat.and_mod_two_pow]
  rfl

/-- A word is its five fields. -/
theorem word_eq_iff_slices {v u : Nat} (hv : v < 2 ^ 32) (hu : u < 2 ^ 32) :
    v = u ↔ slice v 31 29 = slice u 31 29 ∧ slice v 28 20 = slice u 28 20 ∧ slice v 19 18 = slice u 19 18 ∧
      slice v 17 8 = slice u 17 8 ∧ slice v 7 0 = slice u 7 0 := by
  simp only [slice]
  omega

/-- A number below `2^8` is an opcode with 0 in every other field. -/
theorem slices_of_lt {n : Nat} (hn : n < 2 ^ 8) :
    slice n 31 29 = 0 ∧ slice n 28 20 = 0 ∧ slice n 19 18 = 0 ∧ slice n 17 8 = 0 ∧ slice n 7 0 = n := by
  simp only [slice]
  omega

theorem Form.slice_mask_reserved (f : Form) : slice f.mask.toNat 31 29 = 2 ^ 3 - 1 := by
  cases f <;> simp [Form.mask, slice]

theorem Form.slice_mask_opcode (f : Form) : slice f.mask.toNat 7 0 = 2 ^ 8 - 1 := by
  cases f <;> simp [Form.mask, slice]

/-- Of the three other fields the mask keeps those that the form does not use. -/
theorem Form.and_mask_fields_eq_zero_iff (f : Form) {k r m : Nat} (hk : k < 2 ^ 10) (hr : r < 2 ^ 2)
    (hm : m < 2 ^ 9) :
    (m &&& slice f.mask.toNat 28 20 = 0 ∧ r &&& slice f.mask.toNat 19 18 = 0 ∧
      k &&& slice f.mask.toNat 17 8 = 0) ↔ f.UnusedZero k r m := by
  have hk' : k &&& 1023 = k := Nat.and_two_pow_sub_one_of_lt_two_pow hk
  have hr' : r &&& 3 = r := Nat.and_two_pow_sub_one_of_lt_two_pow hr
  have hm' : m &&& 511 = m := Nat.and_two_pow_sub_one_of_lt_two_pow hm
  cases f <;> simp [Form.mask, Form.UnusedZero, slice, hk', hr', hm'] <;> tauto

/-- The mask keeps the reserved bits, the opcode and the fields that the form does not use. -/
theorem Form.and_mask_eq_iff (f : Form) {n : Nat} (hn : n < 2 ^ 8) (w : BitVec 32) :
    w &&& f.mask = BitVec.ofNat 32 n ↔ slice w.toNat 31 29 = 0 ∧ slice w.toNat 7 0 = n ∧
      f.UnusedZero (slice w.toNat 17 8) (slice w.toNat 19 18) (slice w.toNat 28 20) := by
  obtain ⟨hres, himm, hrole, hslot, hopc⟩ := slices_of_lt hn
  have hn32 : (BitVec.ofNat 32 n).toNat = n := Nat.mod_eq_of_lt (by omega)
  rw [← BitVec.toNat_inj, word_eq_iff_slices (BitVec.isLt _) (BitVec.isLt _), hn32, BitVec.toNat_and,
    hres, himm, hrole, hslot, hopc]
  simp only [slice_and]
  rw [f.slice_mask_reserved, f.slice_mask_opcode, Nat.and_two_pow_sub_one_of_lt_two_pow (slice_lt _ 31 29),
    Nat.and_two_pow_sub_one_of_lt_two_pow (slice_lt _ 7 0),
    ← f.and_mask_fields_eq_zero_iff (slice_lt ..) (slice_lt ..) (slice_lt ..)]
  tauto

/-! The printed rows (30_encoding.md R86). -/

/-- Each row's mask is that of its opcode's form. -/
theorem opcodeMap_row {row : Nat × Nat} (h : row ∈ Machine.opcodeMap) :
    ∃ f, opcodeForm row.1 = some f ∧ f.mask = BitVec.ofNat 32 row.2 := by
  have hrows : ∀ row ∈ Machine.opcodeMap,
      (opcodeForm row.1).map Form.mask = some (BitVec.ofNat 32 row.2) := by decide
  exact Option.map_eq_some_iff.mp (hrows row h)

theorem Instr.row_mem (i : Instr) : (i.opcode, i.form.mask.toNat) ∈ Machine.opcodeMap := by
  cases i <;> simp [Machine.opcodeMap, Instr.opcode, Instr.form, Form.mask]

/-- The decoder selects a command of an opcode exactly by the mask of the opcode's form. -/
theorem exists_command_iff_and_mask {n : Nat} {f : Form} (hf : opcodeForm n = some f) (w : BitVec 32) :
    (∃ i, decode (w.setWidth 64) = .command i ∧ i.opcode = n) ↔ w &&& f.mask = BitVec.ofNat 32 n := by
  have hn : n < 2 ^ 8 := by
    obtain ⟨-, hopc, -⟩ := (f.make 0 0 0).fieldsFit
    rwa [opcode_make hf] at hopc
  have hupper : slice w.toNat 63 32 = 0 := by
    have := w.isLt
    simp only [slice]
    omega
  simp only [f.and_mask_eq_iff hn, decode_eq_command_iff_form, toNat_setWidth_word]
  constructor
  · rintro ⟨i, ⟨-, hres, g, hg, hzero, rfl⟩, hi⟩
    rw [opcode_make hg] at hi
    rw [hi, hf] at hg
    cases hg
    exact ⟨hres, hi, hzero⟩
  · rintro ⟨hres, hopc, hzero⟩
    exact ⟨_, ⟨hupper, hres, f, hopc ▸ hf, hzero, rfl⟩, opcode_make hf _ _ _⟩

/-- Settles O1: the word carries the command's fields in their places, and the decoder reads it off them. -/
theorem encodedCommandsDecodeBack : Obligations.EncodedCommandsDecodeBack := by
  unfold Obligations.EncodedCommandsDecodeBack
  exact fun _ => decode_eq_command_iff.mpr rfl

/-- Settles O2: data whose fields are the command's, and 0 elsewhere, are its word. -/
theorem decodedDataAreTheWord : Obligations.DecodedDataAreTheWord := by
  unfold Obligations.DecodedDataAreTheWord
  exact fun _ _ => decode_eq_command_iff.mp

/-- Settles O3: each row is its form's mask, and every command the decoder selects stands in a row. -/
theorem opcodeMapSelectsByMask : Obligations.OpcodeMapSelectsByMask := by
  unfold Obligations.OpcodeMapSelectsByMask
  intro w
  constructor
  · intro row hrow
    obtain ⟨f, hf, hmask⟩ := opcodeMap_row hrow
    rw [exists_command_iff_and_mask hf, hmask]
  · intro hnone
    cases hd : decode (w.setWidth 64) with
    | illegal why => exact ⟨why, rfl⟩
    | command i =>
      have hmatch := (exists_command_iff_and_mask (opcodeForm_opcode i) w).mp ⟨i, hd, rfl⟩
      rw [← BitVec.setWidth_eq i.form.mask, ← BitVec.ofNat_toNat] at hmatch
      exact absurd hmatch (hnone _ i.row_mem)

/-- Settles O4: the decoder run on each word. -/
theorem printedWordsDecode : Obligations.PrintedWordsDecode := by
  unfold Obligations.PrintedWordsDecode
  decide

end Sys2Proof
end

section
/-!
PROOFS. What a CMD write leaves alone (30_encoding.md R83, R87; 60_exceptions.md R203): all but CMD, RES and STAT where
the data are no command, and the operands, CMD and the parameters where they are any command but SYS.RESET.
-/

namespace Sys2Proof.Machine

/-! Data that are no command. -/

theorem decode_illegal_of_ne_encode {data : Word} (h : ∀ i : Instr, data ≠ (encode i).setWidth 64) :
    ∃ why, decode data = .illegal why := by
  cases hd : decode data with
  | illegal why => exact ⟨why, rfl⟩
  | command i => exact absurd (decode_eq_command_iff.mp hd) (h i)

theorem issue_failed_of_illegal {data : Word} {why : DecodeError} (h : decode data = .illegal why) (s : State) :
    ∃ t, issue data s = .next t ∧ t.cmd = data.setWidth 32 ∧ Failed (s.latchCmd data) t .eIllegal :=
  ⟨_, issue_of_illegal h s, rfl, State.fail_failed _ _⟩

/-- Settles O5: such data decode to no command, so the write is latched and fails. -/
theorem otherDataAreIllegal : Obligations.OtherDataAreIllegal := by
  unfold Obligations.OtherDataAreIllegal
  intro data hdata
  obtain ⟨why, hwhy⟩ := decode_illegal_of_ne_encode hdata
  refine ⟨issue_failed_of_illegal hwhy, fun s rest hq => ?_⟩
  rw [step_write_cmd hq]
  exact issue_failed_of_illegal hwhy { s with hostQueue := rest }

/-! The inputs of a command: its operands, the parameters and the host's side. -/

theorem State.clearRun_sameInputs (s : State) (k cnt : Nat) : SameInputs s (s.clearRun k cnt) := by
  rw [State.clearRun_eq]
  exact ⟨rfl, rfl, rfl, rfl, rfl, rfl⟩

theorem State.buildPlan_sameInputs (s : State) (w : Nat) (plan : List PlanNode) :
    SameInputs s (s.buildPlan w plan) := by
  rw [State.buildPlan_eq]
  exact ⟨rfl, rfl, rfl, rfl, rfl, rfl⟩

/-- Accounting and completion write USED, STAT and RES only. -/
theorem SameInputs.accountComplete {s t : State} (h : SameInputs s t) (freed added v : Nat) :
    SameInputs s ((t.account freed added).complete v) :=
  ⟨h.config, h.op0, h.op1, h.cmd, h.hostQueue, h.hostReads⟩

theorem SlotEffect.sameInputs {s t : State} {k : Nat} (h : SlotEffect s k t) : SameInputs s t := by
  cases h with
  | failed | answered | arrayWritten | dictBuilt | dictFreed => exact ⟨rfl, rfl, rfl, rfl, rfl, rfl⟩
  | treeBuilt => exact (s.buildPlan_sameInputs ..).accountComplete ..
  | treeFreed => exact (s.clearRun_sameInputs ..).accountComplete ..

/-- Settles O49: the SYS commands one by one, and a slot command by the way it completes. -/
theorem onlySysResetChangesOperands : Obligations.OnlySysResetChangesOperands := by
  unfold Obligations.OnlySysResetChangesOperands
  intro i s t h
  cases hk : i.slot? with
  | none =>
    obtain rfl | rfl | rfl := Instr.slot?_eq_none hk <;> cases h
    · exact ⟨fun _ => ⟨rfl, rfl⟩, rfl, rfl, rfl, rfl⟩
    · exact ⟨fun hi => absurd rfl hi, rfl, rfl, rfl, rfl⟩
    · exact ⟨fun _ => ⟨rfl, rfl⟩, rfl, rfl, rfl, rfl⟩
  | some k =>
    obtain ⟨hconfig, hop0, hop1, hcmd, hqueue, hreads⟩ := (exec_effect hk h).sameInputs
    exact ⟨fun _ => ⟨hop0, hop1⟩, hcmd, hconfig, hqueue, hreads⟩

end Sys2Proof.Machine
end

section
/-!
PROOFS. The SYS commands (40_sys.md R100 to R102): the word of each, and the whole of what each writes.
-/

namespace Sys2Proof.Machine

/-- `STAT` is 0 where CODE is OK and STICKY is clear (10_state.md R30). -/
theorem State.stat_eq_zero {s : State} (hcode : s.code = .ok) (hsticky : s.sticky = false) : s.stat = 0 := by
  apply BitVec.eq_of_toNat_eq
  rw [State.stat_toNat, hcode, hsticky]
  rfl

/-- A write of data that are no command leaves CODE E_ILLEGAL and sets STICKY (30_encoding.md R85). -/
theorem issue_sets_sticky_of_illegal {data : Word} {why : DecodeError} (h : decode data = .illegal why) (s : State) :
    ∃ t, issue data s = .next t ∧ t.code = .eIllegal ∧ t.sticky = true := by
  obtain ⟨t, ht, -, hfailed⟩ := issue_failed_of_illegal h s
  exact ⟨t, ht, hfailed.code, hfailed.sticky⟩

/-- Settles O14: the command completes with 0, which writes RES and CODE alone. -/
theorem sysNopWritesResAndCode : Obligations.SysNopWritesResAndCode := by
  unfold Obligations.SysNopWritesResAndCode
  exact ⟨rfl, exec_sysNop⟩

/-- Settles O15: the command leaves `State.resetData`, which keeps the parameters, CMD and the host's side alone. -/
theorem sysResetEmptiesEverything : Obligations.SysResetEmptiesEverything := by
  unfold Obligations.SysResetEmptiesEverything
  exact ⟨rfl, exec_sysReset⟩

/-- Settles O16: the command completes with 0 and clears STICKY; its look-alike has the slot field that no SYS command
uses, so it is latched and fails. -/
theorem sysClrerrClearsSticky : Obligations.SysClrerrClearsSticky := by
  unfold Obligations.SysClrerrClearsSticky
  obtain ⟨-, -, -, -, -, hlookAlike, -, -⟩ := printedWordsDecode
  exact ⟨rfl, fun s => ⟨⟨_, exec_sysClrerr s, rfl, State.stat_eq_zero rfl rfl⟩,
    issue_sets_sticky_of_illegal hlookAlike s⟩⟩

end Sys2Proof.Machine
end

section
/-!
PROOFS. The BA commands (41_bitarray.md R110 to R118): what the bits and bytes of an array read as, what replacing one
array leaves alone, and per command the state it completes with where each of its checks passes.
-/

namespace Sys2Proof.Machine

/-! The bits and bytes of a valid array (20_memory.md R50, R52, R53). -/

theorem State.readByte_of_arr {s : State} {k : Nat} {r : Role} {a : BitArray} (h : (s.slot k).arr r = some a)
    (b : Nat) : s.readByte k r b = a.readByte b := by
  rw [State.readByte, Slot.array_of_arr h]

theorem State.readBit_of_arr {s : State} {k : Nat} {r : Role} {a : BitArray} (h : (s.slot k).arr r = some a)
    (i : Nat) : s.readBit k r i = a.bit i := by
  rw [State.readBit, Slot.array_of_arr h]

theorem BitArray.getInt_eq_sum (a : BitArray) (off w : Nat) :
    a.getInt off w = ∑ j ∈ Finset.range w, a.bit (off + j) * 2 ^ j := by
  induction w with
  | zero => rfl
  | succ w ih => rw [BitArray.getInt, ih, Finset.sum_range_succ]

theorem BitArray.readByte_setInt_of_not_touchesByte (a : BitArray) {off w b : Nat} (v : Nat)
    (h : ¬touchesByte off w b) : (a.setInt off w v).readByte b = a.readByte b :=
  a.readByte_setInt off w v b fun i hlo hhi hb => h ⟨i, hlo, hhi, hb⟩

theorem BitArray.zeros_bitCount (v : Word) : (BitArray.zeros v.toNat).bitCount = v := by simp [BitArray.zeros]

/-- A byte count that MEM_BYTES bounds fits the register (00_scope.md R5). -/
theorem lt_two_pow_of_le_memBytes {c : Config} (hc : c.ok = true) {n : Nat} (hn : n ≤ c.memBytes) : n < 2 ^ 64 := by
  simp only [Config.ok, Bool.and_eq_true, decide_eq_true_eq] at hc
  obtain ⟨-, hmem⟩ := hc
  omega

/-! Replacing one array. -/

/-- A command completed, and `A(k, r)` became `new` with no other array, dictionary or node touched. -/
structure ArrayReplaced (s : State) (k : Nat) (r : Role) (new : Option BitArray) (t : State) : Prop where
  ok : CompletedOk s t 0
  arr : (t.slot k).arr r = new
  only : OnlyArray k r s t

theorem State.arr_setArr_self (s : State) (k : Nat) (r : Role) (new : Option BitArray) :
    ((s.setArr k r new).slot k).arr r = new := by
  rw [State.slot_setArr, if_pos rfl, Slot.arr_setArr_self]

theorem State.arr_setArr_ne (s : State) {k j : Nat} {r q : Role} (new : Option BitArray) (h : j ≠ k ∨ q ≠ r) :
    ((s.setArr k r new).slot j).arr q = (s.slot j).arr q := by
  rw [State.slot_setArr]
  split
  · next hj => rw [Slot.arr_setArr, if_neg (h.resolve_left (not_not_intro hj)), hj]
  · rfl

theorem State.setArr_onlyArray (s : State) (k : Nat) (r : Role) (new : Option BitArray) :
    OnlyArray k r s (s.setArr k r new) where
  rankDict j := by rw [State.slot_setArr]; split <;> simp [*]
  node j := by rw [State.slot_setArr]; split <;> simp [*]
  arr _ _ h := s.arr_setArr_ne new h
  byte _ _ _ h := by rw [State.readByte, Slot.array, s.arr_setArr_ne new h]; rfl

/-- A replaced array whose bytes are accounted for, as BA.NEW, BA.RESIZE and BA.FREE leave it (10_state.md R28). -/
theorem arrayReplaced_account (s : State) (k : Nat) (r : Role) (new : Option BitArray) (freed added : Nat) :
    ArrayReplaced s k r new (((s.setArr k r new).account freed added).complete 0) where
  ok := ⟨rfl, rfl, rfl, ⟨rfl, rfl, rfl, rfl, rfl, rfl⟩⟩
  arr := s.arr_setArr_self k r new
  only :=
    have h := s.setArr_onlyArray k r new
    ⟨h.rankDict, h.node, h.arr, h.byte⟩

/-- A replaced array of the same length, as the commands that write bits leave it. -/
theorem arrayReplaced_inPlace (s : State) (k : Nat) (r : Role) (new : Option BitArray) :
    ArrayReplaced s k r new ((s.setArr k r new).complete 0) := by
  have h := arrayReplaced_account s k r new 0 0
  rwa [State.account_zero] at h

theorem used_account_complete {t : State} {freed added : Nat} (h : t.used.toNat - freed + added < 2 ^ 64) (v : Nat) :
    ((t.account freed added).complete v).used.toNat = t.used.toNat - freed + added := by
  rw [State.complete_used, State.account_used, BitVec.toNat_ofNat, Nat.mod_eq_of_lt h]

theorem State.complete_answered (s : State) {v : Nat} (h : v < 2 ^ 64) : Answered s (s.complete v) v :=
  ⟨s.complete_completedOk h, rfl, rfl⟩

/-! Each command where its checks pass. -/

section Passes

variable {k : SlotNum} {r : Role} {w : Imm9} {s : State} {a : BitArray}

theorem exec_baNew_of_passes (hk : k.toNat < s.config.nslot) (hl : (s.slot k.toNat).locked r = false)
    (hn : (s.slot k.toNat).arr r = none) (hcap : s.used.toNat + bytesFor s.operand0 ≤ s.config.memBytes) :
    exec (.baNew k r) s = .next (((s.setArr k.toNat r (some (BitArray.zeros s.operand0))).account 0
      (bytesFor s.operand0)).complete 0) := by
  have hfits : ¬s.overCapacity 0 (bytesFor s.operand0) = true := by rw [State.overCapacity_iff]; omega
  simp [exec, execBaNew, inSlot_of_lt hk, hl, hn, hfits]

theorem exec_baResize_of_passes (hk : k.toNat < s.config.nslot) (hl : (s.slot k.toNat).locked r = false)
    (ha : (s.slot k.toNat).arr r = some a)
    (hcap : s.used.toNat - a.bytes + bytesFor s.operand0 ≤ s.config.memBytes) :
    exec (.baResize k r) s = .next (((s.setArr k.toNat r (some (BitArray.zeros s.operand0))).account a.bytes
      (bytesFor s.operand0)).complete 0) := by
  have hfits : ¬s.overCapacity a.bytes (bytesFor s.operand0) = true := by rw [State.overCapacity_iff]; omega
  simp [exec, execBaResize, inSlot_of_lt hk, hl, ha, hfits]

theorem exec_baFree_of_passes (hk : k.toNat < s.config.nslot) (hl : (s.slot k.toNat).locked r = false)
    (ha : (s.slot k.toNat).arr r = some a) :
    exec (.baFree k r) s = .next (((s.setArr k.toNat r none).account a.bytes 0).complete 0) := by
  simp [exec, execBaFree, inSlot_of_lt hk, hl, ha]

theorem exec_baLen_of_passes (hk : k.toNat < s.config.nslot) (ha : (s.slot k.toNat).arr r = some a) :
    exec (.baLen k r) s = .next (s.complete a.len) := by
  simp [exec, execBaLen, inSlot_of_lt hk, ha]

theorem exec_baGetbit_of_passes (hk : k.toNat < s.config.nslot) (ha : (s.slot k.toNat).arr r = some a)
    (hi : s.operand0 < a.len) : exec (.baGetbit k r) s = .next (s.complete (a.bit s.operand0)) := by
  simp [exec, execBaGetbit, inSlot_of_lt hk, ha, (a.hasBit_iff _).mpr hi]

/-- BA.SETBIT and BA.CLRBIT put the bit that they are named after. -/
theorem exec_baPutbit_of_passes (hk : k.toNat < s.config.nslot) (hl : (s.slot k.toNat).locked r = false)
    (ha : (s.slot k.toNat).arr r = some a) (hi : s.operand0 < a.len) (set : Bool) :
    exec (if set then .baSetbit k r else .baClrbit k r) s
      = .next ((s.setArr k.toNat r (some (a.putBit s.operand0 set.toNat))).complete 0) := by
  have hbit := (a.hasBit_iff _).mpr hi
  cases set with
  | true => simp [exec, execBaSetbit, inSlot_of_lt hk, hl, ha, hbit, BitArray.putBit]
  | false => simp [exec, execBaClrbit, inSlot_of_lt hk, hl, ha, hbit, BitArray.putBit]

theorem exec_baGetint_of_passes (hk : k.toNat < s.config.nslot) (hw : w.toNat ≤ 64)
    (ha : (s.slot k.toNat).arr r = some a) (hi : s.operand0 + w.toNat ≤ a.len) :
    exec (.baGetint k r w) s = .next (s.complete (a.getInt s.operand0 w.toNat)) := by
  simp [exec, execBaGetint, inSlot_of_lt hk, hw.not_gt, ha, (a.hasInt_iff _ _).mpr hi]

theorem exec_baSetint_of_passes (hk : k.toNat < s.config.nslot) (hw : w.toNat ≤ 64)
    (hl : (s.slot k.toNat).locked r = false) (ha : (s.slot k.toNat).arr r = some a)
    (hi : s.operand0 + w.toNat ≤ a.len) :
    exec (.baSetint k r w) s
      = .next ((s.setArr k.toNat r (some (a.setInt s.operand0 w.toNat s.operand1))).complete 0) := by
  simp [exec, execBaSetint, inSlot_of_lt hk, hw.not_gt, hl, ha, (a.hasInt_iff _ _).mpr hi]

end Passes

/-! The obligations. -/

/-- Settles O17: the array becomes OP0 zero bits, and the capacity check keeps the new USED within 64 bits; `bytesFor n`
is `(n + 7) / 8` by definition. -/
theorem baNewCreatesZeroedArray : Obligations.BaNewCreatesZeroedArray := by
  unfold Obligations.BaNewCreatesZeroedArray
  intro k r s hc hk hl hn hcap
  obtain ⟨hok, harr, honly⟩ := arrayReplaced_account s k.toNat r (some (BitArray.zeros s.operand0)) 0
    (bytesFor s.operand0)
  exact ⟨_, _, exec_baNew_of_passes hk hl hn hcap, hok, used_account_complete (lt_two_pow_of_le_memBytes hc hcap) 0,
    harr, BitArray.zeros_bitCount s.op0, BitArray.zeros_readByte _, honly⟩

/-- Settles O18: as O17, with the old array's bytes freed. -/
theorem baResizeRezeroesArray : Obligations.BaResizeRezeroesArray := by
  unfold Obligations.BaResizeRezeroesArray
  intro k r s old hc hk hl ha hcap
  obtain ⟨hok, harr, honly⟩ := arrayReplaced_account s k.toNat r (some (BitArray.zeros s.operand0)) old.bytes
    (bytesFor s.operand0)
  exact ⟨_, _, exec_baResize_of_passes hk hl ha hcap, hok,
    used_account_complete (lt_two_pow_of_le_memBytes hc hcap) 0, harr, BitArray.zeros_bitCount s.op0,
    BitArray.zeros_readByte _, honly⟩

/-- Settles O19: the array becomes none, and USED shrinks, so it still fits. -/
theorem baFreeRemovesArray : Obligations.BaFreeRemovesArray := by
  unfold Obligations.BaFreeRemovesArray
  intro k r s old hk hl ha
  obtain ⟨hok, harr, honly⟩ := arrayReplaced_account s k.toNat r none old.bytes 0
  have hused : s.used.toNat - old.bytes + 0 < 2 ^ 64 := lt_of_le_of_lt (Nat.sub_le ..) s.used.isLt
  exact ⟨_, exec_baFree_of_passes hk hl ha, hok, used_account_complete hused 0, harr, honly⟩

/-- Settles O20: both commands complete with what they read; a length is a word and a bit is below 2. -/
theorem baLenAndGetbitRead : Obligations.BaLenAndGetbitRead := by
  unfold Obligations.BaLenAndGetbitRead
  intro k r s a hk ha
  refine ⟨⟨_, exec_baLen_of_passes hk ha, s.complete_answered a.bitCount.isLt⟩, fun hi => ?_⟩
  rw [State.readByte_of_arr ha]
  exact ⟨_, exec_baGetbit_of_passes hk ha hi, s.complete_answered ((a.bit_lt_two _).trans (by decide))⟩

/-- Settles O21: both commands put one bit, and `putBit` changes one bit of one byte. -/
theorem baSetbitClrbitChangeOneBit : Obligations.BaSetbitClrbitChangeOneBit := by
  unfold Obligations.BaSetbitClrbitChangeOneBit
  intro k r s a hk hl ha hi set
  obtain ⟨hok, harr, honly⟩ := arrayReplaced_inPlace s k.toNat r (some (a.putBit s.operand0 set.toNat))
  refine ⟨_, _, exec_baPutbit_of_passes hk hl ha hi set, hok, rfl, harr, a.putBit_bitCount .., fun i => ?_,
    fun b hb => ?_, honly⟩
  · rw [State.readBit_of_arr harr, State.readBit_of_arr ha, BitArray.bit_putBit, Nat.mod_eq_of_lt set.toNat_lt]
    rfl
  · rw [State.readByte_of_arr harr, State.readByte_of_arr ha]
    exact a.readByte_putBit_ne _ _ hb

/-- Settles O22: `GetInt` is the sum, and at most 64 bits of it fit the result. -/
theorem baGetintSumsBits : Obligations.BaGetintSumsBits := by
  unfold Obligations.BaGetintSumsBits
  intro k r w s a hk hw ha hi
  have hfits : a.getInt s.operand0 w.toNat < 2 ^ 64 :=
    (a.getInt_lt _ _).trans_le (Nat.pow_le_pow_right (by decide) hw)
  refine ⟨_, exec_baGetint_of_passes hk hw ha hi, ?_⟩
  have hsum := a.getInt_eq_sum s.operand0 w.toNat
  simp only [State.readBit_of_arr ha]
  exact hsum ▸ s.complete_answered hfits

/-- Settles O23: bits, read-back and frame are those of `SetInt`. -/
theorem baSetintWritesBits : Obligations.BaSetintWritesBits := by
  unfold Obligations.BaSetintWritesBits
  intro k r w s a hk hw hl ha hi
  obtain ⟨hok, harr, honly⟩ := arrayReplaced_inPlace s k.toNat r (some (a.setInt s.operand0 w.toNat s.operand1))
  refine ⟨_, _, exec_baSetint_of_passes hk hw hl ha hi, hok, rfl, harr, a.setInt_bitCount .., fun i => ?_,
    a.getInt_setInt_self .., fun b hb => ?_, honly⟩
  · rw [State.readBit_of_arr harr, State.readBit_of_arr ha, BitArray.bit_setInt]
    rfl
  · rw [State.readByte_of_arr harr, State.readByte_of_arr ha]
    exact a.readByte_setInt_of_not_touchesByte _ hb

end Sys2Proof.Machine
end

section
/-!
PROOFS. The sizing of the rank dictionary (42_rank.md R130 to R136): ceilings and logarithms of the model against those
over the reals, and what follows for the six sizes.
-/

namespace Sys2Proof.Machine

/-! Ceilings and logarithms (00_scope.md R8, 42_rank.md R131). -/

/-- The model's ceiling is the one of Mathlib's `a ⌈/⌉ b`. -/
theorem ceilDiv_le_iff {a b c : Nat} (hb : 0 < b) : ceilDiv a b ≤ c ↔ a ≤ c * b := by
  rw [Nat.mul_comm]
  exact ceilDiv_le_iff_le_mul hb

/-- A quotient's ceiling is found from the ceiling of what is divided. -/
theorem natCeil_div_natCast (x : ℝ) {d : Nat} (hd : 0 < d) : ⌈x / d⌉₊ = ceilDiv ⌈x⌉₊ d := by
  refine eq_of_forall_ge_iff fun c => ?_
  rw [Nat.ceil_le, div_le_iff₀ (by exact_mod_cast hd), ceilDiv_le_iff hd, Nat.ceil_le, Nat.cast_mul]

theorem ceilDiv_eq_natCeil (a : Nat) {b : Nat} (hb : 0 < b) : ceilDiv a b = ⌈(a : ℝ) / b⌉₊ := by
  rw [natCeil_div_natCast _ hb, Nat.ceil_natCast]

theorem bitLen_le_iff {v w : Nat} : bitLen v ≤ w ↔ v < 2 ^ w :=
  ⟨fun h => (lt_two_pow_bitLen v).trans_le (Nat.pow_le_pow_right (by decide) h), bitLen_le_of_lt⟩

theorem natCeil_logb_two (n : Nat) : ⌈Real.logb 2 n⌉₊ = Nat.clog 2 n := by
  exact_mod_cast Real.natCeil_logb_natCast 2 n

/-- `bitlen(n - 1)` is the ceiling of `log2(n)` (42_rank.md R131). -/
theorem bitLen_pred_eq_natCeil {n : Nat} (h : 1 ≤ n) : bitLen (n - 1) = ⌈Real.logb 2 n⌉₊ := by
  refine eq_of_forall_ge_iff fun w => ?_
  rw [natCeil_logb_two, bitLen_le_iff, Nat.clog_le_iff_le_pow (by decide)]
  omega

theorem one_le_logb_two {n : Nat} (h : 2 ≤ n) : 1 ≤ Real.logb 2 n := by
  rw [Real.le_logb_iff_rpow_le (by norm_num) (by positivity), Real.rpow_one]
  exact_mod_cast h

/-! The superblock length (42_rank.md R130, R132). -/

/-- The answer `s` of the threshold search is the ceiling: the formula is at most `s`, and above `s - 1`, which is the
threshold test before it or 0. -/
theorem superblockLen_eq_natCeil {n : Nat} (h2 : 2 ≤ n) (h : n < 2 ^ 64) :
    superblockLen n = ⌈Real.logb 2 n ^ 2 / 2⌉₊ := by
  obtain ⟨s, hs⟩ := Nat.exists_eq_add_of_le' (superblockLen_pos n)
  have hmax : superblockLen n ≤ 2048 := (sizesGood h2 h).slMax
  have hle (r : Nat) (hr : r < 2048) := superblockLen_le_iff_logb (n := n) (by omega) hr
  rw [hs]
  refine ((Nat.ceil_eq_iff s.succ_ne_zero).mpr ⟨?_, (hle s (by omega)).mp hs.le⟩).symm
  rw [Nat.succ_sub_one]
  cases s with
  | zero =>
    have := one_le_logb_two h2
    rw [Nat.cast_zero]
    positivity
  | succ s =>
    refine not_le.mp fun hc => ?_
    have := (hle s (by omega)).mpr hc
    omega

/-- Two bits are the only length whose superblocks are one bit long: the first threshold is 2 (42_rank.md R135). -/
theorem superblockLen_eq_one_iff {n : Nat} (h2 : 2 ≤ n) : superblockLen n = 1 ↔ n = 2 := by
  have hfirst := superblockLen_le_iff n (s := 0) (by decide)
  have hT : thresholds[0]'(thresholds_length.symm ▸ by decide) = 2 := rfl
  have := superblockLen_pos n
  omega

/-! The obligations. -/

/-- Settles O25: the superblock length by the thresholds' definition, the five other sizes by the ceilings above. -/
theorem sizesFollowRealLogarithms : Obligations.SizesFollowRealLogarithms := by
  unfold Obligations.SizesFollowRealLogarithms
  intro n h2 h
  have hz := sizesGood h2 h
  have hsl : 1 ≤ (sizeParams n).superblockLen := hz.blPos.trans hz.blLe
  refine ⟨superblockLen_eq_natCeil h2 h, bitLen_pred_eq_natCeil (by omega), ceilDiv_eq_natCeil n hsl, ?_,
    bitLen_pred_eq_natCeil hsl, ceilDiv_eq_natCeil _ hz.blPos⟩
  have hhalf := natCeil_div_natCast (Real.logb 2 n) two_pos
  rw [← bitLen_pred_eq_natCeil (by omega)] at hhalf
  exact hhalf.symm

/-- Settles O27: the sizes cover `n` tightly and leave room for each count (`SizesGood`). -/
theorem sizingConsequences : Obligations.SizingConsequences := by
  unfold Obligations.SizingConsequences
  rintro n h2 h _ rfl
  have hz := sizesGood h2 h
  have hsl : 1 ≤ (sizeParams n).superblockLen := hz.blPos.trans hz.blLe
  have hsc := hz.scTight
  have hbps := hz.bpsTight
  have hsw := hz.swRoom
  have hbw := hz.bwRoom
  have hwidth : (sizeParams n).blockWordSize = 0 ↔ (sizeParams n).superblockLen = 1 := by
    have := bitLen_le_iff (v := (sizeParams n).superblockLen - 1) (w := 0)
    change bitLen ((sizeParams n).superblockLen - 1) = 0 ↔ _
    omega
  exact ⟨hz.blPos, hz.blLe, hz.blMax, by rw [Nat.sub_one_mul]; omega, hz.scCover, by rw [Nat.sub_one_mul]; omega,
    hz.bpsCover, by omega, by omega, hwidth, superblockLen_eq_one_iff h2, hz.fits⟩

/-- The bounds of `superblock_len`: log2 lies between its floor and its ceiling, and squaring, halving and rounding up
keep the order. -/
theorem superblockLen_bounds {n : Nat} (h2 : 2 ≤ n) (h : n < 2 ^ 64) :
    ceilDiv (Nat.log 2 n ^ 2) 2 ≤ superblockLen n ∧ superblockLen n ≤ ceilDiv (Nat.clog 2 n ^ 2) 2 := by
  have hlog := one_le_logb_two h2
  have hfloor : (Nat.log 2 n : ℝ) ≤ Real.logb 2 n := by exact_mod_cast Real.natLog_le_logb n 2
  have hceil : Real.logb 2 n ≤ Nat.clog 2 n := natCeil_logb_two n ▸ Nat.le_ceil _
  rw [superblockLen_eq_natCeil h2 h, ceilDiv_eq_natCeil _ two_pos, ceilDiv_eq_natCeil _ two_pos]
  push_cast
  constructor <;> gcongr

/-- Settles O28: at a power of two floor and ceiling of log2 are the same, so the bounds meet. -/
theorem superblockLenBounds : Obligations.SuperblockLenBounds := by
  unfold Obligations.SuperblockLenBounds
  refine ⟨fun n h2 h => superblockLen_bounds h2 h, fun l h1 hl => ?_⟩
  obtain ⟨hlo, hhi⟩ := superblockLen_bounds (n := 2 ^ l) (Nat.le_self_pow (by omega) 2)
    (Nat.pow_lt_pow_right (by decide) hl)
  rw [Nat.log_pow (by decide)] at hlo
  rw [Nat.clog_pow _ _ (by decide)] at hhi
  exact Nat.le_antisymm hhi hlo

/-- Settles O26: each row's sizes by evaluating the sizing. -/
theorem workedSizesTable : Obligations.WorkedSizesTable := by
  unfold Obligations.WorkedSizesTable
  simp only [List.forall_mem_cons]
  and_intros
  all_goals decide +kernel

end Sys2Proof.Machine
end

section
/-!
PROOFS. The RD commands (42_rank.md R140 to R146): per command the state it completes with where each of its checks
passes, what stays when a slot's dictionary is built or freed, and what the queries answer over a built
dictionary.
-/

namespace Sys2Proof.Machine

/-! Building and freeing a dictionary. -/

theorem SameSlotsBut.of_slot {s t : State} {p : Nat → Prop} (h : ∀ j, ¬p j → t.slot j = s.slot j) :
    SameSlotsBut p s t where
  slot := h
  byte j r b hj := by rw [State.readByte, State.readByte, h j hj]

/-- A command completed, slot `k` became `sl`, and the bytes it freed and added are accounted for. -/
theorem slotReplaced_account (s : State) (k : Nat) (sl : Slot) (freed added : Nat) :
    CompletedOk s (((s.setSlot k sl).account freed added).complete 0) 0 ∧
      (((s.setSlot k sl).account freed added).complete 0).slot k = sl ∧
      SameSlotsBut (· = k) s (((s.setSlot k sl).account freed added).complete 0) :=
  ⟨⟨rfl, rfl, rfl, ⟨rfl, rfl, rfl, rfl, rfl, rfl⟩⟩, s.slot_setSlot_self k sl,
    .of_slot fun _ hj => s.slot_setSlot_ne k sl hj⟩

/-- Where P and S are kept, every byte outside the two tables reads as before. -/
theorem State.readByte_of_not_table {s t : State} {k : Nat} (hP : (t.slot k).partitionBits = (s.slot k).partitionBits)
    (hS : (t.slot k).symbols = (s.slot k).symbols) {r : Role} (hsbt : r ≠ .SBT) (hblt : r ≠ .BLT) (x : Nat) :
    t.readByte k r x = s.readByte k r x := by
  have harr : (t.slot k).arr r = (s.slot k).arr r := by
    cases r with
    | P => exact hP
    | S => exact hS
    | SBT => exact absurd rfl hsbt
    | BLT => exact absurd rfl hblt
  rw [State.readByte, State.readByte, Slot.array, Slot.array, harr]

/-! A slot that holds a dictionary. -/

theorem HasDict.two_le {s : State} {k : Nat} {b : BitArray} (h : HasDict s k b) : 2 ≤ b.len := by
  obtain ⟨-, h2, -⟩ := h
  exact h2

theorem HasDict.rankDict {s : State} {k : Nat} {b : BitArray} (h : HasDict s k b) :
    (s.slot k).rankDict = some (RankDict.ofSizes b.len (sizeParams b.len)) := by
  obtain ⟨-, hd, -, -⟩ := h.tables
  exact hd

/-- Both tables have the lengths of 42_rank.md R134. -/
theorem HasDict.table_len {s : State} {k : Nat} {b : BitArray} (h : HasDict s k b) :
    ((s.slot k).array .SBT).len = (sizeParams b.len).sbtBits ∧
      ((s.slot k).array .BLT).len = (sizeParams b.len).bltBits := by
  obtain ⟨-, -, hsbt, hblt⟩ := h.tables
  obtain ⟨hcount, -, -⟩ := buildTables_spec h.two_le
  rw [Slot.array_of_arr (r := .SBT) hsbt, Slot.array_of_arr (r := .BLT) hblt]
  exact ⟨hcount.sbtLen, hcount.bltLen⟩

/-- The scalars in the order of the selectors (42_rank.md R146). -/
theorem RankDict.param_eq (d : RankDict) {sel : Nat} (h : sel ≤ 6) :
    ∃ v, d.param sel = some v ∧ v.toNat = [d.n.toNat, d.sizes.superblockLen, d.sizes.superblockWordSize,
      d.sizes.superblockCount, d.sizes.blockLen, d.sizes.blockWordSize, d.sizes.blocksPerSuperblock].getD sel 0 := by
  interval_cases sel <;> exact ⟨_, rfl, rfl⟩

/-- One position more is one more of the bit it holds, and none more of the other. -/
theorem BitArray.count_succ_cases (a : BitArray) {i : Nat} (hi : i < a.len) :
    (a.count 1 0 (i + 1) = a.count 1 0 i + 1 ∧ a.count 0 0 (i + 1) = a.count 0 0 i) ∨
      (a.count 1 0 (i + 1) = a.count 1 0 i ∧ a.count 0 0 (i + 1) = a.count 0 0 i + 1) := by
  have hbit : a.bit i = 0 ∨ a.bit i = 1 := by have := a.bit_lt_two i; omega
  rcases hbit with hb | hb
  · exact .inr ⟨by simp [BitArray.count_succ, hb], by simp [BitArray.count_succ, hb, hi]⟩
  · exact .inl ⟨by simp [BitArray.count_succ, hb, hi], by simp [BitArray.count_succ, hb]⟩

/-! Each command where its checks pass. -/

section Passes

variable {k : SlotNum} {s : State} {b : BitArray} {d : RankDict}

theorem exec_rdBuild_of_passes (hk : k.toNat < s.config.nslot) (hn : (s.slot k.toNat).node = none)
    (hd : (s.slot k.toNat).rankDict = none) (hb : (s.slot k.toNat).partitionBits = some b) (h2 : 2 ≤ b.len)
    (hcap : s.used.toNat + (sizeParams b.len).tableBytes ≤ s.config.memBytes) :
    exec (.rdBuild k) s = .next (((s.setSlot k.toNat ((s.slot k.toNat).withDict b)).account 0
      (sizeParams b.len).tableBytes).complete 0) := by
  have hfits : ¬s.overCapacity 0 (sizeParams b.len).tableBytes = true := by rw [State.overCapacity_iff]; omega
  have hlen : ¬b.len ≤ 1 := by omega
  simp [exec, execRdBuild, inSlot_of_lt hk, hn, hd, hb, hlen, hfits]

theorem exec_rdFree_of_passes (hk : k.toNat < s.config.nslot) (hn : (s.slot k.toNat).node = none)
    (hd : (s.slot k.toNat).rankDict.isSome = true) :
    exec (.rdFree k) s = .next (((s.setSlot k.toNat (s.slot k.toNat).withoutDict).account
      (arrBytes (s.slot k.toNat).superblockTable + arrBytes (s.slot k.toNat).blockTable) 0).complete 0) := by
  have hsome : ¬(s.slot k.toNat).rankDict = none := Option.isSome_iff_ne_none.mp hd
  simp [exec, execRdFree, inSlot_of_lt hk, hn, hsome, Slot.withoutDict]

theorem exec_rdRank1_of_passes (hk : k.toNat < s.config.nslot) (hd : (s.slot k.toNat).rankDict = some d)
    (hi : s.operand0 < d.n.toNat) :
    exec (.rdRank1 k) s = .next (s.complete (rank1 (s.slot k.toNat) d s.operand0)) := by
  simp [exec, execRdRank1, inSlot_of_lt hk, hd, hi.not_ge]

theorem exec_rdRank0_of_passes (hk : k.toNat < s.config.nslot) (hd : (s.slot k.toNat).rankDict = some d)
    (hi : s.operand0 < d.n.toNat) :
    exec (.rdRank0 k) s = .next (s.complete (rank0 (s.slot k.toNat) d s.operand0)) := by
  simp [exec, execRdRank0, inSlot_of_lt hk, hd, hi.not_ge]

theorem exec_rdOvh_of_passes (hk : k.toNat < s.config.nslot) (hd : (s.slot k.toNat).rankDict = some d) :
    exec (.rdOvh k) s
      = .next (s.complete (((s.slot k.toNat).array .SBT).len + ((s.slot k.toNat).array .BLT).len)) := by
  simp [exec, execRdOvh, inSlot_of_lt hk, hd]

theorem exec_rdParam_of_passes {sel : Imm9} {v : Word} (hk : k.toNat < s.config.nslot) (hsel : sel.toNat ≤ 6)
    (hd : (s.slot k.toNat).rankDict = some d) (hv : d.param sel.toNat = some v) :
    exec (.rdParam k sel) s = .next (s.complete v.toNat) := by
  simp [exec, execRdParam, inSlot_of_lt hk, hsel.not_gt, hd, hv]

end Passes

/-! The obligations. -/

/-- Settles O29: the slot becomes `Slot.withDict`, whose tables `buildTables_spec` describes; `bytesFor n` is
`(n + 7) / 8` by definition. -/
theorem rdBuildFillsBothTables : Obligations.RdBuildFillsBothTables := by
  unfold Obligations.RdBuildFillsBothTables
  intro k s b hc hk hn hd hb h2 hcap
  obtain ⟨hok, hslot, hrest⟩ := slotReplaced_account s k.toNat ((s.slot k.toNat).withDict b) 0
    (sizeParams b.len).tableBytes
  obtain ⟨hsizes, hlen⟩ := RankDict.sizes_ofSizes h2 b.bitCount.isLt
  obtain ⟨hcount, -, -⟩ := buildTables_spec h2
  refine ⟨_, RankDict.ofSizes b.len (sizeParams b.len), (buildTables b (sizeParams b.len)).sbt,
    (buildTables b (sizeParams b.len)).blt, exec_rdBuild_of_passes hk hn hd hb h2 hcap, hok,
    used_account_complete (lt_two_pow_of_le_memBytes hc hcap) 0, hslot, hlen, hsizes, hcount, ⟨?_, h2, ?_⟩, hrest,
    fun r x hsbt hblt => State.readByte_of_not_table ?_ ?_ hsbt hblt x⟩
  · rw [hslot]; exact hb
  · rw [hslot, Slot.withDict_withDict]
  · rw [hslot]; rfl
  · rw [hslot]; rfl

/-- Settles O30: the slot becomes `Slot.withoutDict`, in which neither a node nor a dictionary locks the bits. -/
theorem rdFreeRemovesTables : Obligations.RdFreeRemovesTables := by
  unfold Obligations.RdFreeRemovesTables
  intro k s hk hn hd
  obtain ⟨hok, hslot, hrest⟩ := slotReplaced_account s k.toNat (s.slot k.toNat).withoutDict
    (arrBytes (s.slot k.toNat).superblockTable + arrBytes (s.slot k.toNat).blockTable) 0
  have hused := lt_of_le_of_lt (Nat.sub_le s.used.toNat
    (arrBytes (s.slot k.toNat).superblockTable + arrBytes (s.slot k.toNat).blockTable)) s.used.isLt
  refine ⟨_, exec_rdFree_of_passes hk hn hd, hok, used_account_complete hused 0, hslot, ?_, hrest,
    fun r x hsbt hblt => State.readByte_of_not_table ?_ ?_ hsbt hblt x⟩
  · rw [hslot]; simp [Slot.locked, Slot.withoutDict, hn]
  · rw [hslot]; rfl
  · rw [hslot]; rfl

/-- Settles O31: both ranks are counts of the bits (`rank1_of_hasDict`, `rank0_of_hasDict`), and a count of 64-bit
positions fits the result. -/
theorem rankCountsBits : Obligations.RankCountsBits := by
  unfold Obligations.RankCountsBits
  intro k s b hk hdict (hi : s.operand0 < b.len)
  obtain ⟨-, hlen⟩ := RankDict.sizes_ofSizes hdict.two_le b.bitCount.isLt
  have hfits (v : Nat) : b.count v 0 (s.operand0 + 1) < 2 ^ 64 :=
    ((b.count_le v 0 _).trans hi).trans_lt b.bitCount.isLt
  have hin : s.operand0 < (RankDict.ofSizes b.len (sizeParams b.len)).n.toNat := hlen.symm ▸ hi
  refine ⟨⟨_, exec_rdRank1_of_passes hk hdict.rankDict hin, ?_⟩,
    ⟨_, exec_rdRank0_of_passes hk hdict.rankDict hin, ?_⟩⟩
  · rw [rank1_of_hasDict hdict hi]; exact s.complete_answered (hfits 1)
  · rw [rank0_of_hasDict hdict hi]; exact s.complete_answered (hfits 0)

/-- Settles O32: both ranks are counts, and one position more adds one to one of them; (d) is that step from no
position at all. -/
theorem rankProperties : Obligations.RankProperties := by
  unfold Obligations.RankProperties
  intro s k b d hdict hd
  obtain rfl : RankDict.ofSizes b.len (sizeParams b.len) = d := Option.some.inj (hdict.rankDict.symm.trans hd)
  have hone (i : Nat) (hi : i < b.len) := rank1_of_hasDict hdict hi
  have hzero (i : Nat) (hi : i < b.len) := rank0_of_hasDict hdict hi
  have h2 := hdict.two_le
  refine ⟨fun i hi => ⟨hone i hi, ?_⟩, fun i hi => ?_, ?_⟩
  · rw [hone i hi, hzero i hi]
    exact b.count_zero_add_one (Nat.zero_le _) hi
  · rw [hone _ hi, hzero _ hi, hone i (by omega), hzero i (by omega)]
    exact b.count_succ_cases hi
  · rw [hone 0 (by omega), hzero 0 (by omega)]
    have hfirst := b.count_succ_cases (i := 0) (by omega)
    simp only [BitArray.count_self] at hfirst
    omega

/-- Settles O33: the tables' lengths are those of R134 and fit 64 bits; a scalar is a word as latched. -/
theorem rdOvhAndParamRead : Obligations.RdOvhAndParamRead := by
  unfold Obligations.RdOvhAndParamRead
  intro k s b hk hdict
  have h2 := hdict.two_le
  obtain ⟨hsbt, hblt⟩ := hdict.table_len
  obtain ⟨hsizes, hlen⟩ := RankDict.sizes_ofSizes h2 b.bitCount.isLt
  refine ⟨⟨_, exec_rdOvh_of_passes hk hdict.rankDict, ?_⟩, fun sel hsel => ?_⟩
  · rw [hsbt, hblt]
    exact s.complete_answered (sizesGood h2 b.bitCount.isLt).fits
  · obtain ⟨v, hparam, hv⟩ := RankDict.param_eq (RankDict.ofSizes b.len (sizeParams b.len)) hsel
    rw [hsizes, hlen] at hv
    exact ⟨_, exec_rdParam_of_passes hk hsel hdict.rankDict hparam, hv ▸ s.complete_answered v.isLt⟩

end Sys2Proof.Machine
end

section
/-!
PROOFS. The SEL commands (43_select.md R160 to R164): a search that has had enough rounds answers the same whatever
rounds remain, what the answer of a select says about the counts of the bits, and each command where its checks pass.
-/

namespace Sys2Proof.Machine

/-! The rounds of the search. -/

theorem searchLeftmost_of_lt (fn : Nat → Nat) (r fuel cand : Nat) {low high : Nat} (h : high < low) :
    searchLeftmost fn r fuel low high cand = cand := by
  cases fuel with
  | zero => rfl
  | succ fuel => rw [searchLeftmost, if_neg (Nat.not_le.mpr h)]

/-- One round more makes no difference: each round halves the range, so `bitLen` of its length empties it. -/
theorem searchLeftmost_succ (fn : Nat → Nat) (r : Nat) {fuel low high cand : Nat}
    (hf : bitLen (high + 1 - low) ≤ fuel) :
    searchLeftmost fn r (fuel + 1) low high cand = searchLeftmost fn r fuel low high cand := by
  induction fuel generalizing low high cand with
  | zero =>
    have hempty : ¬0 < high + 1 - low := fun hpos => absurd (bitLen_pos hpos) (by omega)
    rw [searchLeftmost_of_lt fn r 1 cand (by omega), searchLeftmost]
  | succ fuel ih =>
    by_cases hlh : low ≤ high
    · have hhalf {x : Nat} (hx : x ≤ (high + 1 - low) / 2) : bitLen x ≤ fuel := by
        have hmono := bitLen_mono hx
        rw [bitLen_half] at hmono
        omega
      have hupper (c : Nat) := ih (low := (low + high) / 2 + 1) (high := high) (cand := c) (hhalf (by omega))
      have hlower (c : Nat) (h0 : (low + high) / 2 ≠ 0) :=
        ih (low := low) (high := (low + high) / 2 - 1) (cand := c) (hhalf (by omega))
      rw [searchLeftmost, searchLeftmost, if_pos hlh, if_pos hlh]
      simp only [hupper]
      by_cases h0 : (low + high) / 2 = 0
      · simp only [h0, if_true]
      · simp only [h0, if_false, hlower _ h0]
    · have hlt := Nat.lt_of_not_le hlh
      rw [searchLeftmost_of_lt fn r _ cand hlt, searchLeftmost_of_lt fn r _ cand hlt]

theorem searchLeftmost_of_le (fn : Nat → Nat) (r low high cand : Nat) {fuel fuel' : Nat}
    (hf : bitLen (high + 1 - low) ≤ fuel) (h : fuel ≤ fuel') :
    searchLeftmost fn r fuel' low high cand = searchLeftmost fn r fuel low high cand := by
  induction fuel', h using Nat.le_induction with
  | base => rfl
  | succ m hm ih => exact (searchLeftmost_succ fn r (hf.trans hm)).trans ih

theorem select_eq_searchLeftmost (sl : Slot) (d : RankDict) (which : Nat) {r : Nat} (h1 : 1 ≤ r) (hr : r ≤ d.n.toNat) :
    select sl d which r
      = searchLeftmost (rankOf which sl d) r (bitLen d.n.toNat) 0 (d.n.toNat - 1) sentinelNat := by
  rw [select]
  exact if_neg (by omega)

/-! The answer of a select and the counts of the bits. -/

/-- The count through a position that holds the bit is reached there and not before. -/
theorem BitArray.count_le_count_iff (b : BitArray) {v p : Nat} (hp : p < b.len) (hb : b.bit p = v) (i : Nat) :
    b.count v 0 (p + 1) ≤ b.count v 0 (i + 1) ↔ p ≤ i := by
  constructor
  · intro h
    by_contra hlt
    have hbefore := b.count_mono v 0 (show i + 1 ≤ p by omega)
    have hstep := b.count_succ v 0 p
    rw [if_pos ⟨Nat.zero_le p, hp, hb⟩] at hstep
    omega
  · intro h
    exact b.count_mono v 0 (by omega)

namespace SelectAnswer

variable {b : BitArray} {bit r v : Nat}

theorem lt_two_pow (h : SelectAnswer b bit r v) : v < 2 ^ 64 := by
  rcases h with ⟨-, hv, -, -⟩ | ⟨-, rfl⟩
  · exact hv.trans b.bitCount.isLt
  · decide

theorem found (h : SelectAnswer b bit r v) (h1 : 1 ≤ r) (hr : r ≤ b.count bit 0 b.len) :
    v < b.len ∧ b.bit v = bit ∧ b.count bit 0 (v + 1) = r := by
  rcases h with ⟨-, hfound⟩ | ⟨hnone, -⟩
  · exact hfound
  · omega

/-- No position is 2^64 - 1, since a bit count is below 2^64. -/
theorem eq_sentinel_iff (h : SelectAnswer b bit r v) : v = 2 ^ 64 - 1 ↔ r = 0 ∨ b.count bit 0 b.len < r := by
  rcases h with ⟨h1, hv, -, hcount⟩ | ⟨hnone, hs⟩
  · have hlen : b.len < 2 ^ 64 := b.bitCount.isLt
    have hle := b.count_mono bit 0 (show v + 1 ≤ b.len from hv)
    omega
  · exact iff_of_true hs hnone

theorem of_bit {i : Nat} (hi : i < b.len) (hb : b.bit i = bit) : SelectAnswer b bit (b.count bit 0 (i + 1)) i := by
  have hstep := b.count_succ bit 0 i
  rw [if_pos ⟨Nat.zero_le i, hi, hb⟩] at hstep
  exact .inl ⟨by omega, hi, hb, rfl⟩

/-- From a position that does not hold the bit, the select of the count through it answers an earlier position. -/
theorem lt_of_bit_ne {i : Nat} (h : SelectAnswer b bit (b.count bit 0 (i + 1)) v) (hi : i < b.len)
    (hb : b.bit i ≠ bit) (h1 : 1 ≤ b.count bit 0 (i + 1)) : v < i := by
  obtain ⟨hv, hbit, hcount⟩ := h.found h1 (b.count_mono bit 0 hi)
  have hle : v ≤ i := (b.count_le_count_iff hv hbit i).mp hcount.le
  have hne : v ≠ i := fun heq => hb (heq ▸ hbit)
  omega

end SelectAnswer

/-! Each command where its checks pass. -/

section Passes

variable {k : SlotNum} {s : State} {d : RankDict}

theorem exec_selSelect1_of_passes (hk : k.toNat < s.config.nslot) (hd : (s.slot k.toNat).rankDict = some d) :
    exec (.selSelect1 k) s = .next (s.complete (select (s.slot k.toNat) d 1 s.operand0)) := by
  simp [exec, execSelSelect1, inSlot_of_lt hk, hd]

theorem exec_selSelect0_of_passes (hk : k.toNat < s.config.nslot) (hd : (s.slot k.toNat).rankDict = some d) :
    exec (.selSelect0 k) s = .next (s.complete (select (s.slot k.toNat) d 0 s.operand0)) := by
  simp [exec, execSelSelect0, inSlot_of_lt hk, hd]

theorem exec_selOvh_of_passes (hk : k.toNat < s.config.nslot) (hd : (s.slot k.toNat).rankDict = some d) :
    exec (.selOvh k) s = .next (s.complete 0) := by
  simp [exec, execSelOvh, inSlot_of_lt hk, hd]

end Passes

/-! The obligations. -/

/-- Settles O34: the answer of the search over a built dictionary (`select_of_hasDict`) fits the result. -/
theorem selectFindsThePosition : Obligations.SelectFindsThePosition := by
  unfold Obligations.SelectFindsThePosition
  intro k s b hk hdict
  have hone := select_of_hasDict hdict (v := 1) (by decide) s.operand0
  have hzero := select_of_hasDict hdict (v := 0) (by decide) s.operand0
  exact ⟨⟨_, _, exec_selSelect1_of_passes hk hdict.rankDict, s.complete_answered hone.lt_two_pow, hone⟩,
    ⟨_, _, exec_selSelect0_of_passes hk hdict.rankDict, s.complete_answered hzero.lt_two_pow, hzero⟩⟩

/-- Settles O35: rank is a count and select the answer described by that count, which a position holding the bit
determines; the rounds after the `bitLen n`-th find an empty range. -/
theorem selectInvertsRank : Obligations.SelectInvertsRank := by
  unfold Obligations.SelectInvertsRank
  intro s k b d hdict hd v hv
  obtain rfl : RankDict.ofSizes b.len (sizeParams b.len) = d := Option.some.inj (hdict.rankDict.symm.trans hd)
  have hrank (i : Nat) (hi : i < b.len) := rankOf_of_hasDict hdict hv hi
  have hselect (r : Nat) := select_of_hasDict hdict hv r
  refine ⟨fun r h1 hr => ?_, fun i hi => ?_, fun r => (hselect r).eq_sentinel_iff, fun r fuel h1 hr hfuel => ?_⟩
  · obtain ⟨hlt, hbit, hcount⟩ := (hselect r).found h1 hr
    refine ⟨hlt, (hrank _ hlt).trans hcount, hbit, fun i hi => ?_⟩
    rw [hrank i hi, ← b.count_le_count_iff hlt hbit i, hcount]
  · rw [hrank i hi]
    exact ⟨fun hb => (hselect _).unique (.of_bit hi hb), fun hb h1 => (hselect _).lt_of_bit_ne hi hb h1,
      fun h0 => (hselect _).eq_sentinel_iff.mpr (.inl h0)⟩
  · obtain ⟨-, hlen⟩ := RankDict.sizes_ofSizes hdict.two_le b.bitCount.isLt
    have hwhole : b.len - 1 + 1 - 0 = b.len := by omega
    rw [select_eq_searchLeftmost _ _ _ h1 (hr.trans_eq hlen.symm), hlen]
    exact searchLeftmost_of_le _ r 0 (b.len - 1) sentinelNat (by rw [hwhole]) hfuel

/-- Settles O36: a valid dictionary is the only check of SEL.OVH. -/
theorem selOvhIsZero : Obligations.SelOvhIsZero := by
  unfold Obligations.SelOvhIsZero
  intro k s hk hdict
  obtain ⟨d, hd⟩ := Option.isSome_iff_exists.mp hdict
  exact ⟨_, exec_selOvh_of_passes hk hd, s.complete_answered (by decide)⟩

end Sys2Proof.Machine
end

section
/-!
PROOFS. The WT commands (44_wavelet.md R170 to R184): how many nodes and leaves a plan has, what an answer of the select
walk determines, and per command the state it completes with where each of its checks passes. The two walks themselves
are those of Laws/Tree.lean (`wtRank_stands`, `wtSelect_stands`).
-/

namespace Sys2Proof.Machine

/-! The nodes of a plan (44_wavelet.md R172). -/

theorem idsInRange_iff {a : Nat} {seq : List Nat} : idsInRange a seq = true ↔ ∀ c ∈ seq, c < a := by
  simp [idsInRange]

theorem idsAllOccur_iff {a : Nat} {seq : List Nat} : idsAllOccur a seq = true ↔ ∀ c, c < a → c ∈ seq := by
  simp [idsAllOccur]

/-- A subtree over `[lo, hi]` has one leaf per symbol, and as many nodes as the slots it spans. -/
theorem planTree_counts {fuel lo hi : Nat} (j len : Nat) (seq : List Nat) (root : Bool) (hf : hi - lo < fuel)
    (hle : lo ≤ hi) :
    (planTree fuel j lo hi len seq root).length = spanOf lo hi ∧
      (planTree fuel j lo hi len seq root).countP (fun pn => decide (pn.lo = pn.hi)) = hi - lo + 1 := by
  induction fuel generalizing j lo hi len seq root with
  | zero => omega
  | succ fuel ih =>
    rw [planTree]
    by_cases hlt : lo < hi
    · have hmid : lo ≤ midOf lo hi ∧ midOf lo hi < hi := by unfold midOf; omega
      obtain ⟨hlen, hleaf⟩ := ih (j + 1) (leftSeq lo hi seq).length (leftSeq lo hi seq) false
        (show midOf lo hi - lo < fuel by omega) hmid.1
      obtain ⟨hlen', hleaf'⟩ := ih (rightSlot j lo hi) (rightSeq lo hi seq).length (rightSeq lo hi seq) false
        (show hi - (midOf lo hi + 1) < fuel by omega) hmid.2
      simp only [if_pos hlt, List.length_cons, List.length_append, List.countP_cons, List.countP_append, hlen, hlen',
        hleaf, hleaf', hlt.ne, decide_false, Bool.false_eq_true, if_false]
      unfold spanOf
      omega
    · obtain rfl : lo = hi := by omega
      simp [spanOf]

namespace PlanNode.Good

variable {plan : List PlanNode} {j lo hi c : Nat} {seq : List Nat} {root : Bool} {pn : PlanNode}

theorem mem_seq_iff (g : pn.Good plan j lo hi seq root) : c ∈ pn.seq ↔ c ∈ seq ∧ pn.lo ≤ c ∧ c ≤ pn.hi := by
  rw [g.seq]; simp

/-- A leaf holds exactly the occurrences of its symbol (44_wavelet.md R184 (e)). -/
theorem length_of_leaf (g : pn.Good plan j lo hi seq root) (he : pn.lo = pn.hi) :
    pn.seq.length = seq.count pn.lo := by
  rw [g.seq, ← List.countP_eq_length_filter, List.count]
  refine List.countP_congr fun c _ => ?_
  simp only [← he, Bool.and_eq_true, decide_eq_true_eq, beq_iff_eq]
  omega

end PlanNode.Good

/-- Settles O37: slots, ranges, sequences and children are those of `treePlan_good`, nodes and leaves those of
`planTree_counts`. -/
theorem treeSlotNumbering : Obligations.TreeSlotNumbering := by
  unfold Obligations.TreeSlotNumbering
  intro k a ids ha hids
  have hg := treePlan_good k ha (idsInRange_iff.mpr hids)
  obtain ⟨hlen, hleaves⟩ := planTree_counts (fuel := a) (hi := a - 1) k ids.length ids true (by omega) (Nat.zero_le _)
  rw [List.countP_eq_length_filter] at hleaves
  have hrun : runLength a = 2 * a - 1 := rfl
  refine ⟨hg.nodup, fun x => ⟨?_, fun ⟨hlo, hhi⟩ => hg.cover x hlo (by omega)⟩, ?_, ?_,
    ⟨_, hg.root, rfl, rfl, rfl, rfl⟩, fun pn hpn => ?_⟩
  · rintro ⟨pn, hpn, rfl⟩
    obtain ⟨hlo, hhi⟩ := hg.slot_lt ha hpn
    omega
  · exact hlen.trans (spanOf_run ha)
  · exact hleaves.trans (by omega)
  · have g := hg.nodes pn hpn
    have hhi := g.rangeHi
    refine ⟨g.range, by omega, g.len, by simp [g.isRoot], ?_, fun hlt =>
      ⟨⟨_, g.leftMem hlt, rfl, rfl, rfl, rfl⟩, ⟨_, g.rightMem hlt, rfl, rfl, rfl, rfl⟩⟩⟩
    simpa only [Bool.decide_and] using g.seq

/-! The answer of the select walk (44_wavelet.md R178, R184). -/

/-- Each occurrence is counted, so a later one has the larger count. -/
theorem count_take_lt_of_getElem_eq {seq : List Nat} {c i p : Nat} (hp : p < seq.length) (hc : seq[p] = c)
    (hlt : i < p) : (seq.take (i + 1)).count c < (seq.take (p + 1)).count c := by
  have hle : (seq.take (i + 1)).count c ≤ (seq.take p).count c :=
    (List.take_sublist_take_left hlt).count_le c
  have hstep : (seq.take (p + 1)).count c = (seq.take p).count c + 1 := by
    rw [List.count, countP_take_succ _ _ hp, if_pos (by simpa using hc)]
  omega

namespace SeqSelect

variable {seq : List Nat} {c occ v : Nat}

theorem lt_two_pow (h : SeqSelect seq c occ v) (hlen : seq.length < 2 ^ 64) : v < 2 ^ 64 := by
  rcases h with ⟨hv, -, -⟩ | ⟨-, rfl⟩
  · exact hv.trans hlen
  · decide

theorem found (h : SeqSelect seq c occ v) (h1 : 1 ≤ occ) (hocc : occ ≤ seq.count c) :
    ∃ hv : v < seq.length, seq[v] = c ∧ (seq.take (v + 1)).count c = occ := by
  rcases h with hfound | ⟨hnone, -⟩
  · exact hfound
  · omega

/-- The select of the count through an occurrence answers that occurrence: select inverts rank. -/
theorem eq_of_getElem {p : Nat} (hp : p < seq.length) (hc : seq[p] = c)
    (h : SeqSelect seq c ((seq.take (p + 1)).count c) v) : v = p := by
  have hmem : c ∈ seq.take (p + 1) := List.mem_take_iff_getElem.mpr ⟨p, by omega, hc⟩
  obtain ⟨hv, hvc, hcount⟩ := h.found (List.count_pos_iff.mpr hmem) ((List.take_sublist ..).count_le c)
  rcases Nat.lt_trichotomy v p with hlt | heq | hgt
  · have := count_take_lt_of_getElem_eq hp hc hlt; omega
  · exact heq
  · have := count_take_lt_of_getElem_eq hv hvc hgt; omega

end SeqSelect

/-! The nodes of a tree. -/

namespace TreeOver

variable {s : State} {k a m : Nat} {input : BitArray} {pn : PlanNode}

theorem slot_lt_nslot (h : TreeOver s k a m input) (hc : s.config.ok = true) (hpn : pn ∈ inputPlan k a m input) :
    pn.slot < s.config.nslot := by
  obtain ⟨-, hhi⟩ := (h.stands hc).good.slot_lt h.alphabetPos hpn
  exact hhi.trans_le h.fits

/-- What the rank walk answers at any node of a tree (44_wavelet.md R176). -/
theorem wtRank_eq (h : TreeOver s k a m input) (hc : s.config.ok = true) (hpn : pn ∈ inputPlan k a m input)
    (idx : Nat) :
    (pn.seq.length ≤ idx → wtRank s maxPath pn.slot idx = sentinelNat) ∧
      ∀ hi : idx < pn.seq.length, wtRank s maxPath pn.slot idx = (pn.seq.take (idx + 1)).count pn.seq[idx] :=
  wtRank_stands (h.stands hc) maxPath hpn ((h.stands hc).depth hpn) idx

theorem wtRank_lt (h : TreeOver s k a m input) (hc : s.config.ok = true) (hpn : pn ∈ inputPlan k a m input)
    (idx : Nat) : wtRank s maxPath pn.slot idx < 2 ^ 64 := by
  obtain ⟨hpast, hin⟩ := h.wtRank_eq hc hpn idx
  rcases Nat.lt_or_ge idx pn.seq.length with hi | hi
  · rw [hin hi]
    exact (List.count_le_length.trans (List.length_take_le' ..)).trans_lt ((h.stands hc).seq_length hpn)
  · rw [hpast hi]; decide

/-- What the select walk answers at any node of a tree, for a symbol of the node's range (44_wavelet.md R178). -/
theorem wtSelect_seqSelect (h : TreeOver s k a m input) (hc : s.config.ok = true) (hpn : pn ∈ inputPlan k a m input)
    {c : Nat} (hlo : pn.lo ≤ c) (hhi : c ≤ pn.hi) (occ : Nat) :
    SeqSelect pn.seq c occ (wtSelect s maxPath pn.slot c occ) :=
  wtSelect_stands (h.stands hc) maxPath hpn ((h.stands hc).depth hpn) hlo hhi occ

end TreeOver

/-! Each command where its checks pass. -/

/-- The fields of a node in the order of the selectors (44_wavelet.md R182). -/
def Node.scalars (nd : Node) : List Nat :=
  [nd.alphabetLow.toNat, nd.alphabetHigh.toNat, nd.mid, (if nd.alphabetLow = nd.alphabetHigh then 1 else 0),
    childField nd.left, childField nd.right, nd.seqLen.toNat, nd.symbolWordSize.toNat, nd.isRoot.toNat]

theorem Node.field_eq (nd : Node) {sel : Nat} (h : sel ≤ 8) : nd.field sel = some (nd.scalars.getD sel 0) := by
  have hleaf : (if nd.isLeaf then 1 else 0) = if nd.alphabetLow = nd.alphabetHigh then 1 else 0 := by
    simp [Node.isLeaf]
  have hroot : (if nd.isRoot then 1 else 0) = nd.isRoot.toNat := by cases nd.isRoot <;> rfl
  rw [Node.field, hleaf, hroot]
  interval_cases sel <;> rfl

theorem childField_lt (c : Option SlotNum) : childField c < 2 ^ 64 := by
  cases c with
  | none => decide
  | some j => exact j.isLt.trans (by decide)

/-- Every field fits the result. -/
theorem Node.scalars_lt (nd : Node) {sel : Nat} (h : sel ≤ 8) : nd.scalars.getD sel 0 < 2 ^ 64 := by
  have hlow := nd.alphabetLow.isLt
  have hhigh := nd.alphabetHigh.isLt
  have hmid : nd.mid < 2 ^ 64 := by unfold Node.mid midOf; omega
  have hleaf : (if nd.alphabetLow = nd.alphabetHigh then 1 else 0) < 2 ^ 64 := by split <;> decide
  have hwidth := nd.symbolWordSize.isLt
  have hroot := nd.isRoot.toNat_lt
  have hall : ∀ v ∈ nd.scalars, v < 2 ^ 64 := by
    simp only [Node.scalars, List.forall_mem_cons]
    exact ⟨by omega, by omega, hmid, hleaf, childField_lt _, childField_lt _, nd.seqLen.isLt, by omega, by omega,
      List.forall_mem_nil _⟩
  rw [List.getD_eq_getElem _ _ (Nat.lt_succ_of_le h)]
  exact hall _ (List.getElem_mem _)

section Passes

variable {k : SlotNum} {s : State} {nd : Node}

theorem exec_wtBuild_of_treeBuild {alphabet : Imm9} {input : BitArray}
    (h : TreeBuild s k.toNat alphabet.toNat s.operand0 input) :
    exec (.wtBuild k alphabet) s = .next (((s.buildPlan (symbolWidth alphabet.toNat)
      (inputPlan k.toNat alphabet.toNat s.operand0 input)).account 0
      (planNeed (symbolWidth alphabet.toNat) (inputPlan k.toNat alphabet.toNat s.operand0 input))).complete 0) := by
  have ha := h.alphabetPos
  have hmax := h.alphabetMax
  have hm := h.lengthPos
  have hfits := h.fits
  have hcap := h.capacity
  have hrun : runLength alphabet.toNat = 2 * alphabet.toNat - 1 := rfl
  have hsym : (s.slot k.toNat).symbols = some input := by rw [h.root]
  have hvacant : s.runVacant k.toNat alphabet.toNat = true :=
    (s.runVacant_iff k.toNat ha).mpr ⟨by rw [hsym]; exact h.root, fun t ht h0 => h.rest _ (by omega) (by omega)⟩
  have hids : buildIdsOk alphabet.toNat (buildIds input s.operand0 alphabet.toNat) = true := by
    rw [buildIdsOk_buildIds input _ hm, h.inRange, h.allOccur]; rfl
  have hroom : ¬s.overCapacity 0 (planNeed (symbolWidth alphabet.toNat)
      (inputPlan k.toNat alphabet.toNat s.operand0 input)) = true := by
    rw [State.overCapacity_iff]; omega
  rw [exec, execWtBuild, inSlot_of_lt (by omega)]
  simp only [hsym]
  rw [if_neg (by omega), if_neg (by omega), if_neg (by simp [hvacant]), if_neg (not_not_intro h.inputLen),
    if_neg (by simp [hids]), planNeed_buildIds, buildPlan_buildIds, if_neg hroom]

theorem exec_wtFree_of_passes (hk : k.toNat < s.config.nslot) (hn : (s.slot k.toNat).node = some nd)
    (hr : nd.isRoot = true) {cnt : Nat} (hcnt : cnt = runLength (nd.alphabetHigh.toNat - nd.alphabetLow.toNat + 1)) :
    exec (.wtFree k) s = .next (((s.clearRun k.toNat cnt).account (s.runBytes k.toNat cnt) 0).complete 0) := by
  simp [exec, execWtFree, inSlot_of_lt hk, hn, hr, hcnt]

theorem exec_wtRank_of_passes (hk : k.toNat < s.config.nslot) (hn : (s.slot k.toNat).node = some nd) :
    exec (.wtRank k) s = .next (s.complete (wtRank s maxPath k.toNat s.operand0)) := by
  simp [exec, execWtRank, inSlot_of_lt hk, hn]

theorem exec_wtSelect_of_passes {symbol : Imm9} (hk : k.toNat < s.config.nslot)
    (hn : (s.slot k.toNat).node = some nd) (hlo : nd.alphabetLow.toNat ≤ symbol.toNat)
    (hhi : symbol.toNat ≤ nd.alphabetHigh.toNat) :
    exec (.wtSelect k symbol) s = .next (s.complete (wtSelect s maxPath k.toNat symbol.toNat s.operand0)) := by
  have hsym : ¬255 < symbol.toNat := by have := nd.alphabetHigh.isLt; omega
  simp [exec, execWtSelect, inSlot_of_lt hk, hsym, hn, hlo.not_gt, hhi.not_gt]

theorem exec_wtField_of_passes {sel : Imm9} {v : Nat} (hk : k.toNat < s.config.nslot) (hsel : sel.toNat ≤ 8)
    (hn : (s.slot k.toNat).node = some nd) (hv : nd.field sel.toNat = some v) :
    exec (.wtField k sel) s = .next (s.complete v) := by
  simp [exec, execWtField, inSlot_of_lt hk, hsel.not_gt, hn, hv]

end Passes

/-! Building and freeing a run. -/

/-- A command that changed slots alone, its bytes then accounted for, completed OK. -/
theorem SameInputs.completedOk {s t : State} (h : SameInputs s t) (hsticky : t.sticky = s.sticky) (freed added : Nat) :
    CompletedOk s ((t.account freed added).complete 0) 0 :=
  ⟨rfl, rfl, hsticky, h.accountComplete freed added 0⟩

theorem State.runBytes_eq_sum (s : State) (k cnt : Nat) :
    s.runBytes k cnt = ((List.range cnt).map fun j => (s.slot (k + j)).bytes).sum := by
  induction cnt with
  | zero => rfl
  | succ cnt ih => rw [State.runBytes, ih, List.sum_range_succ]

/-! The obligations. -/

/-- Settles O38: with every check passed the build is a `TreeBuild`, and the tree it leaves has each node standing. -/
theorem wtBuildBuildsTheTree : Obligations.WtBuildBuildsTheTree := by
  unfold Obligations.WtBuildBuildsTheTree
  intro k a s input hc ha hmax hm hfits hroot hrest hlen hrange hoccur hcap
  have hrun : runLength a.toNat = 2 * a.toNat - 1 := rfl
  have hb : TreeBuild s k.toNat a.toNat s.operand0 input :=
    { alphabetPos := ha
      alphabetMax := hmax
      lengthPos := hm
      lengthMax := s.op0.isLt
      fits := by omega
      root := hroot
      rest := fun j hlo hhi => hrest j hlo (by omega)
      inputLen := hlen
      inRange := idsInRange_iff.mpr hrange
      allOccur := idsAllOccur_iff.mpr hoccur
      capacity := hcap }
  obtain ⟨-, -, hout⟩ := State.buildPlan_tree (s := s) (w := symbolWidth a.toNat) hb.good ha
  have hok := (s.buildPlan_sameInputs (symbolWidth a.toNat) (inputPlan k.toNat a.toNat s.operand0 input)).completedOk
    (s.buildPlan_sticky ..) 0 (planNeed (symbolWidth a.toNat) (inputPlan k.toNat a.toNat s.operand0 input))
  have htree := hb.treeOver hok.inputs.config fun _ => rfl
  refine ⟨_, exec_wtBuild_of_treeBuild hb, hok, ?_, htree.symbols,
    fun pn hpn => htree.nodeStands (hok.inputs.config ▸ hc) hpn, htree, .of_slot fun j hj => hout j (by omega)⟩
  rw [used_account_complete] <;> rw [State.buildPlan_used]
  · rfl
  · exact lt_two_pow_of_le_memBytes hc hcap

/-- Settles O40: the run of a root over `[0, high]` is `2 * high + 1` slots, and clearing it empties just these. -/
theorem wtFreeEmptiesTheRun : Obligations.WtFreeEmptiesTheRun := by
  unfold Obligations.WtFreeEmptiesTheRun
  intro k s nd hk hn hr hlow
  have hcnt : 2 * nd.alphabetHigh.toNat + 1 = runLength (nd.alphabetHigh.toNat - nd.alphabetLow.toNat + 1) := by
    have hzero : nd.alphabetLow.toNat = 0 := by rw [hlow]; rfl
    unfold runLength; omega
  have hok := (s.clearRun_sameInputs k.toNat (2 * nd.alphabetHigh.toNat + 1)).completedOk (s.clearRun_sticky ..)
    (s.runBytes k.toNat (2 * nd.alphabetHigh.toNat + 1)) 0
  refine ⟨_, exec_wtFree_of_passes hk hn hr hcnt, hok, ?_, fun j hlo hhi => ?_, .of_slot fun j hj => ?_⟩
  · rw [used_account_complete] <;> rw [State.clearRun_used]
    · rw [State.runBytes_eq_sum, Nat.add_zero]
    · exact lt_of_le_of_lt (Nat.sub_le ..) s.used.isLt
  · exact (s.clearRun_slot ..).trans (if_pos (by omega))
  · exact (s.clearRun_slot ..).trans (if_neg (by omega))

/-- Settles O41: what the rank walk answers at a node, which fits the result. -/
theorem wtRankCountsOccurrences : Obligations.WtRankCountsOccurrences := by
  unfold Obligations.WtRankCountsOccurrences
  intro s k a m input pn j hc htree hpn hj
  have hk : j.toNat < s.config.nslot := hj ▸ htree.slot_lt_nslot hc hpn
  have hn := (htree.stands hc).node hpn
  rw [← hj] at hn
  have hexec := exec_wtRank_of_passes hk hn
  rw [hj] at hexec
  obtain ⟨hpast, hin⟩ := htree.wtRank_eq hc hpn s.operand0
  exact ⟨_, _, hexec, s.complete_answered (htree.wtRank_lt hc hpn _), hpast, hin⟩

/-- Settles O42: what the select walk answers at a node for a symbol of its range, which fits the result. -/
theorem wtSelectFindsOccurrence : Obligations.WtSelectFindsOccurrence := by
  unfold Obligations.WtSelectFindsOccurrence
  intro s k a m input pn j c hc htree hpn hj hlo hhi
  have st := htree.stands hc
  have hk : j.toNat < s.config.nslot := hj ▸ htree.slot_lt_nslot hc hpn
  have hn := st.node hpn
  obtain ⟨-, hlow, hhigh, -, -⟩ := st.descriptor hpn
  rw [← hj] at hn
  have hexec := exec_wtSelect_of_passes hk hn (hlow.trans_le hlo) (hhi.trans_eq hhigh.symm)
  rw [hj] at hexec
  have hsel := htree.wtSelect_seqSelect hc hpn hlo hhi s.operand0
  exact ⟨_, _, hexec, s.complete_answered (hsel.lt_two_pow (st.seq_length hpn)), hsel⟩

/-- Settles O44: rank is a count of occurrences, select the answer described by that count, which an occurrence
determines; a leaf's sequence is the input's elements of a range of one symbol. -/
theorem treeRankSelectProperties : Obligations.TreeRankSelectProperties := by
  unfold Obligations.TreeRankSelectProperties
  intro s k a m input pn hc htree hpn
  have st := htree.stands hc
  have g := st.good.nodes pn hpn
  refine ⟨fun p hp => ?_, fun c o hlo hhi h1 ho => (htree.wtSelect_seqSelect hc hpn hlo hhi o).found h1 ho,
    fun he => ⟨g.length_of_leaf he, st.leaf_seq hpn he⟩⟩
  obtain ⟨-, hrank⟩ := htree.wtRank_eq hc hpn p
  obtain ⟨-, hlo, hhi⟩ := g.mem_seq_iff.mp (List.getElem_mem hp)
  rw [hrank hp]
  exact ⟨rfl, (htree.wtSelect_seqSelect hc hpn hlo hhi _).eq_of_getElem hp rfl⟩

/-- Settles O58: inside a run the only root is at its start (`TreeOver.le_of_mem`), so two runs that meet start at the
same slot. -/
theorem treesDoNotOverlap : Obligations.TreesDoNotOverlap := by
  unfold Obligations.TreesDoNotOverlap
  intro s k k' a a' m m' input input' hc h h' hne
  have hrun : runLength a = 2 * a - 1 := rfl
  have hrun' : runLength a' = 2 * a' - 1 := rfl
  have ha := h.alphabetPos
  have ha' := h'.alphabetPos
  by_contra hmeet
  exact hne (Nat.le_antisymm (h'.le_of_mem h hc (by omega)) (h.le_of_mem h' hc (by omega)))

/-- Settles O39: the checks pass on the printed input, and the build's result is evaluated slot by slot. -/
theorem workedTreeOverBanana : Obligations.WorkedTreeOverBanana := by
  unfold Obligations.WorkedTreeOverBanana
  refine ⟨_, exec_wtBuild_of_treeBuild (input := ⟨12#64, [(0, 0x21#8), (1, 0x02#8)]⟩) ?_, ?_⟩
  · exact ⟨by decide, by decide, by decide, by decide, by decide, rfl, fun j (h0 : 0 < j) _ => if_neg h0.ne',
      by decide +kernel, by decide +kernel, by decide +kernel, by decide +kernel⟩
  · and_intros
    all_goals decide +kernel

/-- Settles O43: the field that the selector names, which fits the result. -/
theorem wtFieldReadsScalars : Obligations.WtFieldReadsScalars := by
  unfold Obligations.WtFieldReadsScalars
  intro k s nd sel hk hn hsel
  refine ⟨_, exec_wtField_of_passes hk hsel hn (nd.field_eq hsel), ?_⟩
  have hanswer := s.complete_answered (nd.scalars_lt hsel)
  obtain ⟨isRoot, low, high, width, len, left, right⟩ := nd
  cases left <;> cases right <;> exact hanswer

end Sys2Proof.Machine
end

section
/-!
PROOFS. How a command's checks decide its completion (60_exceptions.md R202, R203): each rule is its list of checks
followed by what it does where all pass, so the first that fails is the code, and a failure changes STAT and RES alone.
-/

namespace Sys2Proof.Machine

/-- A rule that makes these checks in order ends in `t`: with the code of the first that fails, or OK. -/
inductive Reports (s : State) : List (Bool × Status) → State → Prop where
  | failed (c : Status) (cs : List (Bool × Status)) : Reports s ((true, c) :: cs) (s.fail c)
  | passed (c : Status) {cs : List (Bool × Status)} {t : State} (h : Reports s cs t) : Reports s ((false, c) :: cs) t
  | completed {t : State} (h : t.code = .ok) : Reports s [] t

namespace Reports

variable {s t : State} {b b' : Bool} {c : Status} {cs : List (Bool × Status)} {p : Prop} [Decidable p]

/-! What a report says. -/

theorem eq_fail (h : Reports s cs t) (hc : (cs.find? fun e => e.1).map (fun e => e.2) = some c) : t = s.fail c := by
  induction h with
  | failed => cases hc; rfl
  | passed _ _ ih => exact ih hc
  | completed => cases hc

theorem code_ok (h : Reports s cs t) (hc : (cs.find? fun e => e.1).map (fun e => e.2) = none) : t.code = .ok := by
  induction h with
  | failed => cases hc
  | passed _ _ ih => exact ih hc
  | completed h => exact h

theorem code_mem (h : Reports s cs t) : t.code = .ok ∨ t.code ∈ cs.map fun e => e.2 := by
  induction h with
  | failed => exact .inr (List.mem_cons_self ..)
  | passed _ _ ih => exact ih.imp_right (List.mem_cons_of_mem _)
  | completed h => exact .inl h

theorem failed_of_code_ne (h : Reports s cs t) (hne : t.code ≠ .ok) : Failed s t t.code := by
  induction h with
  | failed => exact s.fail_failed _
  | passed _ _ ih => exact ih hne
  | completed h => exact absurd h hne

/-! One check of a rule, against its entry in the list. -/

theorem check (hb : b = true ↔ p) (h : ¬p → Reports s cs t) : Reports s ((b, c) :: cs) (if p then s.fail c else t) := by
  split
  · next hp => obtain rfl := hb.mpr hp; exact .failed c cs
  · next hp => obtain rfl := Bool.eq_false_iff.mpr (mt hb.mp hp); exact .passed c (h hp)

theorem require (hb : b = true ↔ ¬p) (h : p → Reports s cs t) :
    Reports s ((b, c) :: cs) (if p then t else s.fail c) := by
  rw [← ite_not]
  exact check hb fun hp => h (not_not.mp hp)

/-- Two checks with one code that a rule makes together. -/
theorem checkEither (hb : (b || b') = true ↔ p) (h : ¬p → Reports s cs t) :
    Reports s ((b, c) :: (b', c) :: cs) (if p then s.fail c else t) := by
  cases b with
  | true => rw [if_pos (hb.mp rfl)]; exact .failed c _
  | false => exact .passed c (check hb h)

end Reports

/-- The slot test, then the command's own checks (30_encoding.md R85). -/
theorem inSlot_reports {k : SlotNum} {s t : State} {rule : Slot → State} {cs : List (Bool × Status)}
    (h : inSlot k s rule = .next t) (hrule : Reports s cs (rule (s.slot k.toNat))) :
    Reports s (slotCheck s k :: cs) t := by
  rw [inSlot_eq] at h
  cases h
  exact .check decide_eq_true_iff fun _ => hrule

/-! The tests that a rule and its list of checks write differently. -/

theorem BitArray.hasBit_of_arr {sl : Slot} {r : Role} {a : BitArray} (ha : sl.arr r = some a) (i : Nat) :
    decide ((sl.array r).len ≤ i) = true ↔ ¬a.hasBit i = true := by
  rw [decide_eq_true_iff, BitArray.hasBit_iff, Slot.array_of_arr ha, Nat.not_lt]

theorem BitArray.hasInt_of_arr {sl : Slot} {r : Role} {a : BitArray} (ha : sl.arr r = some a) (off w : Nat) :
    decide ((sl.array r).len < off + w) = true ↔ ¬a.hasInt off w = true := by
  rw [decide_eq_true_iff, BitArray.hasInt_iff, Slot.array_of_arr ha, Nat.not_le]

/-- Check 5 of WT.BUILD (44_wavelet.md R175). -/
theorem State.runVacant_eq_false_iff (s : State) (k : Nat) {a : Nat} (ha : 1 ≤ a) :
    s.runVacant k a = false ↔ s.slot k ≠ { Slot.empty with symbols := (s.slot k).symbols } ∨
      ∃ t, t < 2 * a - 1 ∧ t ≠ 0 ∧ s.slot (k + t) ≠ Slot.empty := by
  rw [← Bool.not_eq_true, s.runVacant_iff k ha, not_and_or]
  push Not
  rfl

/-! The rules against their lists. -/

section Rules

variable {k : SlotNum} {s t : State}

theorem execBaResize_reports {r : Role} (h : execBaResize k r s = .next t) :
    Reports s (checks s (.baResize k r)) t := by
  refine inSlot_reports h <| .check .rfl fun _ => ?_
  cases ha : (s.slot k.toNat).arr r with
  | none => exact .failed ..
  | some a =>
    rw [Slot.array_of_arr ha]
    exact .passed _ <| .check .rfl fun _ => .completed rfl

theorem execRdBuild_reports (h : execRdBuild k s = .next t) : Reports s (checks s (.rdBuild k)) t := by
  refine inSlot_reports h <| .check .rfl fun _ => .check .rfl fun _ => ?_
  cases hb : (s.slot k.toNat).partitionBits with
  | none => exact .failed ..
  | some b =>
    rw [Slot.array_of_arr (r := .P) hb]
    exact .passed _ <| .check decide_eq_true_iff fun _ => .check .rfl fun _ => .completed rfl

/-- The two checks of the ids are on the input's elements, also where the model does not write them out
(44_wavelet.md R175, checks 8 and 9). -/
theorem execWtBuild_reports {alphabet : Imm9} (h : execWtBuild k alphabet s = .next t) :
    Reports s (checks s (.wtBuild k alphabet)) t := by
  refine inSlot_reports h <| .check decide_eq_true_iff fun hp => .check decide_eq_true_iff fun _ =>
    .check (decide_eq_true_iff.trans (s.runVacant_eq_false_iff k.toNat (by omega)).symm) fun _ => ?_
  cases hin : (s.slot k.toNat).symbols with
  | none => exact .failed ..
  | some input =>
    rw [Slot.array_of_arr (r := .S) hin]
    refine .passed _ <| .check decide_eq_true_iff fun _ => .checkEither ?_ fun _ => .check ?_ fun _ => .completed rfl
    · rw [buildIdsOk_buildIds input _ (by omega), ← Bool.not_and, Bool.not_eq_true']
      exact .rfl
    · rw [planNeed_buildIds]
      exact .rfl

end Rules

/-- Every command makes the checks of its list in order, and ends as they say (60_exceptions.md R202). -/
theorem exec_reports {i : Instr} {s t : State} (h : exec i s = .next t) : Reports s (checks s i) t := by
  unfold exec at h
  cases i with
  | sysNop | sysReset | sysClrerr => cases h; exact .completed rfl
  | baNew => exact inSlot_reports h <| .check .rfl fun _ => .check .rfl fun _ => .check .rfl fun _ => .completed rfl
  | baResize => exact execBaResize_reports h
  | baFree k r =>
    refine inSlot_reports h <| .check .rfl fun _ => ?_
    cases (s.slot k.toNat).arr r with
    | none => exact .failed ..
    | some a => exact .passed _ <| .completed rfl
  | baLen k r =>
    refine inSlot_reports h ?_
    cases (s.slot k.toNat).arr r with
    | none => exact .failed ..
    | some a => exact .passed _ <| .completed rfl
  | baGetbit k r =>
    refine inSlot_reports h ?_
    cases ha : (s.slot k.toNat).arr r with
    | none => exact .failed ..
    | some a => exact .passed _ <| .require (BitArray.hasBit_of_arr ha _) fun _ => .completed rfl
  | baSetbit k r | baClrbit k r =>
    refine inSlot_reports h <| .check .rfl fun _ => ?_
    cases ha : (s.slot k.toNat).arr r with
    | none => exact .failed ..
    | some a => exact .passed _ <| .require (BitArray.hasBit_of_arr ha _) fun _ => .completed rfl
  | baGetint k r w =>
    refine inSlot_reports h <| .check decide_eq_true_iff fun _ => ?_
    cases ha : (s.slot k.toNat).arr r with
    | none => exact .failed ..
    | some a => exact .passed _ <| .require (BitArray.hasInt_of_arr ha _ _) fun _ => .completed rfl
  | baSetint k r w =>
    refine inSlot_reports h <| .check decide_eq_true_iff fun _ => .check .rfl fun _ => ?_
    cases ha : (s.slot k.toNat).arr r with
    | none => exact .failed ..
    | some a => exact .passed _ <| .require (BitArray.hasInt_of_arr ha _ _) fun _ => .completed rfl
  | rdBuild => exact execRdBuild_reports h
  | rdFree => exact inSlot_reports h <| .check .rfl fun _ => .check .rfl fun _ => .completed rfl
  | rdRank1 k | rdRank0 k =>
    refine inSlot_reports h ?_
    cases (s.slot k.toNat).rankDict with
    | none => exact .failed ..
    | some d => exact .passed _ <| .check decide_eq_true_iff fun _ => .completed rfl
  | rdOvh k | selSelect1 k | selSelect0 k | selOvh k =>
    refine inSlot_reports h ?_
    cases (s.slot k.toNat).rankDict with
    | none => exact .failed ..
    | some d => exact .passed _ <| .completed rfl
  | rdParam k sel =>
    refine inSlot_reports h <| .check decide_eq_true_iff fun hsel => ?_
    cases (s.slot k.toNat).rankDict with
    | none => exact .failed ..
    | some d =>
      obtain ⟨v, hv, -⟩ := d.param_eq (Nat.le_of_not_lt hsel)
      simp only [hv]
      exact .passed _ <| .completed rfl
  | wtBuild => exact execWtBuild_reports h
  | wtFree k =>
    refine inSlot_reports h ?_
    cases (s.slot k.toNat).node with
    | none => exact .failed ..
    | some nd => exact .passed _ <| .require (by simp) fun _ => .completed rfl
  | wtRank k =>
    refine inSlot_reports h ?_
    cases (s.slot k.toNat).node with
    | none => exact .failed ..
    | some nd => exact .passed _ <| .completed rfl
  | wtSelect k c =>
    refine inSlot_reports h <| .check decide_eq_true_iff fun _ => ?_
    cases (s.slot k.toNat).node with
    | none => exact .failed ..
    | some nd => exact .passed _ <| .check decide_eq_true_iff fun _ => .completed rfl
  | wtField k sel =>
    refine inSlot_reports h <| .check decide_eq_true_iff fun hsel => ?_
    cases (s.slot k.toNat).node with
    | none => exact .failed ..
    | some nd =>
      simp only [nd.field_eq (Nat.le_of_not_lt hsel)]
      exact .passed _ <| .completed rfl

end Sys2Proof.Machine
end

section
/-!
PROOFS. Exceptions (60_exceptions.md): which code a command completes with (R201, R202), what a failed command leaves
alone (R203), and the locks (R211).
-/

namespace Sys2Proof.Machine

/-! Completion codes. -/

/-- A failing check is the command's whole effect: its code, and a state that is otherwise as before. -/
theorem exec_of_firstFailure {i : Instr} {s : State} {c : Status} (hc : firstFailure i s = some c) :
    ∃ t, exec i s = .next t ∧ Failed s t c := by
  obtain ⟨t, ht⟩ := exec_completes i s
  obtain rfl := (exec_reports ht).eq_fail hc
  exact ⟨_, ht, s.fail_failed c⟩

/-- Settles O45: by what the report says of a first failure, or of none. -/
theorem firstFailingCheckIsReported : Obligations.FirstFailingCheckIsReported := by
  unfold Obligations.FirstFailingCheckIsReported
  intro i s
  cases hc : firstFailure i s with
  | some c => exact exec_of_firstFailure hc
  | none =>
    obtain ⟨t, ht⟩ := exec_completes i s
    exact ⟨t, ht, (exec_reports ht).code_ok hc⟩

/-- The codes of a command's checks are those its row marks (60_exceptions.md R201). -/
theorem checks_codes_subset (i : Instr) (s : State) : (checks s i).map (fun e => e.2) ⊆ failureCodes i := by
  cases i <;> simp [checks, slotCheck, failureCodes]

/-- Settles O47: a code other than OK is that of one of the command's checks. -/
theorem codesOfEachCommand : Obligations.CodesOfEachCommand := by
  unfold Obligations.CodesOfEachCommand
  exact fun i s t h => (exec_reports h).code_mem.imp_right fun hmem => checks_codes_subset i s hmem

theorem issue_failed_of_code_ne {data : Word} {s t : State} (h : issue data s = .next t) (hne : t.code ≠ .ok) :
    Failed (s.latchCmd data) t t.code := by
  cases hd : decode data with
  | illegal why =>
    rw [issue_of_illegal hd] at h
    cases h
    exact State.fail_failed _ _
  | command i =>
    rw [issue_of_command hd] at h
    exact (exec_reports h).failed_of_code_ne hne

/-- Settles O46: illegal data fail at once, a command by one of its checks; the step issues the data once the queue has
moved on. -/
theorem failedCommandsChangeNothing : Obligations.FailedCommandsChangeNothing := by
  unfold Obligations.FailedCommandsChangeNothing
  refine ⟨fun data s t => issue_failed_of_code_ne, fun data rest s t hq h hne => ?_⟩
  rw [step_write_cmd hq] at h
  exact issue_failed_of_code_ne h hne

/-! Locks. -/

/-- The check after the slot test decides where it fails. -/
theorem firstFailure_of_second {i : Instr} {k : SlotNum} {s : State} {b : Bool} {c : Status}
    {cs : List (Bool × Status)} (h : checks s i = slotCheck s k :: (b, c) :: cs) (hk : k.toNat < s.config.nslot)
    (hb : b = true) : firstFailure i s = some c := by
  rw [firstFailure, h, slotCheck, decide_eq_false hk.not_ge, hb]
  rfl

/-- The check after that decides where the first of the two passes. -/
theorem firstFailure_of_third {i : Instr} {k : SlotNum} {s : State} {b b' : Bool} {c c' : Status}
    {cs : List (Bool × Status)} (h : checks s i = slotCheck s k :: (b', c') :: (b, c) :: cs)
    (hk : k.toNat < s.config.nslot) (hb' : b' = false) (hb : b = true) : firstFailure i s = some c := by
  rw [firstFailure, h, slotCheck, decide_eq_false hk.not_ge, hb', hb]
  rfl

theorem Slot.locked_iff (sl : Slot) (r : Role) : sl.locked r = true ↔
    r = .SBT ∨ r = .BLT ∨ sl.node.isSome = true ∨ (r = .P ∧ sl.rankDict.isSome = true) := by
  cases r <;> simp [Slot.locked]

/-- Every host write of a whole array or of one bit tests the lock right after the slot. -/
theorem firstFailure_hostWrite_of_locked {k : SlotNum} {r : Role} {s : State} {i : Instr}
    (hk : k.toNat < s.config.nslot) (hl : (s.slot k.toNat).locked r = true)
    (hi : i ∈ [Instr.baNew k r, .baResize k r, .baFree k r, .baSetbit k r, .baClrbit k r]) :
    firstFailure i s = some .eLocked := by
  simp only [List.mem_cons, List.not_mem_nil, or_false] at hi
  obtain rfl | rfl | rfl | rfl | rfl := hi <;> exact firstFailure_of_second rfl hk hl

/-- Settles O24: the lock is the first check that fails, after the width for BA.SETINT and the node for WT.FREE. -/
theorem locksRefuseHostWrites : Obligations.LocksRefuseHostWrites := by
  unfold Obligations.LocksRefuseHostWrites
  refine fun k s hk => ⟨fun r hr => ?_, fun nd hn => ?_⟩
  · have hl := ((s.slot k.toNat).locked_iff r).mpr hr
    refine ⟨fun i hi => exec_of_firstFailure (firstFailure_hostWrite_of_locked hk hl hi), fun w hw => ?_⟩
    exact exec_of_firstFailure (firstFailure_of_third rfl hk (decide_eq_false hw.not_gt) hl)
  · have hnode : (s.slot k.toNat).node.isSome = true := by rw [hn]; rfl
    refine ⟨exec_of_firstFailure (firstFailure_of_second rfl hk hnode),
      exec_of_firstFailure (firstFailure_of_second rfl hk hnode), fun hroot => ?_⟩
    refine exec_of_firstFailure (firstFailure_of_third rfl hk ?_ ?_)
    · rw [hn]; rfl
    · rw [hn, Option.any_some, hroot]; rfl

/-- What a BA command does to the slots: nothing, or it replaces one array, which is not locked. -/
inductive BaEffect (s t : State) : Prop where
  | kept (h : t.slots = s.slots)
  | replaced (k : Nat) (r : Role) (hl : ¬(s.slot k).locked r = true) (h : OnlyArray k r s t)

namespace BaEffect

variable {s t : State} {c : Status} {p : Prop} [Decidable p]

theorem failed (s : State) (c : Status) : BaEffect s (s.fail c) := .kept rfl

theorem check (h : ¬p → BaEffect s t) : BaEffect s (if p then s.fail c else t) := by
  split
  · exact failed s c
  · next hp => exact h hp

theorem require (h : p → BaEffect s t) : BaEffect s (if p then t else s.fail c) := by
  rw [← ite_not]
  exact check fun hp => h (not_not.mp hp)

theorem account {k : Nat} {r : Role} (hl : ¬(s.slot k).locked r = true) (new : Option BitArray) (freed added : Nat) :
    BaEffect s (((s.setArr k r new).account freed added).complete 0) :=
  .replaced k r hl (arrayReplaced_account s k r new freed added).only

theorem inPlace {k : Nat} {r : Role} (hl : ¬(s.slot k).locked r = true) (new : Option BitArray) :
    BaEffect s ((s.setArr k r new).complete 0) :=
  .replaced k r hl (arrayReplaced_inPlace s k r new).only

theorem of_inSlot {k : SlotNum} {rule : Slot → State} (h : inSlot k s rule = .next t)
    (hrule : BaEffect s (rule (s.slot k.toNat))) : BaEffect s t := by
  rw [inSlot_eq] at h
  cases h
  exact check fun _ => hrule

end BaEffect

/-- The BA commands that only read are queries; the others test the lock before they write. -/
theorem exec_ba_effect {i : Instr} {s t : State} (hba : isBa i = true) (h : exec i s = .next t) : BaEffect s t := by
  by_cases hq : isQuery i = true
  · obtain ⟨hslots, -, -⟩ := queriesChangeNoData i s t hq h
    exact .kept hslots
  unfold exec at h
  cases i with
  | baNew => exact .of_inSlot h <| .check fun hl => .check fun _ => .check fun _ => .account hl ..
  | baResize k r =>
    refine .of_inSlot h <| .check fun hl => ?_
    cases (s.slot k.toNat).arr r with
    | none => exact .failed ..
    | some a => exact .check fun _ => .account hl ..
  | baFree k r =>
    refine .of_inSlot h <| .check fun hl => ?_
    cases (s.slot k.toNat).arr r with
    | none => exact .failed ..
    | some a => exact .account hl ..
  | baSetbit k r | baClrbit k r =>
    refine .of_inSlot h <| .check fun hl => ?_
    cases (s.slot k.toNat).arr r with
    | none => exact .failed ..
    | some a => exact .require fun _ => .inPlace hl _
  | baSetint k r w =>
    refine .of_inSlot h <| .check fun _ => .check fun hl => ?_
    cases (s.slot k.toNat).arr r with
    | none => exact .failed ..
    | some a => exact .require fun _ => .inPlace hl _
  | baLen | baGetbit | baGetint => exact absurd rfl hq
  | _ => simp [isBa, Instr.opcode] at hba

/-- Settles O51: a locked array is not the one that a BA command replaces. -/
theorem baCommandsKeepLockedObjects : Obligations.BaCommandsKeepLockedObjects := by
  unfold Obligations.BaCommandsKeepLockedObjects
  intro i s t hba h j
  obtain hslots | ⟨k, r, hl, honly⟩ := exec_ba_effect hba h
  · have hslot : t.slot j = s.slot j := by rw [State.slot, hslots]; rfl
    simp [hslot, State.readByte]
  · refine ⟨honly.node j, honly.rankDict j, fun q hq => ?_⟩
    have hne : j ≠ k ∨ q ≠ r := by
      by_contra hsame
      push Not at hsame
      obtain ⟨rfl, rfl⟩ := hsame
      exact hl hq
    exact ⟨honly.arr j q hne, fun b => honly.byte j q b hne⟩

end Sys2Proof.Machine
end

section
/-!
PROOFS. Hardware reset (70_reset_and_hazards.md R230): the whole state it leaves.
-/

namespace Sys2Proof.Machine

/-- Unlike SYS.RESET, hardware reset clears CMD too, so of `State.resetData` only the host's side differs from the reset
state (70_reset_and_hazards.md R230). -/
theorem State.hardReset_eq (s : State) :
    s.hardReset = { State.resetWith s.config with hostQueue := s.hostQueue, hostReads := s.hostReads } := rfl

/-- Settles O10: hardware reset is no command, so the step applies it to the state whose queue has moved on. -/
theorem hardResetKeepsTheHostSide : Obligations.HardResetKeepsTheHostSide := by
  unfold Obligations.HardResetKeepsTheHostSide
  intro s rest hq
  have hstep : step s = .next ({ s with hostQueue := rest } : State).hardReset := step_hostAct hq rfl
  rw [hstep, State.hardReset_eq]

end Sys2Proof.Machine
end

section
/-!
PROOFS. What one step leaves alone: everything where the host asks for nothing (00_scope.md R7), and every slot but its
own where a command outside the WT family runs (41_bitarray.md, 42_rank.md, 43_select.md).
-/

namespace Sys2Proof.Machine

/-- Settles O12: a step takes an action from the host's queue, and an empty queue has none. -/
theorem idleStepChangesNothing : Obligations.IdleStepChangesNothing := by
  unfold Obligations.IdleStepChangesNothing
  exact fun _ hq => step_idle hq

/-! The arms of a rule that writes one slot at most. -/

namespace SameSlotsBut

variable {s t : State} {p : Nat → Prop} {c : Prop} [Decidable c]

theorem of_slots_eq (h : t.slots = s.slots) : SameSlotsBut p s t :=
  .of_slot fun _ _ => by rw [State.slot, State.slot, h]

theorem failed (s : State) (code : Status) : SameSlotsBut p s (s.fail code) := .of_slots_eq rfl

/-- A test that refuses the command, before the rest of its rule. -/
theorem check {code : Status} (h : SameSlotsBut p s t) : SameSlotsBut p s (if c then s.fail code else t) := by
  split
  · exact failed s code
  · exact h

/-- A test without which the command is refused. -/
theorem require {code : Status} (h : SameSlotsBut p s t) : SameSlotsBut p s (if c then t else s.fail code) := by
  rw [← ite_not]
  exact check h

/-- Slot `k` is replaced, and its bytes are accounted for. -/
theorem written (s : State) (k : Nat) (sl : Slot) (freed added : Nat) :
    SameSlotsBut (· = k) s (((s.setSlot k sl).account freed added).complete 0) := by
  obtain ⟨-, -, hkept⟩ := slotReplaced_account s k sl freed added
  exact hkept

/-- Slot `k` is replaced by one of as many bytes. -/
theorem rewritten (s : State) (k : Nat) (sl : Slot) : SameSlotsBut (· = k) s ((s.setSlot k sl).complete 0) :=
  .of_slot fun _ hj => s.slot_setSlot_ne k sl hj

theorem of_inSlot {k : SlotNum} {rule : Slot → State} (h : inSlot k s rule = .next t)
    (hrule : SameSlotsBut p s (rule (s.slot k.toNat))) : SameSlotsBut p s t := by
  rw [inSlot_eq] at h
  cases h
  exact check hrule

end SameSlotsBut

/-- Settles O52: a query changes no slot, and the rules of the other commands outside the WT family end in a refusal or in
a write of their own slot. -/
theorem slotCommandsTouchOneSlot : Obligations.SlotCommandsTouchOneSlot := by
  unfold Obligations.SlotCommandsTouchOneSlot
  intro i k s t hk hfamily h
  by_cases hq : isQuery i = true
  · obtain ⟨hslots, -, -⟩ := queriesChangeNoData i s t hq h
    exact .of_slots_eq hslots
  unfold exec at h
  cases i with
  | sysNop | sysReset | sysClrerr => cases hk
  | wtBuild | wtFree => simp [Instr.opcode] at hfamily
  | baNew => cases hk; exact .of_inSlot h <| .check <| .check <| .check <| .written ..
  | baResize =>
    cases hk
    refine .of_inSlot h <| .check ?_
    split
    · exact .failed ..
    · exact .check <| .written ..
  | baFree =>
    cases hk
    refine .of_inSlot h <| .check ?_
    split
    · exact .failed ..
    · exact .written ..
  | baSetbit | baClrbit =>
    cases hk
    refine .of_inSlot h <| .check ?_
    split
    · exact .failed ..
    · exact .require <| .rewritten ..
  | baSetint =>
    cases hk
    refine .of_inSlot h <| .check <| .check ?_
    split
    · exact .failed ..
    · exact .require <| .rewritten ..
  | rdBuild =>
    cases hk
    refine .of_inSlot h <| .check <| .check ?_
    split
    · exact .failed ..
    · exact .check <| .check <| .written ..
  | rdFree => cases hk; exact .of_inSlot h <| .check <| .check <| .written ..
  | _ => exact absurd rfl hq

end Sys2Proof.Machine
end
